-- ==== Sys2Proof/Word.lean ====
section
/-! DEFINITION. The value types of the WaveGen core: bytes, channels, shapes, sampling-rate modes, and
the two-channel and two-mode pairs the register files are made of (spec/00_scope.md R6, R10, R11). -/

namespace Sys2Proof

/-- A `u8` of the spec (R10): every address space is one byte wide (R60). -/
abbrev Byte := BitVec 8

/-- The channel numbers 1 and 2 (R6 `N_CHANNELS`, R122: no third value exists). -/
inductive Channel where
  | one
  | two
  deriving DecidableEq, Repr, Inhabited

/-- The five shapes (R6 `N_SHAPES`, R20). -/
inductive Shape where
  | sine
  | square
  | triangle
  | sawtooth
  | reverseSawtooth
  deriving DecidableEq, Repr, Inhabited

/-- The sampling-rate mode (R28). -/
inductive Mode where
  | normal
  | highFrequency
  deriving DecidableEq, Repr, Inhabited

/-- The transfer direction of `sendControl` (R108, R234). -/
inductive Direction where
  | write
  | read
  deriving DecidableEq, Repr, Inhabited

/-- A decimal digit of a numeric literal (R96). -/
abbrev Digit := Fin 10

/-- `TICK_RATE[m]`: an opaque token (R7, D7); no rule computes with it (log entry 7). -/
abbrev TickRate := Nat

/-- A bus address: the spec gives neither its value nor its width (R65, D30; log entry 7). -/
abbrev BusAddr := Nat

/-- One value for each of the two channels. -/
structure PerChannel (α : Type) where
  one : α
  two : α
  deriving DecidableEq, Repr

/-- Read channel `c`'s element (the explicit two-case selection of R122). -/
def PerChannel.get {α : Type} (p : PerChannel α) : Channel → α
  | .one => p.one
  | .two => p.two

/-- Replace channel `c`'s element and leave the other channel's alone (R122). -/
def PerChannel.set {α : Type} (p : PerChannel α) : Channel → α → PerChannel α
  | .one, a => { p with one := a }
  | .two, a => { p with two := a }

/-- One value for each of the two sampling-rate modes. -/
structure PerMode (α : Type) where
  normal : α
  highFrequency : α
  deriving DecidableEq, Repr

/-- Read the element of mode `m`. -/
def PerMode.get {α : Type} (p : PerMode α) : Mode → α
  | .normal => p.normal
  | .highFrequency => p.highFrequency

/-- One value for each of the five shapes. -/
structure PerShape (α : Type) where
  sine : α
  square : α
  triangle : α
  sawtooth : α
  reverseSawtooth : α
  deriving DecidableEq, Repr

/-- Read the element of shape `s`. -/
def PerShape.get {α : Type} (p : PerShape α) : Shape → α
  | .sine => p.sine
  | .square => p.square
  | .triangle => p.triangle
  | .sawtooth => p.sawtooth
  | .reverseSawtooth => p.reverseSawtooth

end Sys2Proof
end

