-- ==== Sys2Proof/Machine/Memory.lean ====
section
/-! DEFINITION. A byte-wide memory as plain data in one canonical form, used for every address space of
spec/20_memory.md R60 (`BASE`, `SCALED1`, `SCALED2`, `CMDBUF`). -/

namespace Sys2Proof

/-- One address space's contents: (address, byte) cells, addresses strictly rising, no cell equal to
what an unlisted address reads as. -/
abbrev Memory := List Host.Cell

/-- What an unlisted address reads as.
DESIGN CHOICE (log entry 5): the only cells that can be read before anything wrote them are the stale
cells of `CMDBUF`, which the spec leaves unspecified (R31, R56, U12) and no operation reads. -/
def Memory.fill : Byte := 0

/-- `MemRead(space, addr, 1)` on one space (R60). -/
def Memory.read : Memory → Nat → Byte
  | [], _ => Memory.fill
  | (k, b) :: rest, a => if a = k then b else Memory.read rest a

/-- `MemWrite(space, addr, 1, v)` on one space (R60), keeping the canonical form. -/
def Memory.write : Memory → Nat → Byte → Memory
  | [], a, v => if v = Memory.fill then [] else [(a, v)]
  | (k, b) :: rest, a, v =>
    if a < k then
      if v = Memory.fill then (k, b) :: rest else (a, v) :: (k, b) :: rest
    else if a = k then
      if v = Memory.fill then rest else (a, v) :: rest
    else (k, b) :: Memory.write rest a v

/-- The cell `tabulate` lists for address `i`, if any. -/
def Memory.cellOf (f : Nat → Byte) (i : Nat) : Option Host.Cell :=
  if f i = Memory.fill then none else some (i, f i)

/-- The memory that reads as `f i` at every address `i < n`: what writing all `n` addresses of a space
leaves, whatever it held. -/
def Memory.tabulate (n : Nat) (f : Nat → Byte) : Memory :=
  (List.range n).filterMap (Memory.cellOf f)

/-- Write `bytes` at consecutive addresses from `a` on. -/
def Memory.writeFrom (m : Memory) : Nat → List Byte → Memory
  | _, [] => m
  | a, b :: rest => Memory.writeFrom (Memory.write m a b) (a + 1) rest

/-- The `n` bytes at addresses `a`, `a + 1`, …, in order. -/
def Memory.readFrom (m : Memory) : Nat → Nat → List Byte
  | _, 0 => []
  | a, n + 1 => Memory.read m a :: Memory.readFrom m (a + 1) n

/-- The canonical form. -/
abbrev Memory.wf (m : Memory) : Prop :=
  m.Pairwise (fun x y => x.1 < y.1) ∧ ∀ c ∈ m, c.2 ≠ Memory.fill

/-- Every listed address lies in a space of `n` bytes. -/
abbrev Memory.inSpace (n : Nat) (m : Memory) : Prop :=
  ∀ c ∈ m, c.1 < n

end Sys2Proof
end

