-- ==== Sys2Proof/Machine/Numeric.lean ====
section
/-! DEFINITION. The arithmetic functions of spec/00_scope.md R13, on exact rationals (R11). -/

namespace Sys2Proof

/-- `floor(x)` (R13). -/
def floorQ (x : Rat) : Int := x.floor

/-- `trunc(x)` (R13): toward zero. -/
def truncQ (x : Rat) : Int := if 0 ≤ x then floorQ x else -floorQ (-x)

/-- `frac(x) = x - floor(x)` (R13). -/
def fracQ (x : Rat) : Rat := x - (floorQ x : Rat)

/-- `round(x)`: nearest integer, ties away from zero (R13; the tie rule is UNVERIFIED, log entry 9). -/
def roundQ (x : Rat) : Int :=
  if 0 ≤ x then floorQ (x + 1 / 2) else -floorQ (-x + 1 / 2)

/-- `clamp(n, lo, hi)` (R13). -/
def clampZ (n lo hi : Int) : Int := if n < lo then lo else if hi < n then hi else n

end Sys2Proof
end

