-- ==== Sys2Proof/Config.lean ====
section
/-! DEFINITION. The fixed parameters (spec/00_scope.md R6, R9), the open parameters (R7) with their
constraints (R8), and the environment's free values (R12 `draw`, spec/92_eei_decisions.md). -/

namespace Sys2Proof

/-- `TABLE_LEN` (R6). -/
def tableLen : Nat := 256
/-- `SCALE`, the scale window (R6). -/
def scaleWindow : Nat := 15
/-- `HF_THRESHOLD` (R6). -/
def hfThreshold : Nat := 6000
/-- `CMD_CAP` (R9, R31). -/
def cmdCap : Nat := 9
/-- `TERMINATOR`, the byte `!` (R6). -/
def terminator : Byte := 0x21

/-- A channel descriptor (R20). The frequency is a count of hertz, never negative, so a Nat (log entry 8). -/
structure Desc where
  amplitude : Rat
  offset : Rat
  frequency : Nat
  shape : Shape
  deriving DecidableEq, Repr

/-- The ranges of R6 for the fields of a descriptor (R20). -/
def Desc.Legal (d : Desc) : Prop :=
  0 ≤ d.amplitude ∧ d.amplitude ≤ 10 ∧ -10 ≤ d.offset ∧ d.offset ≤ 10 ∧ 1 ≤ d.frequency ∧ d.frequency ≤ 10000

/-- The open parameters of R7, as plain data. -/
structure Params where
  /-- `BASE_TABLE`: the read-only address space `BASE`, 256 bytes a shape (R25, R60, R61) -/
  base : PerShape Memory
  /-- `T_INT[m]` -/
  tInt : PerMode Nat
  /-- `T_FLOAT[m]` -/
  tFloat : PerMode Rat
  /-- `TICK_RATE[m]` -/
  tickRate : PerMode TickRate
  /-- `BUS_BUDGET` -/
  busBudget : Nat
  /-- `SENSOR_ADDR` -/
  sensorAddr : BusAddr
  /-- `CMD_ONESHOT` -/
  cmdOneShot : Byte
  /-- `CMD_REGSEL` -/
  cmdRegSel : Byte
  /-- `RESET_DESC[c]` -/
  resetDesc : PerChannel Desc
  deriving DecidableEq, Repr

/-- The constraints of R8 (and that each base table is a 256-byte space, R60). -/
structure Params.Legal (p : Params) : Prop where
  base_wf : ∀ s, (p.base.get s).wf ∧ (p.base.get s).inSpace tableLen
  tInt_pos : ∀ m, 1 ≤ p.tInt.get m
  tFloat_pos : ∀ m, 0 < p.tFloat.get m
  budget_pos : 1 ≤ p.busBudget
  resetDesc_legal : ∀ c, (p.resetDesc.get c).Legal

/-- What moves next (R14, R74): the main sequencer, one of the two tick sources, the transport's
byte-received event, or the logic outside the block that owns `GS[7:4]` (R35). -/
inductive Move where
  | main
  | sampleTick
  | secTick
  | rxEvent (b : Byte)
  | gsHigh (v : BitVec 4)
  deriving DecidableEq, Repr, Inhabited

/-- The answer of `BUSDEV` to one request (R54). -/
inductive BusAnswer where
  /-- the acknowledgment flag is not set within the budget -/
  | never
  /-- the poll on which the flag is first seen, whether the status is the expected one, and the data -/
  | done (n : Nat) (good : Bool) (data : Byte)
  deriving DecidableEq, Repr, Inhabited

namespace Config

/-! The open parameters have no value in the spec (R7): each is a constant without a body, of a type that
holds exactly the values R8 allows. -/

/-- `BASE_TABLE` (D5, U1). -/
opaque baseTable : Shape → Nat → Byte
/-- `T_INT[m]`, at least 1 (D6). -/
opaque tInt : Mode → ℕ+
/-- Numerator of `T_FLOAT[m]` (D6). -/
opaque tFloatNum : Mode → ℕ+
/-- Denominator of `T_FLOAT[m]` (D6). -/
opaque tFloatDen : Mode → ℕ+
/-- `TICK_RATE[m]` (D7). -/
opaque tickRate : Mode → TickRate
/-- `BUS_BUDGET`, at least 1 (D31). -/
opaque busBudget : ℕ+
/-- `SENSOR_ADDR` (D30). -/
opaque sensorAddr : BusAddr
/-- `CMD_ONESHOT` (D30). -/
opaque cmdOneShot : Byte
/-- `CMD_REGSEL` (D30). -/
opaque cmdRegSel : Byte
/-- Amplitude at reset before it is brought into range (D35). -/
opaque resetAmplitude : Channel → Rat
/-- Offset at reset before it is brought into range (D35). -/
opaque resetOffset : Channel → Rat
/-- Frequency at reset, less one (D35). -/
opaque resetFrequencyPred : Channel → Fin 10000
/-- Shape at reset (D35). -/
opaque resetShape : Channel → Shape

/-! The environment's draws (R12 `draw`): free values, applied to the draw counter of State. -/

/-- Who moves when State lists no move (R74; log entry 1). -/
opaque freeMove : Nat → Move
/-- The answer of `BUSDEV` when State lists none (R54; log entry 2). -/
opaque freeAnswer : Nat → BusAnswer
/-- A `draw u8` of R244 (log entry 3). -/
opaque freeByte : Nat → Byte
/-- `GS[7:4]` at reset, which belongs to the environment (R35, R56, U13; log entry 4). -/
opaque gsHighAtReset : BitVec 4

/-- `x` brought into `[lo, hi]`: onto every value of the range. -/
def inRange (lo hi x : Rat) : Rat := if x < lo then lo else if hi < x then hi else x

/-- `RESET_DESC[c]` (R7, R291): any legal descriptor. -/
def resetDesc (c : Channel) : Desc where
  amplitude := inRange 0 10 (resetAmplitude c)
  offset := inRange (-10) 10 (resetOffset c)
  frequency := (resetFrequencyPred c).val + 1
  shape := resetShape c

/-- `BASE_TABLE[s]` as the memory the block reads (R25, R60). -/
def baseMemory (s : Shape) : Memory := Memory.tabulate tableLen (baseTable s)

/-- The open parameters this machine was built with: any that R8 allows. -/
def params : Params where
  base := ⟨baseMemory .sine, baseMemory .square, baseMemory .triangle, baseMemory .sawtooth, baseMemory .reverseSawtooth⟩
  tInt := ⟨(tInt .normal).val, (tInt .highFrequency).val⟩
  tFloat := ⟨(tFloatNum .normal).val / (tFloatDen .normal).val, (tFloatNum .highFrequency).val / (tFloatDen .highFrequency).val⟩
  tickRate := ⟨tickRate .normal, tickRate .highFrequency⟩
  busBudget := busBudget.val
  sensorAddr := sensorAddr
  cmdOneShot := cmdOneShot
  cmdRegSel := cmdRegSel
  resetDesc := ⟨resetDesc .one, resetDesc .two⟩

end Config

end Sys2Proof
end

