-- ==== Sys2Proof/Syntax.lean ====
section
/-! DEFINITION. The operations of the block as syntax: the numeric literal, the five telegrams, the requests
of the bus primitives, and `Instr` with one constructor for each row of spec/opcode_table.json (R2, R14). -/

namespace Sys2Proof

/-- A numeric literal `['-'] DIGIT+ ['.' DIGIT*]` (R96): `frac` is `some` when the point is present. -/
structure Literal where
  neg : Bool
  int : List Digit
  frac : Option (List Digit)
  deriving DecidableEq, Repr

/-- The five command telegrams (R91, R92, R93), with every byte of the body kept. -/
inductive Telegram where
  | am (c : Channel) (pad : Byte) (v : Literal)
  | of (c : Channel) (pad : Byte) (v : Literal)
  | fr (c : Channel) (pad : Byte) (v : Literal)
  | wa (c : Channel) (pad : Byte) (v : Literal)
  | continuee
  deriving DecidableEq, Repr

/-- The requests a bus primitive hands to the peripheral (R233 to R236). -/
inductive BusRequest where
  | start
  | control (direction : Direction) (address : BusAddr)
  | send (data : Byte)
  | receive (isLast : Bool)
  deriving DecidableEq, Repr

/-- The operations of the block, one constructor for each row of the opcode table, in its order. The first
five are the telegrams, the only ones with an encoding; the others are events and internal operations (R2). -/
inductive Instr where
  | am (c : Channel) (pad : Byte) (v : Literal)
  | of (c : Channel) (pad : Byte) (v : Literal)
  | fr (c : Channel) (pad : Byte) (v : Literal)
  | wa (c : Channel) (pad : Byte) (v : Literal)
  | continuee
  | recompute (c : Channel)
  | scaleTable (c : Channel)
  | deriveSelect (c : Channel)
  | deriveHold (c : Channel)
  | deriveSkip (c : Channel)
  | sampleTick
  | stepHold (c : Channel)
  | stepSkip (c : Channel)
  | stepIdle (c : Channel)
  | pack (s1 s2 : Byte)
  | rxPass
  | accumulate (ch : Byte)
  | accumulateOverflow (ch : Byte)
  | parse
  | replyPass
  | errorBranch
  | ackBranch
  | modeEval
  | resumeBranch
  | start
  | sendControl (direction : Direction) (address : BusAddr)
  | sendByte (data : Byte)
  | receiveByte (isLast : Bool)
  | secTick
  | secPass
  | poll
  | report (v : Byte)
  | rxEvent (b : Byte)
  | reset
  deriving DecidableEq, Repr

/-- A telegram as an operation. -/
def Telegram.toInstr : Telegram → Instr
  | .am c pad v => .am c pad v
  | .of c pad v => .of c pad v
  | .fr c pad v => .fr c pad v
  | .wa c pad v => .wa c pad v
  | .continuee => .continuee

end Sys2Proof
end

