-- ==== Sys2Proof/WellFormed.lean ====
section
/-! DEFINITION. Which terms of `Instr` stand for an operation of the spec (spec/30_encoding.md R90, R91, R96;
spec/42_command_protocol.md R181 to R183). -/

namespace Sys2Proof

/-- How many body bytes a literal takes (R96). -/
def Literal.width (v : Literal) : Nat :=
  (if v.neg then 1 else 0) + v.int.length +
    (match v.frac with
      | none => 0
      | some ds => 1 + ds.length)

/-- A literal has at least one integer digit and at most five characters (R91, R96). -/
def Literal.wellFormed (v : Literal) : Bool :=
  decide (v.int ≠ []) && decide (v.width ≤ 5)

/-- A configuration telegram's pad is any byte but the terminator (R91, R95). -/
def padWellFormed (pad : Byte) : Bool := decide (pad ≠ terminator)

/-- Well-formed telegrams (R91, R92). -/
def Telegram.wellFormed : Telegram → Bool
  | .am _ pad v => padWellFormed pad && v.wellFormed
  | .of _ pad v => padWellFormed pad && v.wellFormed
  | .fr _ pad v => padWellFormed pad && v.wellFormed
  | .wa _ pad v => padWellFormed pad && v.wellFormed
  | .continuee => true

/-- Well-formed operations: the telegrams as above; `ACCUMULATE` takes a byte that is no terminator (R181);
every other operand is any value of its type. -/
def Instr.wellFormed : Instr → Bool
  | .am _ pad v => padWellFormed pad && v.wellFormed
  | .of _ pad v => padWellFormed pad && v.wellFormed
  | .fr _ pad v => padWellFormed pad && v.wellFormed
  | .wa _ pad v => padWellFormed pad && v.wellFormed
  | .continuee => true
  | .recompute _ => true
  | .scaleTable _ => true
  | .deriveSelect _ => true
  | .deriveHold _ => true
  | .deriveSkip _ => true
  | .sampleTick => true
  | .stepHold _ => true
  | .stepSkip _ => true
  | .stepIdle _ => true
  | .pack _ _ => true
  | .rxPass => true
  | .accumulate ch => decide (ch ≠ terminator)
  | .accumulateOverflow ch => decide (ch ≠ terminator)
  | .parse => true
  | .replyPass => true
  | .errorBranch => true
  | .ackBranch => true
  | .modeEval => true
  | .resumeBranch => true
  | .start => true
  | .sendControl _ _ => true
  | .sendByte _ => true
  | .receiveByte _ => true
  | .secTick => true
  | .secPass => true
  | .poll => true
  | .report _ => true
  | .rxEvent _ => true
  | .reset => true

end Sys2Proof
end

