-- ==== Sys2Proof/Decode.lean ====
section
/-! DEFINITION. The telegram decoder, total on any bytes and rejecting by name (spec/30_encoding.md R101), the
encoder from the same tables (R91 to R97), and the opcode table's 72-bit numbering of a body. -/

namespace Sys2Proof

/-- Why a body is no telegram: causes F1 to F5 of R261. -/
inductive DecodeError where
  /-- F1: more than nine body bytes (R90, R102) -/
  | overflow
  /-- F2: shorter than five bytes (R101 test 2) -/
  | tooShort
  /-- F3: bytes 0, 1 are none of the four opcodes (R101 test 3) -/
  | unknownOpcode
  /-- F4: byte 2 is neither `'1'` nor `'2'` (R101 test 4) -/
  | badChannel
  /-- F5: bytes 4 on do not match the `VALUE` grammar (R101 test 5) -/
  | malformedValue
  deriving DecidableEq, Repr

/-- A decoded body: a telegram or a rejection by name. -/
inductive Decoded where
  | accept (t : Telegram)
  | reject (why : DecodeError)
  deriving DecidableEq, Repr

/-- The four opcodes (R93). -/
inductive Opcode where
  | am
  | of
  | fr
  | wa
  deriving DecidableEq, Repr

/-- The two bytes of each opcode (R93). -/
def Opcode.bytes : Opcode → List Byte
  | .am => [0x41, 0x4D]
  | .of => [0x4F, 0x46]
  | .fr => [0x46, 0x52]
  | .wa => [0x57, 0x41]

/-- The opcode two bytes spell, compared byte for byte (R93). -/
def readOpcode (b0 b1 : Byte) : Option Opcode :=
  if [b0, b1] = Opcode.bytes .am then some .am
  else if [b0, b1] = Opcode.bytes .of then some .of
  else if [b0, b1] = Opcode.bytes .fr then some .fr
  else if [b0, b1] = Opcode.bytes .wa then some .wa
  else none

/-- The channel character (R94). -/
def channelByte : Channel → Byte
  | .one => 0x31
  | .two => 0x32

/-- The channel a character selects (R94). -/
def readChannel (b : Byte) : Option Channel :=
  if b = channelByte .one then some .one else if b = channelByte .two then some .two else none

/-- The nine bytes of `CONTINUEE` (R92). -/
def continueeBytes : List Byte := [0x43, 0x4F, 0x4E, 0x54, 0x49, 0x4E, 0x55, 0x45, 0x45]

/-- `'-'` (R10). -/
def minusByte : Byte := 0x2D
/-- `'.'` (R10). -/
def pointByte : Byte := 0x2E

/-- The character of a digit (R96). -/
def digitByte (d : Digit) : Byte := BitVec.ofNat 8 (0x30 + d.val)

/-- The digit a character spells (R96). -/
def readDigit (b : Byte) : Option Digit :=
  if h : 0x30 ≤ b.toNat ∧ b.toNat ≤ 0x39 then some ⟨b.toNat - 0x30, by omega⟩ else none

/-- The leading digits of a byte string and what follows them. -/
def takeDigits : List Byte → List Digit × List Byte
  | [] => ([], [])
  | b :: rest =>
    match readDigit b with
    | none => ([], b :: rest)
    | some d => (d :: (takeDigits rest).1, (takeDigits rest).2)

/-- The fraction part: nothing, or a point followed by digits to the end (R96). -/
def readFraction : List Byte → Option (Option (List Digit))
  | [] => some none
  | b :: rest =>
    if b = pointByte then
      match takeDigits rest with
      | (ds, []) => some (some ds)
      | (_, _ :: _) => none
    else none

/-- `DIGIT+ ['.' DIGIT*]` (R96). -/
def readUnsigned (neg : Bool) (bs : List Byte) : Option Literal :=
  match takeDigits bs with
  | ([], _) => none
  | (d :: ds, rest) =>
    match readFraction rest with
    | none => none
    | some f => some ⟨neg, d :: ds, f⟩

/-- The `VALUE` field (R96). -/
def readLiteral : List Byte → Option Literal
  | [] => none
  | b :: rest => if b = minusByte then readUnsigned true rest else readUnsigned false (b :: rest)

/-- A configuration telegram from its opcode, channel, pad and value (R91). -/
def configTelegram (op : Opcode) (c : Channel) (pad : Byte) (v : Literal) : Telegram :=
  match op with
  | .am => .am c pad v
  | .of => .of c pad v
  | .fr => .fr c pad v
  | .wa => .wa c pad v

/-- Tests 2 to 5 of R101, in their order. -/
def decodeConfig : List Byte → Decoded
  | b0 :: b1 :: b2 :: b3 :: b4 :: value =>
    match readOpcode b0 b1 with
    | none => .reject .unknownOpcode
    | some op =>
      match readChannel b2 with
      | none => .reject .badChannel
      | some c =>
        match readLiteral (b4 :: value) with
        | none => .reject .malformedValue
        | some v => .accept (configTelegram op c b3 v)
  | _ => .reject .tooShort

/-- The decoder: the tests of R101 in their order, on the body without its terminator. A body longer than
nine bytes never reaches `PARSE` (R102); as bytes it is rejected for that. -/
def decodeBody (t : List Byte) : Decoded :=
  if t = continueeBytes then .accept .continuee
  else if cmdCap < t.length then .reject .overflow
  else decodeConfig t

/-- The operation a body stands for. -/
def decode (t : List Byte) : Option Instr :=
  match decodeBody t with
  | .accept tg => some tg.toInstr
  | .reject _ => none

/-- The characters of a fraction part (R96). -/
def fractionBytes : Option (List Digit) → List Byte
  | none => []
  | some ds => pointByte :: ds.map digitByte

/-- The characters of a literal (R96, R97: most significant digit first). -/
def Literal.bytes (v : Literal) : List Byte :=
  (if v.neg then [minusByte] else []) ++ v.int.map digitByte ++ fractionBytes v.frac

/-- The body of a configuration telegram (R91). -/
def encodeConfig (op : Opcode) (c : Channel) (pad : Byte) (v : Literal) : List Byte :=
  op.bytes ++ [channelByte c, pad] ++ v.bytes

/-- The body of a telegram, without its terminator (R91, R92). -/
def Telegram.encode : Telegram → List Byte
  | .am c pad v => encodeConfig .am c pad v
  | .of c pad v => encodeConfig .of c pad v
  | .fr c pad v => encodeConfig .fr c pad v
  | .wa c pad v => encodeConfig .wa c pad v
  | .continuee => continueeBytes

/-- The encoder: the body of a telegram; the events have no encoding (R2, spec/30_encoding.md). -/
def encode : Instr → Option (List Byte)
  | .am c pad v => some (Telegram.encode (.am c pad v))
  | .of c pad v => some (Telegram.encode (.of c pad v))
  | .fr c pad v => some (Telegram.encode (.fr c pad v))
  | .wa c pad v => some (Telegram.encode (.wa c pad v))
  | .continuee => some (Telegram.encode .continuee)
  | .recompute _ => none
  | .scaleTable _ => none
  | .deriveSelect _ => none
  | .deriveHold _ => none
  | .deriveSkip _ => none
  | .sampleTick => none
  | .stepHold _ => none
  | .stepSkip _ => none
  | .stepIdle _ => none
  | .pack _ _ => none
  | .rxPass => none
  | .accumulate _ => none
  | .accumulateOverflow _ => none
  | .parse => none
  | .replyPass => none
  | .errorBranch => none
  | .ackBranch => none
  | .modeEval => none
  | .resumeBranch => none
  | .start => none
  | .sendControl _ _ => none
  | .sendByte _ => none
  | .receiveByte _ => none
  | .secTick => none
  | .secPass => none
  | .poll => none
  | .report _ => none
  | .rxEvent _ => none
  | .reset => none

/-- The `n` bytes of the number `w`, the most significant first. -/
def bytesOf : Nat → Nat → List Byte
  | 0, _ => []
  | n + 1, w => BitVec.ofNat 8 (w / 256 ^ n) :: bytesOf n w

/-- Drop the 0x00 bytes a short body is padded with on the right. -/
def stripPadding : List Byte → List Byte
  | [] => []
  | b :: rest =>
    match stripPadding rest with
    | [] => if b = 0 then [] else [b]
    | r :: rs => b :: r :: rs

/-- The body a word of the opcode table stands for: byte 0 in the word's highest byte, the body
right-padded with 0x00 up to nine bytes (spec/opcode_table.json `word`; log entry 10). -/
def tableBody (nbits w : Nat) : List Byte :=
  stripPadding (bytesOf cmdCap (w * 2 ^ (8 * cmdCap - nbits) % 2 ^ (8 * cmdCap)))

/-- The operation the decoder reads from a word of the opcode table. -/
def decodeTableWord (nbits w : Nat) : Option Instr :=
  decode (tableBody nbits w)

end Sys2Proof
end

