-- ==== Sys2Proof/Machine/Records.lean ====
section
/-! DEFINITION. The records State is made of: schedule state (spec/10_state.md R22), the output port image
(R35), bus results (spec/43_bus_and_poller.md R231) and the pass position (R180). -/

namespace Sys2Proof.Machine

/-- Schedule state of one channel (R22). The counts are the spec's unbounded non-negative integers (D4). -/
structure Sched where
  tableIndex : BitVec 8
  repeatCount : Nat
  inverseRepeat : Nat
  thresholdRepeat : Nat
  thresholdSkip : Nat
  sampleCounter : Nat
  tickCounter : Nat
  deriving DecidableEq, Repr

/-- All seven fields zero (R24). -/
def Sched.zero : Sched := ⟨0, 0, 0, 0, 0, 0, 0⟩

/-- The output port image: `G1[5:0]`, `G2[5:0]` and `GS[7:0]`, of which the block owns `GS[3:0]` (R35). -/
structure PortImage where
  g1 : BitVec 6
  g2 : BitVec 6
  gs : BitVec 8
  deriving DecidableEq, Repr

/-- The result of a bus primitive (R231); `ok` carries the data byte, which only `receiveByte` yields. -/
inductive BusResult where
  | ok (data : Byte)
  | protocolError
  | timeout
  deriving DecidableEq, Repr

/-- Where the main sequencer stands: the operation it executes next (R180, R56). -/
inductive PassPos where
  | reply
  | rx
  | sec
  deriving DecidableEq, Repr

/-- The address spaces of R60 that hold bytes. -/
inductive Space where
  | base (s : Shape)
  | scaled (c : Channel)
  | cmdBuf
  deriving DecidableEq, Repr

end Sys2Proof.Machine
end

