-- ==== Sys2Proof/Machine/Formula.lean ====
section
/-! DEFINITION. The synthesizer's and the scheduler's formulas as functions of values, before any state:
table scaling (spec/40_synthesizer.md R123), schedule derivation (R125 to R127), the mode rule
(spec/42_command_protocol.md R203), one scheduler step (spec/41_scheduler_packer.md R152 to R155) and the
packing (R160). -/

namespace Sys2Proof.Machine

/-- `raw` of R123 for base sample `b`. -/
def scaleRaw (amp off : Rat) (b : Byte) : Rat :=
  amp / 3 * (b.toNat : Rat) + 127 * (3 - amp) / 3 - off / 3 * 127

/-- One entry of a scaled table: round, then clamp (R123). -/
def scaleEntry (amp off : Rat) (b : Byte) : Byte :=
  BitVec.ofInt 8 (clampZ (roundQ (scaleRaw amp off b)) 0 255)

/-- The 256 entries `SCALE_TABLE` writes for a descriptor (R123). -/
def scaledTable (base : PerShape Memory) (d : Desc) : Memory :=
  Memory.tabulate tableLen fun i => scaleEntry d.amplitude d.offset ((base.get d.shape).read i)

/-- `round(SCALE * (1 - frac(r)))` (R126, R127). -/
def windowThreshold (r : Rat) : Nat :=
  (roundQ ((scaleWindow : Rat) * (1 - fracQ r))).toNat

/-- The fields hold mode writes (R126). -/
def holdSchedule (tInt : Nat) (tFloat : Rat) (f : Nat) (k : Sched) : Sched :=
  { k with repeatCount := tInt / f, thresholdRepeat := windowThreshold (tFloat / (f : Rat)) }

/-- The fields skip mode writes (R127). -/
def skipSchedule (tInt : Nat) (tFloat : Rat) (f : Nat) (k : Sched) : Sched :=
  { k with inverseRepeat := f / tInt, thresholdSkip := windowThreshold ((f : Rat) / tFloat) }

/-- Mode selection of R125: hold below `T_int`, skip from it on. -/
def selectSchedule (tInt : Nat) (tFloat : Rat) (f : Nat) (k : Sched) : Sched :=
  if f < tInt then holdSchedule tInt tFloat f k else skipSchedule tInt tFloat f k

/-- `MODE_EVAL` as a function of the two descriptors (R203). -/
def modeOf (d : PerChannel Desc) : Mode :=
  if hfThreshold ≤ d.one.frequency ∨ hfThreshold ≤ d.two.frequency then .highFrequency else .normal

/-- `(sampleCounter + 1) mod 15` (R152, R153). -/
def nextSampleCounter (k : Sched) : Nat := (k.sampleCounter + 1) % scaleWindow

/-- The hold limit: chosen by the not-yet-incremented window position (R152). -/
def holdLimit (k : Sched) : Nat :=
  if k.sampleCounter ≤ k.thresholdRepeat then k.repeatCount else k.repeatCount + 1

/-- One hold step (R152). -/
def holdStep (k : Sched) : Sched :=
  if holdLimit k ≤ k.tickCounter + 1 then
    { k with tableIndex := k.tableIndex + 1, tickCounter := 0, sampleCounter := nextSampleCounter k }
  else { k with tickCounter := k.tickCounter + 1, sampleCounter := nextSampleCounter k }

/-- The skip amount (R153). -/
def skipAmount (k : Sched) : Nat :=
  if k.sampleCounter ≤ k.thresholdSkip then k.inverseRepeat else k.inverseRepeat + 1

/-- One skip step: the index is reduced mod 256 from the mathematical sum (R153, R155). -/
def skipStep (k : Sched) : Sched :=
  { k with
    tableIndex := BitVec.ofNat 8 (k.tableIndex.toNat + skipAmount k)
    sampleCounter := nextSampleCounter k }

/-- One scheduler step: hold first, then skip, else idle (R152, R153, R154, R155). -/
def schedStep (k : Sched) : Sched :=
  if k.repeatCount ≠ 0 then holdStep k else if k.inverseRepeat ≠ 0 then skipStep k else k

/-- The packed image: the high six bits of each sample on its own group, the low two bits of both on
`GS[3:0]`, `GS[7:4]` written back (R160). -/
def packImage (s1 s2 : Byte) (gs : BitVec 8) : PortImage where
  g1 := s1.extractLsb' 2 6
  g2 := s2.extractLsb' 2 6
  gs := gs.extractLsb' 4 4 ++ s2.extractLsb' 0 2 ++ s1.extractLsb' 0 2

end Sys2Proof.Machine
end

