-- ==== Sys2Proof/Machine/State.lean ====
section
/-! DEFINITION. The machine's state as plain data, the reasons a step can stop, and the state after reset
(spec/10_state.md R20 to R36, R50 to R56; spec/70_reset_and_hazards.md R292). -/

namespace Sys2Proof.Machine

/-- Everything the spec gives the block, the boundary state of its collaborators (R50 to R54), and what
stands for the environment. -/
structure State where
  /-- the instantiation of the open parameters, `BASE` among them (R7, R25, R60, R61); no operation writes it -/
  params : Params
  /-- channel descriptors (R20) -/
  desc : PerChannel Desc
  /-- schedule state (R22) -/
  sched : PerChannel Sched
  /-- scaled output tables, the spaces `SCALED1` and `SCALED2` (R26, R60) -/
  scaled : PerChannel Memory
  /-- sampling-rate mode (R28) -/
  mode : Mode
  /-- `thresholdFreqInt` (R28) -/
  tfInt : Nat
  /-- `thresholdFreqFloat` (R28) -/
  tfFloat : Rat
  /-- the rate selected for the sampling tick source (R28, R53) -/
  tickRateSel : TickRate
  /-- temperature reporting gate (R29) -/
  tempReportEnable : Bool
  /-- the nine cells of `CMDBUF` (R31, R60) -/
  cmdBuf : Memory
  /-- cells of `CMDBUF` in use (R31) -/
  cmdLen : Nat
  /-- an error reply is owed (R32) -/
  errPending : Bool
  /-- an acknowledgment and a re-synthesis are owed (R32) -/
  ackPending : Bool
  /-- the re-enabling of the tick sources is owed (R32) -/
  resumePending : Bool
  /-- the one-second flag (R33) -/
  oneSecondFlag : Bool
  /-- mask of the sampling tick (R34) -/
  sampleTickEnable : Bool
  /-- mask of the 1 Hz tick (R34) -/
  secTickEnable : Bool
  /-- the output port image (R35) -/
  port : PortImage
  /-- the output port images so far, oldest first: one per executed `SAMPLE_TICK` (R15 (a)) -/
  portTrace : List PortImage
  /-- the transport's receive queue, oldest first (R50) -/
  rxQueue : List Byte
  /-- the bytes handed to the transport, oldest first (R52) -/
  txStream : List Byte
  /-- the requests handed to the bus peripheral, oldest first (R54, R15 (c)) -/
  busRequests : List BusRequest
  /-- the main sequencer's position in the pass (R180, R56) -/
  passPos : PassPos
  /-- the environment: who moves next, as far as it is listed (R74; log entry 1) -/
  moves : List Move
  /-- the environment: the answers `BUSDEV` will give, as far as they are listed (R54; log entry 2) -/
  busAnswers : List BusAnswer
  /-- the environment: how many free values have been drawn (log entries 1 to 3) -/
  draws : Nat
  deriving DecidableEq, Repr

/-- Why a step can stop with a fault: never. "No condition in this core is fatal" (R265), so the type has no
constructor. -/
inductive Fault where
  deriving DecidableEq, Repr

/-- Why a step can be refused. -/
inductive Refusal where
  /-- `exec` raises it for an operation that has no meaning yet (safe: the model stops where the hardware goes
  on); no arm of this model does. -/
  | notModelled (mnemonic : String)
  deriving DecidableEq, Repr

/-- The schedule a descriptor has right after `RECOMPUTE` (R121). -/
def freshSched (tInt : Nat) (tFloat : Rat) (d : Desc) : Sched :=
  selectSchedule tInt tFloat d.frequency Sched.zero

/-- The machine right after reset: the table of R56, which `RESET` (R292) produces, over any open parameters
that R8 allows. The environment's fields are the model's own (log entry 19). -/
def State.reset : State where
  params := Config.params
  desc := Config.params.resetDesc
  sched :=
    let m := modeOf Config.params.resetDesc
    ⟨freshSched (Config.params.tInt.get m) (Config.params.tFloat.get m) Config.params.resetDesc.one,
     freshSched (Config.params.tInt.get m) (Config.params.tFloat.get m) Config.params.resetDesc.two⟩
  scaled :=
    ⟨scaledTable Config.params.base Config.params.resetDesc.one,
     scaledTable Config.params.base Config.params.resetDesc.two⟩
  mode := modeOf Config.params.resetDesc
  tfInt := Config.params.tInt.get (modeOf Config.params.resetDesc)
  tfFloat := Config.params.tFloat.get (modeOf Config.params.resetDesc)
  tickRateSel := Config.params.tickRate.get (modeOf Config.params.resetDesc)
  tempReportEnable := decide (modeOf Config.params.resetDesc = .normal)
  cmdBuf := []
  cmdLen := 0
  errPending := false
  ackPending := false
  resumePending := false
  oneSecondFlag := false
  sampleTickEnable := true
  secTickEnable := true
  port := ⟨0, 0, Config.gsHighAtReset ++ (0 : BitVec 4)⟩
  portTrace := []
  rxQueue := []
  txStream := []
  busRequests := []
  passPos := .reply
  moves := []
  busAnswers := []
  draws := 0

end Sys2Proof.Machine
end

