-- ==== Sys2Proof/Machine/Flags.lean ====
section
/-! DEFINITION. The writes of the status bits (spec/10_state.md R36, the complete list) and of the
sampling-rate mode group (R28, R29). -/

namespace Sys2Proof.Machine

/-- Both tick masks, which are always written together (R34, R181, R208). -/
def setTicks (b : Bool) (s : State) : State := { s with sampleTickEnable := b, secTickEnable := b }

/-- Write `errPending` (R32). -/
def setErrPending (b : Bool) (s : State) : State := { s with errPending := b }

/-- Write `ackPending` (R32). -/
def setAckPending (b : Bool) (s : State) : State := { s with ackPending := b }

/-- Write `resumePending` (R32). -/
def setResumePending (b : Bool) (s : State) : State := { s with resumePending := b }

/-- Write `oneSecondFlag` (R33). -/
def setOneSecond (b : Bool) (s : State) : State := { s with oneSecondFlag := b }

/-- Ack step (1): the mode from the two current descriptors (R203). -/
def evalMode (s : State) : State := { s with mode := modeOf s.desc }

/-- Ack step (2): the three constants of the mode (R204). -/
def loadConstants (s : State) : State :=
  { s with
    tickRateSel := s.params.tickRate.get s.mode
    tfInt := s.params.tInt.get s.mode
    tfFloat := s.params.tFloat.get s.mode }

/-- Ack step (3): reports in Normal mode only (R205, R29). -/
def gateReports (s : State) : State := { s with tempReportEnable := decide (s.mode = .normal) }

end Sys2Proof.Machine
end

