-- ==== Sys2Proof/Machine/Operands.lean ====
section
/-! DEFINITION. Operands: the value of a numeric literal and its two readings (spec/30_encoding.md R97, R98,
R99), the shape code (R100), and the legal ranges of the four settings (spec/00_scope.md R6). -/

namespace Sys2Proof

/-- Digits read in base 10, most significant first (R97). -/
def digitsValue : List Digit → Nat
  | [] => 0
  | d :: ds => d.val * 10 ^ ds.length + digitsValue ds

/-- The fraction digits of a literal (R97): none without a point. -/
def Literal.fracDigits (v : Literal) : List Digit :=
  match v.frac with
  | none => []
  | some ds => ds

/-- `mag` of R97, exact. -/
def Literal.magnitude (v : Literal) : Rat :=
  (digitsValue v.int : Rat) + (digitsValue v.fracDigits : Rat) / (10 ^ v.fracDigits.length : Nat)

/-- `decval` of R97, which is `fval` (R98). -/
def Literal.fval (v : Literal) : Rat := if v.neg then -v.magnitude else v.magnitude

/-- `ival = trunc(decval)` (R99). -/
def Literal.ival (v : Literal) : Int := truncQ v.fval

/-- `SHAPE(1..5)` (R100, R192). -/
def shapeOfCode (n : Int) : Option Shape :=
  if n = 1 then some .sine
  else if n = 2 then some .square
  else if n = 3 then some .triangle
  else if n = 4 then some .sawtooth
  else if n = 5 then some .reverseSawtooth
  else none

/-- `[AMP_MIN, AMP_MAX]` (R6, R189). -/
def amplitudeInRange (x : Rat) : Bool := decide (0 ≤ x) && decide (x ≤ 10)

/-- `[OFF_MIN, OFF_MAX]` (R6, R190). -/
def offsetInRange (x : Rat) : Bool := decide (-10 ≤ x) && decide (x ≤ 10)

/-- `[FREQ_MIN, FREQ_MAX]` (R6, R191). -/
def frequencyInRange (n : Int) : Bool := decide (1 ≤ n) && decide (n ≤ 10000)

end Sys2Proof
end

