-- ==== Sys2Proof/Machine/Ops.lean ====
section
/-! DEFINITION. The shared operations over memory, the register files, the streams and the environment's
draws, and the one error action with the recovery from it (spec/60_exceptions.md R262, R272). -/

namespace Sys2Proof.Machine

/-- `MemRead(space, addr, 1)` (R12, R60). -/
def memRead (sp : Space) (a : Nat) (s : State) : Byte :=
  match sp with
  | .base sh => (s.params.base.get sh).read a
  | .scaled c => (s.scaled.get c).read a
  | .cmdBuf => s.cmdBuf.read a

/-- Replace the contents of a channel's scaled table (R26). -/
def setScaled (c : Channel) (m : Memory) (s : State) : State := { s with scaled := s.scaled.set c m }

/-- Replace the cells of the command buffer (R31). -/
def setCmdBuf (m : Memory) (s : State) : State := { s with cmdBuf := m }

/-- `MemWrite(space, addr, 1, v)` (R12, R60); `BASE` is never mutated (R61). -/
def memWrite (sp : Space) (a : Nat) (v : Byte) (s : State) : State :=
  match sp with
  | .base _ => s
  | .scaled c => setScaled c ((s.scaled.get c).write a v) s
  | .cmdBuf => setCmdBuf (s.cmdBuf.write a v) s

/-- Replace a channel descriptor (R20, R21). -/
def setDesc (c : Channel) (d : Desc) (s : State) : State := { s with desc := s.desc.set c d }

/-- Replace a channel's schedule state (R22). -/
def setSched (c : Channel) (k : Sched) (s : State) : State := { s with sched := s.sched.set c k }

/-- Write `cmdLen` (R31). -/
def setCmdLen (n : Nat) (s : State) : State := { s with cmdLen := n }

/-- Clear the command buffer (R31). -/
def clearCmdBuffer (s : State) : State := setCmdLen 0 s

/-- The telegram body in the command buffer (R184). -/
def cmdBody (s : State) : List Byte := s.cmdBuf.readFrom 0 s.cmdLen

/-- `emit(bytes)` (R12, R52). -/
def emit (bytes : List Byte) (s : State) : State := { s with txStream := s.txStream ++ bytes }

/-- Replace the receive queue (R50, R51). -/
def setRxQueue (q : List Byte) (s : State) : State := { s with rxQueue := q }

/-- Commit a port image as a whole, once per executed tick (R64, R161, R15 (a)). -/
def commitPort (p : PortImage) (s : State) : State :=
  { s with port := p, portTrace := s.portTrace ++ [p] }

/-- The acknowledgment reply `ACK\n` (R106). -/
def ackReply : List Byte := [0x41, 0x43, 0x4B, 0x0A]

/-- The error reply `ERR\n` (R106). -/
def errReply : List Byte := [0x45, 0x52, 0x52, 0x0A]

/-- `raise FormatError`: the whole entry (R262, R271): it saves nothing and transfers control nowhere. -/
def raiseFormatError (s : State) : State := clearCmdBuffer (setErrPending true s)

/-- Recovery from a `FormatError` (R201, R272): the reply, the buffer empty, the flag cleared; the tick
sources stay as they are. -/
def recoverFormatError (s : State) : State := setErrPending false (clearCmdBuffer (emit errReply s))

/-- `busreq(p)` (R12, R54). -/
def busRequest (r : BusRequest) (s : State) : State := { s with busRequests := s.busRequests ++ [r] }

/-- The answer `BUSDEV` gives to the next request: the listed one, else a draw (R54). -/
def nextAnswer (s : State) : BusAnswer :=
  match s.busAnswers with
  | [] => Config.freeAnswer s.draws
  | a :: _ => a

/-- The state once that answer is given. -/
def takeAnswer (s : State) : State :=
  match s.busAnswers with
  | [] => { s with draws := s.draws + 1 }
  | _ :: rest => { s with busAnswers := rest }

/-- The state after `n` values have been drawn. -/
def drawn (n : Nat) (s : State) : State := { s with draws := s.draws + n }

/-- Who moves next: the listed move, else a draw (R74). -/
def nextMove (s : State) : Move :=
  match s.moves with
  | [] => Config.freeMove s.draws
  | m :: _ => m

/-- The state once that move is chosen. -/
def takeMove (s : State) : State :=
  match s.moves with
  | [] => { s with draws := s.draws + 1 }
  | _ :: rest => { s with moves := rest }

/-- The cyclic order of the main sequencer (R180). -/
def PassPos.next : PassPos → PassPos
  | .reply => .rx
  | .rx => .sec
  | .sec => .reply

/-- The main sequencer moves on to its next operation (R180). -/
def advancePass (s : State) : State := { s with passPos := s.passPos.next }

/-- The logic outside the block writes the bits of `GS` it owns (R35; log entry 4). -/
def setGsHigh (v : BitVec 4) (s : State) : State :=
  { s with port := { s.port with gs := v ++ s.port.gs.extractLsb' 0 4 } }

/-- Place a body in the command buffer with its terminator next in the receive queue, so that the next
`RX_PASS` parses it (log entry 10). -/
def loadBody (body : List Byte) (s : State) : State :=
  { s with
    cmdBuf := Memory.writeFrom s.cmdBuf 0 body
    cmdLen := body.length
    rxQueue := terminator :: s.rxQueue
    passPos := .rx
    moves := .main :: s.moves }

end Sys2Proof.Machine
end

