-- ==== Sys2Proof/Machine/Synthesizer.lean ====
section
/-! DEFINITION. The Waveform Table Synthesizer (spec/40_synthesizer.md R120 to R129). -/

namespace Sys2Proof.Machine

/-- `SCALE_TABLE(c)`: all 256 entries of the channel's table (R123). -/
def scaleChannel (c : Channel) (s : State) : State :=
  setScaled c (scaledTable s.params.base (s.desc.get c)) s

/-- Hold mode of `DERIVE_SCHEDULE(c)` (R126). -/
def deriveHold (c : Channel) (s : State) : State :=
  setSched c (holdSchedule s.tfInt s.tfFloat (s.desc.get c).frequency (s.sched.get c)) s

/-- Skip mode of `DERIVE_SCHEDULE(c)` (R127). -/
def deriveSkip (c : Channel) (s : State) : State :=
  setSched c (skipSchedule s.tfInt s.tfFloat (s.desc.get c).frequency (s.sched.get c)) s

/-- `DERIVE_SCHEDULE(c)`: exactly one of the two (R125). -/
def deriveSchedule (c : Channel) (s : State) : State :=
  if (s.desc.get c).frequency < s.tfInt then deriveHold c s else deriveSkip c s

/-- All seven fields of the channel's schedule state to zero (R24, R121). -/
def zeroSched (c : Channel) (s : State) : State := setSched c Sched.zero s

/-- `RECOMPUTE(c)` (R121). -/
def recompute (c : Channel) (s : State) : State :=
  deriveSchedule c (scaleChannel c (zeroSched c s))

/-- `RECOMPUTE` (R121). -/
def execRecompute (c : Channel) (s : State) : Host.Outcome State Fault Refusal := .next (recompute c s)

/-- `SCALE_TABLE` (R123). -/
def execScaleTable (c : Channel) (s : State) : Host.Outcome State Fault Refusal := .next (scaleChannel c s)

/-- `DERIVE_SCHEDULE`, the choice of hold or skip (R125). -/
def execDeriveSelect (c : Channel) (s : State) : Host.Outcome State Fault Refusal := .next (deriveSchedule c s)

/-- `DERIVE_SCHEDULE`, hold (R126). -/
def execDeriveHold (c : Channel) (s : State) : Host.Outcome State Fault Refusal := .next (deriveHold c s)

/-- `DERIVE_SCHEDULE`, skip (R127). -/
def execDeriveSkip (c : Channel) (s : State) : Host.Outcome State Fault Refusal := .next (deriveSkip c s)

end Sys2Proof.Machine
end

