-- ==== Sys2Proof/Machine/Telegrams.lean ====
section
/-! DEFINITION. The five telegrams (spec/42_command_protocol.md R186 to R192). A configuration telegram in
range writes one field of one descriptor and schedules the acknowledgment (R187); out of range it raises
`FormatError` (R188). -/

namespace Sys2Proof.Machine

/-- `AM(c, fval)` (R189). -/
def setAmplitude (c : Channel) (fval : Rat) (s : State) : State :=
  if amplitudeInRange fval then
    setAckPending true (setDesc c { s.desc.get c with amplitude := fval } s)
  else raiseFormatError s

/-- `OF(c, fval)` (R190). -/
def setOffset (c : Channel) (fval : Rat) (s : State) : State :=
  if offsetInRange fval then
    setAckPending true (setDesc c { s.desc.get c with offset := fval } s)
  else raiseFormatError s

/-- `FR(c, ival)` (R191). -/
def setFrequency (c : Channel) (ival : Int) (s : State) : State :=
  if frequencyInRange ival then
    setAckPending true (setDesc c { s.desc.get c with frequency := ival.toNat } s)
  else raiseFormatError s

/-- `WA(c, ival)` (R192). -/
def setShape (c : Channel) (ival : Int) (s : State) : State :=
  match shapeOfCode ival with
  | some sh => setAckPending true (setDesc c { s.desc.get c with shape := sh } s)
  | none => raiseFormatError s

/-- `CONTINUEE` (R186): an acknowledgment and a resume action instead of a configuration change. -/
def scheduleResume (s : State) : State := setResumePending true (setAckPending true s)

/-- What `PARSE` runs for an accepted body (R185). -/
def applyTelegram (t : Telegram) (s : State) : State :=
  match t with
  | .am c _ v => setAmplitude c v.fval s
  | .of c _ v => setOffset c v.fval s
  | .fr c _ v => setFrequency c v.ival s
  | .wa c _ v => setShape c v.ival s
  | .continuee => scheduleResume s

/-- `AM` (R189); the pad byte has no effect (R95). -/
def execAm (c : Channel) (_pad : Byte) (v : Literal) (s : State) : Host.Outcome State Fault Refusal :=
  .next (setAmplitude c v.fval s)

/-- `OF` (R190). -/
def execOf (c : Channel) (_pad : Byte) (v : Literal) (s : State) : Host.Outcome State Fault Refusal :=
  .next (setOffset c v.fval s)

/-- `FR` (R191). -/
def execFr (c : Channel) (_pad : Byte) (v : Literal) (s : State) : Host.Outcome State Fault Refusal :=
  .next (setFrequency c v.ival s)

/-- `WA` (R192). -/
def execWa (c : Channel) (_pad : Byte) (v : Literal) (s : State) : Host.Outcome State Fault Refusal :=
  .next (setShape c v.ival s)

/-- `CONTINUEE` (R186). -/
def execContinuee (s : State) : Host.Outcome State Fault Refusal :=
  .next (scheduleResume s)

end Sys2Proof.Machine
end

