-- ==== Sys2Proof/Machine/Protocol.lean ====
section
/-! DEFINITION. The Command Protocol State Machine (spec/42_command_protocol.md R180 to R185, R200 to R213). -/

namespace Sys2Proof.Machine

/-- Store one body byte at address `cmdLen` (R182). -/
def storeByte (ch : Byte) (s : State) : State :=
  setCmdLen (s.cmdLen + 1) (memWrite .cmdBuf s.cmdLen ch s)

/-- The tenth body byte is dropped and raises `FormatError` (R183, R63). -/
def overflowByte (_ch : Byte) (s : State) : State := raiseFormatError s

/-- `ACCUMULATE(ch)`: room available, or overflow (R182, R183, R63). -/
def accumulate (ch : Byte) (s : State) : State :=
  if s.cmdLen < cmdCap then storeByte ch s else overflowByte ch s

/-- `PARSE` (R185). -/
def parse (s : State) : State :=
  match decodeBody (cmdBody s) with
  | .accept t => applyTelegram t s
  | .reject _ => raiseFormatError s

/-- What `RX_PASS` does once it has popped `ch`: the tick sources off, then the byte (R181). -/
def consumeByte (ch : Byte) (s : State) : State :=
  if ch = terminator then parse (setTicks false s) else accumulate ch (setTicks false s)

/-- `RX_PASS`: at most one byte (R181, R51). -/
def rxPass (s : State) : State :=
  match s.rxQueue with
  | [] => s
  | ch :: rest => consumeByte ch (setRxQueue rest s)

/-- `ERROR_BRANCH` (R201). -/
def errorBranch (s : State) : State := recoverFormatError s

/-- Ack steps (1) to (4) (R202 to R206). -/
def resynthesize (s : State) : State :=
  recompute .two (recompute .one (gateReports (loadConstants (evalMode s))))

/-- `ACK_BRANCH`, all six steps (R202, R207). -/
def ackBranch (s : State) : State :=
  setAckPending false (clearCmdBuffer (emit ackReply (resynthesize s)))

/-- `RESUME_BRANCH` (R208). -/
def resumeBranch (s : State) : State :=
  setResumePending false (setTicks true (clearCmdBuffer s))

/-- `REPLY_PASS`: error, then acknowledgment, then resume, else nothing (R200). -/
def replyPass (s : State) : State :=
  if s.errPending then errorBranch s
  else if s.ackPending then ackBranch s
  else if s.resumePending then resumeBranch s
  else s

/-- `RX_PASS` (R181). -/
def execRxPass (s : State) : Host.Outcome State Fault Refusal := .next (rxPass s)

/-- `ACCUMULATE` (R182). -/
def execAccumulate (ch : Byte) (s : State) : Host.Outcome State Fault Refusal := .next (accumulate ch s)

/-- `ACCUMULATE`, overflow (R183). -/
def execAccumulateOverflow (ch : Byte) (s : State) : Host.Outcome State Fault Refusal := .next (overflowByte ch s)

/-- `PARSE` (R185). -/
def execParse (s : State) : Host.Outcome State Fault Refusal := .next (parse s)

/-- `REPLY_PASS` (R200). -/
def execReplyPass (s : State) : Host.Outcome State Fault Refusal := .next (replyPass s)

/-- `ERROR_BRANCH` (R201). -/
def execErrorBranch (s : State) : Host.Outcome State Fault Refusal := .next (errorBranch s)

/-- `ACK_BRANCH` (R202). -/
def execAckBranch (s : State) : Host.Outcome State Fault Refusal := .next (ackBranch s)

/-- `MODE_EVAL` (R203). -/
def execModeEval (s : State) : Host.Outcome State Fault Refusal := .next (evalMode s)

/-- `RESUME_BRANCH` (R208). -/
def execResumeBranch (s : State) : Host.Outcome State Fault Refusal := .next (resumeBranch s)

end Sys2Proof.Machine
end

