-- ==== Sys2Proof/Machine/Boundary.lean ====
section
/-! DEFINITION. The byte-received event (spec/10_state.md R50) and the reset operation
(spec/70_reset_and_hazards.md R292, spec/10_state.md R56). -/

namespace Sys2Proof.Machine

/-- `RX_EVENT(c)`: append at the tail (R50). -/
def rxEvent (b : Byte) (s : State) : State := setRxQueue (s.rxQueue ++ [b]) s

/-- The reset descriptors loaded (R292). -/
def loadResetDesc (s : State) : State := { s with desc := s.params.resetDesc }

/-- What reset clears: buffer, flags, owned port bits, queues and streams; both ticks enabled and the pass at
its beginning (R292, R56). `GS[7:4]` and the stale cells of the buffer keep their values. -/
def clearAtReset (s : State) : State :=
  { s with
    cmdLen := 0
    errPending := false
    ackPending := false
    resumePending := false
    oneSecondFlag := false
    sampleTickEnable := true
    secTickEnable := true
    port := ⟨0, 0, s.port.gs.extractLsb' 4 4 ++ (0 : BitVec 4)⟩
    portTrace := []
    rxQueue := []
    txStream := []
    busRequests := []
    passPos := .reply }

/-- `RESET` (R292). -/
def resetBlock (s : State) : State := clearAtReset (resynthesize (loadResetDesc s))

/-- `RX_EVENT` (R50). -/
def execRxEvent (b : Byte) (s : State) : Host.Outcome State Fault Refusal := .next (rxEvent b s)

/-- `RESET` (R292). -/
def execReset (s : State) : Host.Outcome State Fault Refusal := .next (resetBlock s)

end Sys2Proof.Machine
end

