-- ==== Sys2Proof/Machine/Bus.lean ====
section
/-! DEFINITION. The Bus Transfer Driver and the Temperature Poller (spec/43_bus_and_poller.md R230 to R245). -/

namespace Sys2Proof.Machine

/-- The bounded wait of R232 with `left` polls to go after `made` polls: the result, and how many polls were
made in all. -/
def awaitAck (ans : BusAnswer) : Nat → Nat → BusResult × Nat
  | 0, made => (.timeout, made)
  | left + 1, made =>
    match ans with
    | .never => awaitAck ans left (made + 1)
    | .done n good data =>
      if n ≤ made + 1 then (if good then .ok data else .protocolError, made + 1)
      else awaitAck ans left (made + 1)

/-- The result of `PRIM` for an answer, within the budget (R232). -/
def primResult (budget : Nat) (ans : BusAnswer) : BusResult := (awaitAck ans budget 0).1

/-- `PRIM(p)` (R232): its result, and the state once the request is handed over and answered. -/
def busPrim (r : BusRequest) (s : State) : BusResult × State :=
  (primResult s.params.busBudget (nextAnswer s), takeAnswer (busRequest r s))

/-- `start()` (R233). -/
def busStart (s : State) : BusResult × State := busPrim .start s

/-- `sendControl(direction, address)` (R234). -/
def busSendControl (direction : Direction) (address : BusAddr) (s : State) : BusResult × State :=
  busPrim (.control direction address) s

/-- `sendByte(data)` (R235). -/
def busSendByte (data : Byte) (s : State) : BusResult × State := busPrim (.send data) s

/-- `receiveByte(isLast)` (R236). -/
def busReceiveByte (isLast : Bool) (s : State) : BusResult × State := busPrim (.receive isLast) s

/-- Run primitives in order, stopping at the first result that is not `Ok` (R242, R243): the last result and
the state. -/
def runPrims (last : Byte) : List (State → BusResult × State) → State → BusResult × State
  | [], s => (.ok last, s)
  | p :: rest, s =>
    match (p s).1 with
    | .ok data => runPrims data rest (p s).2
    | .protocolError => (.protocolError, (p s).2)
    | .timeout => (.timeout, (p s).2)

/-- The nine primitives of `POLL` (R242). -/
def pollSequence (p : Params) : List (State → BusResult × State) :=
  [busStart, busSendControl .write p.sensorAddr, busSendByte p.cmdOneShot,
   busStart, busSendControl .write p.sensorAddr, busSendByte p.cmdRegSel,
   busStart, busSendControl .read p.sensorAddr, busReceiveByte true]

/-- The three bytes of a report whose two digits are given (R107). -/
def reportDigits (tens ones : Nat) : List Byte :=
  [BitVec.ofNat 8 (0x30 + tens), BitVec.ofNat 8 (0x30 + ones), 0x0A]

/-- `REPORT(v)` (R244): tens, ones, newline; from 100 on the two digit bytes are draws (log entry 3). -/
def report (v : Byte) (s : State) : State :=
  if v.toNat ≤ 99 then emit (reportDigits (v.toNat / 10) (v.toNat % 10)) s
  else drawn 2 (emit [Config.freeByte s.draws, Config.freeByte (s.draws + 1), 0x0A] s)

/-- `POLL` (R242, R243). -/
def poll (s : State) : State :=
  match (runPrims 0 (pollSequence s.params) s).1 with
  | .ok v => report v (runPrims 0 (pollSequence s.params) s).2
  | .protocolError => (runPrims 0 (pollSequence s.params) s).2
  | .timeout => (runPrims 0 (pollSequence s.params) s).2

/-- `SEC_TICK`: a masked tick has no effect and is not remembered (R240). -/
def secTick (s : State) : State := if s.secTickEnable then setOneSecond true s else s

/-- `SEC_PASS` (R241). -/
def secPass (s : State) : State :=
  if s.oneSecondFlag then
    if s.tempReportEnable then poll (setOneSecond false s) else setOneSecond false s
  else s

/-- `start()` (R233): its result goes to `POLL`; no state of the block holds it (R232; log entry 12). -/
def execStart (s : State) : Host.Outcome State Fault Refusal := .next (busStart s).2

/-- `sendControl(direction, address)` (R234). -/
def execSendControl (direction : Direction) (address : BusAddr) (s : State) : Host.Outcome State Fault Refusal :=
  .next (busSendControl direction address s).2

/-- `sendByte(data)` (R235). -/
def execSendByte (data : Byte) (s : State) : Host.Outcome State Fault Refusal := .next (busSendByte data s).2

/-- `receiveByte(isLast)` (R236). -/
def execReceiveByte (isLast : Bool) (s : State) : Host.Outcome State Fault Refusal :=
  .next (busReceiveByte isLast s).2

/-- `SEC_TICK` (R240). -/
def execSecTick (s : State) : Host.Outcome State Fault Refusal := .next (secTick s)

/-- `SEC_PASS` (R241). -/
def execSecPass (s : State) : Host.Outcome State Fault Refusal := .next (secPass s)

/-- `POLL` (R242). -/
def execPoll (s : State) : Host.Outcome State Fault Refusal := .next (poll s)

/-- `REPORT` (R244). -/
def execReport (v : Byte) (s : State) : Host.Outcome State Fault Refusal := .next (report v s)

end Sys2Proof.Machine
end

