-- ==== Sys2Proof/Machine/Scheduler.lean ====
section
/-! DEFINITION. The Sample Scheduler and the Output Packer (spec/41_scheduler_packer.md R150 to R163). -/

namespace Sys2Proof.Machine

/-- `STEP(c)`, hold mode (R152). -/
def stepHold (c : Channel) (s : State) : State := setSched c (holdStep (s.sched.get c)) s

/-- `STEP(c)`, skip mode (R153). -/
def stepSkip (c : Channel) (s : State) : State := setSched c (skipStep (s.sched.get c)) s

/-- `STEP(c)`, idle: no field changes (R154). -/
def stepIdle (_c : Channel) (s : State) : State := s

/-- `STEP(c)`: hold has priority (R155), then skip, else idle. -/
def stepChannel (c : Channel) (s : State) : State :=
  if (s.sched.get c).repeatCount ≠ 0 then stepHold c s
  else if (s.sched.get c).inverseRepeat ≠ 0 then stepSkip c s
  else stepIdle c s

/-- The sample `STEP(c)` returns: the entry at the index it left (R156). -/
def sampleOf (c : Channel) (s : State) : Byte :=
  memRead (.scaled c) (s.sched.get c).tableIndex.toNat s

/-- `PACK(s1, s2)` (R160, R161). -/
def packSamples (s1 s2 : Byte) (s : State) : State := commitPort (packImage s1 s2 s.port.gs) s

/-- The body of `SAMPLE_TICK` (R151). -/
def runTick (s : State) : State :=
  let t := stepChannel .two (stepChannel .one s)
  packSamples (sampleOf .one t) (sampleOf .two t) t

/-- `SAMPLE_TICK`: a masked tick has no effect and is not remembered (R150). -/
def sampleTick (s : State) : State := if s.sampleTickEnable then runTick s else s

/-- `SAMPLE_TICK` (R151). -/
def execSampleTick (s : State) : Host.Outcome State Fault Refusal := .next (sampleTick s)

/-- `STEP`, hold (R152). -/
def execStepHold (c : Channel) (s : State) : Host.Outcome State Fault Refusal := .next (stepHold c s)

/-- `STEP`, skip (R153). -/
def execStepSkip (c : Channel) (s : State) : Host.Outcome State Fault Refusal := .next (stepSkip c s)

/-- `STEP`, idle (R154). -/
def execStepIdle (c : Channel) (s : State) : Host.Outcome State Fault Refusal := .next (stepIdle c s)

/-- `PACK` (R160). -/
def execPack (s1 s2 : Byte) (s : State) : Host.Outcome State Fault Refusal := .next (packSamples s1 s2 s)

end Sys2Proof.Machine
end

