-- ==== Sys2Proof/Machine/Dispatch.lean ====
section
/-! DEFINITION. The meaning of every operation of spec/opcode_table.json: one arm, one call. -/

namespace Sys2Proof.Machine

def exec (i : Instr) (s : State) : Host.Outcome State Fault Refusal :=
  match i with
  | .am c pad v => Sys2Proof.Machine.execAm c pad v s
  | .of c pad v => Sys2Proof.Machine.execOf c pad v s
  | .fr c pad v => Sys2Proof.Machine.execFr c pad v s
  | .wa c pad v => Sys2Proof.Machine.execWa c pad v s
  | .continuee => Sys2Proof.Machine.execContinuee s
  | .recompute c => Sys2Proof.Machine.execRecompute c s
  | .scaleTable c => Sys2Proof.Machine.execScaleTable c s
  | .deriveSelect c => Sys2Proof.Machine.execDeriveSelect c s
  | .deriveHold c => Sys2Proof.Machine.execDeriveHold c s
  | .deriveSkip c => Sys2Proof.Machine.execDeriveSkip c s
  | .sampleTick => Sys2Proof.Machine.execSampleTick s
  | .stepHold c => Sys2Proof.Machine.execStepHold c s
  | .stepSkip c => Sys2Proof.Machine.execStepSkip c s
  | .stepIdle c => Sys2Proof.Machine.execStepIdle c s
  | .pack s1 s2 => Sys2Proof.Machine.execPack s1 s2 s
  | .rxPass => Sys2Proof.Machine.execRxPass s
  | .accumulate ch => Sys2Proof.Machine.execAccumulate ch s
  | .accumulateOverflow ch => Sys2Proof.Machine.execAccumulateOverflow ch s
  | .parse => Sys2Proof.Machine.execParse s
  | .replyPass => Sys2Proof.Machine.execReplyPass s
  | .errorBranch => Sys2Proof.Machine.execErrorBranch s
  | .ackBranch => Sys2Proof.Machine.execAckBranch s
  | .modeEval => Sys2Proof.Machine.execModeEval s
  | .resumeBranch => Sys2Proof.Machine.execResumeBranch s
  | .start => Sys2Proof.Machine.execStart s
  | .sendControl direction address => Sys2Proof.Machine.execSendControl direction address s
  | .sendByte data => Sys2Proof.Machine.execSendByte data s
  | .receiveByte isLast => Sys2Proof.Machine.execReceiveByte isLast s
  | .secTick => Sys2Proof.Machine.execSecTick s
  | .secPass => Sys2Proof.Machine.execSecPass s
  | .poll => Sys2Proof.Machine.execPoll s
  | .report v => Sys2Proof.Machine.execReport v s
  | .rxEvent b => Sys2Proof.Machine.execRxEvent b s
  | .reset => Sys2Proof.Machine.execReset s

end Sys2Proof.Machine
end

