-- ==== Sys2Proof/Machine/Sequencer.lean ====
section
/-! DEFINITION. Which operation an agent's move runs (spec/00_scope.md R14, spec/20_memory.md R73, R74). -/

namespace Sys2Proof.Machine

/-- The main operation at a pass position (R180). -/
def mainOperation : PassPos → Instr
  | .reply => .replyPass
  | .rx => .rxPass
  | .sec => .secPass

/-- One move: one atomic operation of the moving agent (R14, R73). -/
def runMove (m : Move) (s : State) : Host.Outcome State Fault Refusal :=
  match m with
  | .main => exec (mainOperation s.passPos) (advancePass s)
  | .sampleTick => exec .sampleTick s
  | .secTick => exec .secTick s
  | .rxEvent b => exec (.rxEvent b) s
  | .gsHigh v => .next (setGsHigh v s)

end Sys2Proof.Machine
end

