-- ==== Sys2Proof/Machine/Step.lean ====
section
/-! DEFINITION. One step of the machine, and the placing of a telegram where the next step parses it. -/

namespace Sys2Proof.Machine

/-- One step: the agent whose turn it is executes one operation (R73, R74). -/
def step (s : State) : Host.Outcome State Fault Refusal := runMove (nextMove s) (takeMove s)

/-- `s` with the telegram of an opcode-table word in the command buffer, its terminator next in the receive
queue and the main sequencer about to run `RX_PASS`: the very next step parses and runs it. -/
def State.withFetchWord (s : State) (nbits w : Nat) : State := loadBody (tableBody nbits w) s

end Sys2Proof.Machine
end

