-- ==== Sys2Proof/Safety.lean ====
section
/-! DEFINITION. What holds in every good state of the block, in the terms the statements use: the invariants
that spec/70_reset_and_hazards.md R293 says reset establishes and every operation preserves. -/

namespace Sys2Proof.Machine

/-- The state after `n` steps, stopping at the first fault or refusal (R73: an execution is a single sequence
of operations). -/
def runSteps : Nat → State → Host.Outcome State Fault Refusal
  | 0, s => .next s
  | n + 1, s =>
    match step s with
    | .next t => runSteps n t
    | .fault r => .fault r
    | .refused r => .refused r

/-- Both tick sources are masked: the critical section (R34, R210). -/
def Masked (s : State) : Prop := s.sampleTickEnable = false ∧ s.secTickEnable = false

/-- The protocol's discipline: equal masks (R34), nothing pending while the ticks run (R212), at most one
reply owed (R180), the reply always given before the next byte is consumed (R180), the buffer within its
capacity (R31) and free of terminators (R90). -/
structure Disciplined (s : State) : Prop where
  masks_equal : s.sampleTickEnable = s.secTickEnable
  err_masked : s.errPending = true → s.sampleTickEnable = false
  ack_masked : s.ackPending = true → s.sampleTickEnable = false
  resume_masked : s.resumePending = true → s.sampleTickEnable = false
  one_reply : ¬ (s.errPending = true ∧ s.ackPending = true)
  replied_before_rx : s.passPos = .rx → s.errPending = false ∧ s.ackPending = false
  len_le : s.cmdLen ≤ cmdCap
  no_terminator : ∀ k, k < s.cmdLen → memRead .cmdBuf k s ≠ terminator

/-- The configuration is legal (R8, R20) and the mode group consistent (R28, R29). -/
structure Configured (s : State) : Prop where
  params_legal : s.params.Legal
  desc_legal : ∀ c, (s.desc.get c).Legal
  tfInt_eq : s.tfInt = s.params.tInt.get s.mode
  tfFloat_eq : s.tfFloat = s.params.tFloat.get s.mode
  tickRate_eq : s.tickRateSel = s.params.tickRate.get s.mode
  report_eq : s.tempReportEnable = decide (s.mode = .normal)

/-- Every memory is in its canonical form and within its space (R60). -/
structure MemoryCanonical (s : State) : Prop where
  scaled_wf : ∀ c, (s.scaled.get c).wf ∧ (s.scaled.get c).inSpace tableLen
  cmdBuf_wf : s.cmdBuf.wf ∧ s.cmdBuf.inSpace cmdCap

/-- The channel's scaled table is the one R123 gives for its descriptor. -/
def TableMatches (c : Channel) (s : State) : Prop :=
  ∀ i, i < tableLen →
    memRead (.scaled c) i s =
      scaleEntry (s.desc.get c).amplitude (s.desc.get c).offset (memRead (.base (s.desc.get c).shape) i s)

/-- The channel's four schedule parameters are those R125 to R127 give for its descriptor and the constants. -/
def ScheduleMatches (c : Channel) (s : State) : Prop :=
  (s.sched.get c).repeatCount = (freshSched s.tfInt s.tfFloat (s.desc.get c)).repeatCount ∧
  (s.sched.get c).inverseRepeat = (freshSched s.tfInt s.tfFloat (s.desc.get c)).inverseRepeat ∧
  (s.sched.get c).thresholdRepeat = (freshSched s.tfInt s.tfFloat (s.desc.get c)).thresholdRepeat ∧
  (s.sched.get c).thresholdSkip = (freshSched s.tfInt s.tfFloat (s.desc.get c)).thresholdSkip

/-- Unless a re-synthesis is owed, mode, tables and schedules are those of the current descriptors (R27,
R203, R206). -/
def Coherent (s : State) : Prop :=
  s.ackPending = false → s.mode = modeOf s.desc ∧ ∀ c, TableMatches c s ∧ ScheduleMatches c s

/-- The derived bounds of R22 and R23 on one channel's schedule state. -/
structure SchedBounded (tInt : Nat) (k : Sched) : Prop where
  repeat_le : k.repeatCount ≤ tInt
  inverse_le : k.inverseRepeat ≤ 10000 / tInt
  exactly_one : (k.repeatCount ≠ 0 ∧ k.inverseRepeat = 0) ∨ (k.repeatCount = 0 ∧ k.inverseRepeat ≠ 0)
  thresholdRepeat_le : k.thresholdRepeat ≤ 15
  thresholdSkip_le : k.thresholdSkip ≤ 15
  sampleCounter_lt : k.sampleCounter < 15
  tickCounter_le : k.tickCounter ≤ k.repeatCount

/-- The bounds of R23 on both channels, against the constant of the current mode. -/
def SchedulesBounded (s : State) : Prop := ∀ c, SchedBounded (s.params.tInt.get s.mode) (s.sched.get c)

end Sys2Proof.Machine
end

