-- ==== Sys2Proof/Certificates/Slice0/Obligations.lean ====
section
/-! DEFINITION. The statements about the model, for the provers. Each docstring names the rule of spec/ it
formalises; a clause that rests on a choice of the model names the log entry. -/

open Sys2Proof Sys2Proof.Machine

/-! ## Encoding -/

/-- Decoding the body of any well-formed telegram gives it back, pad and every literal digit included
(R91, R92, R93, R94, R96, R101). -/
def Obligations.EncodedTelegramsDecodeBack : Prop :=
  ∀ (i : Instr) (body : List Byte), i.wellFormed = true → encode i = some body → decode body = some i

/-- A body the decoder accepts is exactly the encoding of the telegram it gives, so no byte of it is dropped;
if no byte of it is a terminator (R90) the telegram is well formed. -/
def Obligations.AcceptedBodiesEncodeBack : Prop :=
  ∀ (body : List Byte) (t : Telegram), decodeBody body = .accept t →
    t.encode = body ∧ ((∀ b ∈ body, b ≠ terminator) → t.wellFormed = true)

/-- Bodies written out from R91 to R93 and the examples E2, E4, E5 and V-PARSE decode to their telegrams. -/
def Obligations.SpecTelegramsDecode : Prop :=
  decode [0x41, 0x4D, 0x31, 0x5F, 0x30, 0x30, 0x30, 0x35] = some (.am .one 0x5F ⟨false, [0, 0, 0, 5], none⟩) ∧
  decode [0x4F, 0x46, 0x32, 0x5F, 0x2D, 0x32, 0x2E, 0x35] = some (.of .two 0x5F ⟨true, [2], some [5]⟩) ∧
  decode [0x46, 0x52, 0x32, 0x5F, 0x36, 0x30, 0x30, 0x30] = some (.fr .two 0x5F ⟨false, [6, 0, 0, 0], none⟩) ∧
  decode [0x57, 0x41, 0x31, 0x5F, 0x30, 0x30, 0x30, 0x33] = some (.wa .one 0x5F ⟨false, [0, 0, 0, 3], none⟩) ∧
  decode [0x43, 0x4F, 0x4E, 0x54, 0x49, 0x4E, 0x55, 0x45, 0x45] = some .continuee

/-- Every other body is rejected, for the first test of R101 that fails: too short, unknown opcode, bad
channel, malformed value. That a list of more than nine bytes, which no buffer holds (R102) and no test of R101
names, is rejected as an overflow is the model's reading (log entry 14). -/
def Obligations.IllegalBodiesRejected : Prop :=
  (∀ t : List Byte, t.length < 5 → decodeBody t = .reject .tooShort) ∧
  (∀ t : List Byte, 9 < t.length → decodeBody t = .reject .overflow) ∧
  ∀ (b0 b1 b2 b3 b4 : Byte) (rest : List Byte), rest.length ≤ 4 →
    b0 :: b1 :: b2 :: b3 :: b4 :: rest ≠ [0x43, 0x4F, 0x4E, 0x54, 0x49, 0x4E, 0x55, 0x45, 0x45] →
    ([b0, b1] ∉ [[0x41, 0x4D], [0x4F, 0x46], [0x46, 0x52], [0x57, 0x41]] →
      decodeBody (b0 :: b1 :: b2 :: b3 :: b4 :: rest) = .reject .unknownOpcode) ∧
    ([b0, b1] ∈ [[0x41, 0x4D], [0x4F, 0x46], [0x46, 0x52], [0x57, 0x41]] → b2 ≠ 0x31 → b2 ≠ 0x32 →
      decodeBody (b0 :: b1 :: b2 :: b3 :: b4 :: rest) = .reject .badChannel) ∧
    ([b0, b1] ∈ [[0x41, 0x4D], [0x4F, 0x46], [0x46, 0x52], [0x57, 0x41]] → (b2 = 0x31 ∨ b2 = 0x32) →
      (¬ ∃ v : Literal, v.int ≠ [] ∧ v.bytes = b4 :: rest) →
      decodeBody (b0 :: b1 :: b2 :: b3 :: b4 :: rest) = .reject .malformedValue)

/-! ## Literals and arithmetic -/

/-- The value of a literal (R97): integer digits by falling powers of ten, fraction digits by negative
powers, the sign applied; a well-formed literal has at most three fraction digits, is a multiple of 1/1000
and at most 99999 in size. -/
def Obligations.LiteralValueIsExactDecimal : Prop :=
  ∀ v : Literal,
    v.fval = (if v.neg then -1 else 1) *
      ((∑ j : Fin v.int.length, ((v.int.get j).val : Rat) * 10 ^ (v.int.length - 1 - j.val)) +
        ∑ j : Fin v.fracDigits.length, ((v.fracDigits.get j).val : Rat) / 10 ^ (j.val + 1)) ∧
    (v.wellFormed = true →
      v.fracDigits.length ≤ 3 ∧ (∃ k : Int, v.fval = (k : Rat) / 1000) ∧ |v.fval| ≤ 99999)

/-- The integer reading of a literal (R99) is its truncated value: the fraction is dropped and the sign
kept, which is the signed value of the integer digits alone (the latter from general knowledge in R99, log
entry 9). -/
def Obligations.IntegerReadingDropsFraction : Prop :=
  ∀ v : Literal,
    v.ival = truncQ v.fval ∧
    v.ival = (if v.neg then -1 else 1) *
      ∑ j : Fin v.int.length, ((v.int.get j).val : Int) * 10 ^ (v.int.length - 1 - j.val)

/-- `round` gives a nearest integer and breaks a tie away from zero; `trunc` gives the integer next to its
argument on the side of zero (R13; the tie rule is general knowledge, log entry 9). -/
def Obligations.RoundingTiesAwayFromZero : Prop :=
  ∀ x : Rat,
    |(roundQ x : Rat) - x| ≤ 1 / 2 ∧
    (|(roundQ x : Rat) - x| = 1 / 2 → |x| < |(roundQ x : Rat)|) ∧
    (0 ≤ x → (truncQ x : Rat) ≤ x ∧ x < (truncQ x : Rat) + 1) ∧
    (x < 0 → x ≤ (truncQ x : Rat) ∧ (truncQ x : Rat) - 1 < x)

/-! ## Telegrams -/

/-- `AM` (R189): in range the amplitude is written and the acknowledgment scheduled, nothing else; out of
range `FormatError` (R262). -/
def Obligations.AmplitudeTelegram : Prop :=
  ∀ (c : Channel) (pad : Byte) (v : Literal) (s : State),
    (0 ≤ v.fval ∧ v.fval ≤ 10 →
      exec (.am c pad v) s =
        .next { s with desc := s.desc.set c { s.desc.get c with amplitude := v.fval }, ackPending := true }) ∧
    (¬ (0 ≤ v.fval ∧ v.fval ≤ 10) → exec (.am c pad v) s = .next { s with errPending := true, cmdLen := 0 })

/-- `OF` (R190). -/
def Obligations.OffsetTelegram : Prop :=
  ∀ (c : Channel) (pad : Byte) (v : Literal) (s : State),
    (-10 ≤ v.fval ∧ v.fval ≤ 10 →
      exec (.of c pad v) s =
        .next { s with desc := s.desc.set c { s.desc.get c with offset := v.fval }, ackPending := true }) ∧
    (¬ (-10 ≤ v.fval ∧ v.fval ≤ 10) → exec (.of c pad v) s = .next { s with errPending := true, cmdLen := 0 })

/-- `FR` (R191): `n` is the integer reading of the literal. -/
def Obligations.FrequencyTelegram : Prop :=
  ∀ (c : Channel) (pad : Byte) (v : Literal) (s : State),
    (∀ n : Nat, v.ival = (n : Int) → 1 ≤ n → n ≤ 10000 →
      exec (.fr c pad v) s =
        .next { s with desc := s.desc.set c { s.desc.get c with frequency := n }, ackPending := true }) ∧
    (¬ (1 ≤ v.ival ∧ v.ival ≤ 10000) → exec (.fr c pad v) s = .next { s with errPending := true, cmdLen := 0 })

/-- `WA` (R192, R100). -/
def Obligations.ShapeTelegram : Prop :=
  ∀ (c : Channel) (pad : Byte) (v : Literal) (s : State),
    (∀ sh : Shape,
      (v.ival = 1 ∧ sh = .sine) ∨ (v.ival = 2 ∧ sh = .square) ∨ (v.ival = 3 ∧ sh = .triangle) ∨
        (v.ival = 4 ∧ sh = .sawtooth) ∨ (v.ival = 5 ∧ sh = .reverseSawtooth) →
      exec (.wa c pad v) s =
        .next { s with desc := s.desc.set c { s.desc.get c with shape := sh }, ackPending := true }) ∧
    (¬ (1 ≤ v.ival ∧ v.ival ≤ 5) → exec (.wa c pad v) s = .next { s with errPending := true, cmdLen := 0 })

/-- `CONTINUEE` (R186): the two flags, and nothing else. -/
def Obligations.ContinueeTelegram : Prop :=
  ∀ s : State, exec .continuee s = .next { s with ackPending := true, resumePending := true }

/-- The frame of the five telegrams: every byte of every memory, the schedules, the mode group, both tick
masks, the port, the streams and the sequencing stay; at most one descriptor changes, in at most one field
(R21); a telegram that raises `FormatError` changes no descriptor (R188). -/
def Obligations.TelegramsWriteAtMostOneField : Prop :=
  ∀ (tg : Telegram) (s t : State), exec tg.toInstr s = .next t →
    (∀ sp a, memRead sp a t = memRead sp a s) ∧
    t = { s with
          desc := t.desc
          cmdLen := t.cmdLen
          errPending := t.errPending
          ackPending := t.ackPending
          resumePending := t.resumePending } ∧
    (t.errPending ≠ s.errPending → t.desc = s.desc) ∧
    ∃ c : Channel, (∀ d, d ≠ c → t.desc.get d = s.desc.get d) ∧
      (t.desc.get c = { s.desc.get c with amplitude := (t.desc.get c).amplitude } ∨
        t.desc.get c = { s.desc.get c with offset := (t.desc.get c).offset } ∨
        t.desc.get c = { s.desc.get c with frequency := (t.desc.get c).frequency } ∨
        t.desc.get c = { s.desc.get c with shape := (t.desc.get c).shape })

/-! ## The protocol machine -/

/-- `RX_PASS` (R181): nothing on an empty queue; else one byte popped, both ticks masked, and the byte
accumulated, or the body parsed at a terminator. -/
def Obligations.RxPassConsumesOneByte : Prop :=
  ∀ s : State, ∃ t, exec .rxPass s = .next t ∧
    (s.rxQueue = [] → t = s) ∧
    (∀ ch rest, s.rxQueue = ch :: rest →
      (ch ≠ 0x21 →
        exec (.accumulate ch) { s with rxQueue := rest, sampleTickEnable := false, secTickEnable := false } =
          .next t) ∧
      (ch = 0x21 →
        exec .parse { s with rxQueue := rest, sampleTickEnable := false, secTickEnable := false } = .next t))

/-- `ACCUMULATE` with room (R182): the byte is stored at address `cmdLen` of `CMDBUF` and the body grows by
it at its end; every other byte of every memory, and everything else, is unchanged. -/
def Obligations.AccumulateStoresAtEnd : Prop :=
  ∀ (ch : Byte) (s : State), s.cmdLen < 9 → s.cmdBuf.wf →
    ∃ t, exec (.accumulate ch) s = .next t ∧
      t = { s with cmdBuf := t.cmdBuf, cmdLen := s.cmdLen + 1 } ∧
      cmdBody t = cmdBody s ++ [ch] ∧
      memRead .cmdBuf s.cmdLen t = ch ∧
      ∀ sp a, ¬ (sp = .cmdBuf ∧ a = s.cmdLen) → memRead sp a t = memRead sp a s

/-- A byte that arrives with nine stored raises `FormatError` and is dropped (R183, R262). -/
def Obligations.OverflowByteRaisesFormatError : Prop :=
  ∀ (ch : Byte) (s : State),
    exec (.accumulateOverflow ch) s = .next { s with errPending := true, cmdLen := 0 } ∧
    (s.cmdLen = 9 → exec (.accumulate ch) s = .next { s with errPending := true, cmdLen := 0 })

/-- `PARSE` (R185): an accepted body runs as its telegram; any other raises `FormatError` (R262). -/
def Obligations.ParseRunsTelegramOrRaises : Prop :=
  ∀ s : State, ∃ t, exec .parse s = .next t ∧
    (∀ tg, decodeBody (cmdBody s) = .accept tg → exec tg.toInstr s = .next t) ∧
    (∀ why, decodeBody (cmdBody s) = .reject why → t = { s with errPending := true, cmdLen := 0 })

/-- `REPLY_PASS` runs exactly one branch: error before acknowledgment before resume, else nothing (R200). -/
def Obligations.ReplyPassPriority : Prop :=
  ∀ s : State, ∃ t, exec .replyPass s = .next t ∧
    (s.errPending = true → exec .errorBranch s = .next t) ∧
    (s.errPending = false → s.ackPending = true → exec .ackBranch s = .next t) ∧
    (s.errPending = false → s.ackPending = false → s.resumePending = true → exec .resumeBranch s = .next t) ∧
    (s.errPending = false → s.ackPending = false → s.resumePending = false → t = s)

/-- `ERROR_BRANCH` (R201): the reply, the buffer cleared, the flag cleared; the ticks, the mode and the
tables stay. -/
def Obligations.ErrorBranchReplies : Prop :=
  ∀ s : State, exec .errorBranch s =
    .next { s with txStream := s.txStream ++ [0x45, 0x52, 0x52, 0x0A], cmdLen := 0, errPending := false }

/-- `ACK_BRANCH`, all six steps (R202 to R207), with the tables of R123 and the schedules of R125 to R127 of
both channels; everything else stays, the tick masks and `resumePending` among it. -/
def Obligations.AckBranchResynthesizes : Prop :=
  ∀ s : State, ∃ t, exec .ackBranch s = .next t ∧
    (6000 ≤ s.desc.one.frequency ∨ 6000 ≤ s.desc.two.frequency → t.mode = .highFrequency) ∧
    (s.desc.one.frequency < 6000 → s.desc.two.frequency < 6000 → t.mode = .normal) ∧
    t.tickRateSel = s.params.tickRate.get t.mode ∧
    t.tfInt = s.params.tInt.get t.mode ∧
    t.tfFloat = s.params.tFloat.get t.mode ∧
    (t.tempReportEnable = true ↔ t.mode = .normal) ∧
    (∀ c i, i < 256 →
      ((memRead (.scaled c) i t).toNat : Int) =
        clampZ (roundQ (((s.desc.get c).amplitude * (((memRead (.base (s.desc.get c).shape) i s).toNat : Rat) - 127)
          + 381 - 127 * (s.desc.get c).offset) / 3)) 0 255) ∧
    (∀ c, (s.desc.get c).frequency < t.tfInt →
      t.sched.get c = ⟨0, t.tfInt / (s.desc.get c).frequency, 0,
        (roundQ (15 * (1 - fracQ (t.tfFloat / ((s.desc.get c).frequency : Rat))))).toNat, 0, 0, 0⟩) ∧
    (∀ c, t.tfInt ≤ (s.desc.get c).frequency →
      t.sched.get c = ⟨0, 0, (s.desc.get c).frequency / t.tfInt, 0,
        (roundQ (15 * (1 - fracQ (((s.desc.get c).frequency : Rat) / t.tfFloat)))).toNat, 0, 0⟩) ∧
    t.txStream = s.txStream ++ [0x41, 0x43, 0x4B, 0x0A] ∧
    t.cmdLen = 0 ∧
    t.ackPending = false ∧
    t = { s with
          mode := t.mode
          tickRateSel := t.tickRateSel
          tfInt := t.tfInt
          tfFloat := t.tfFloat
          tempReportEnable := t.tempReportEnable
          scaled := t.scaled
          sched := t.sched
          txStream := t.txStream
          cmdLen := t.cmdLen
          ackPending := t.ackPending }

/-- `MODE_EVAL` (R203): the threshold is inclusive and either channel suffices; only the mode is written. -/
def Obligations.ModeEvalThreshold : Prop :=
  ∀ s : State,
    (6000 ≤ s.desc.one.frequency ∨ 6000 ≤ s.desc.two.frequency →
      exec .modeEval s = .next { s with mode := .highFrequency }) ∧
    (s.desc.one.frequency < 6000 → s.desc.two.frequency < 6000 →
      exec .modeEval s = .next { s with mode := .normal })

/-! ## The synthesizer -/

/-- `SCALE_TABLE` (R123): all 256 entries of the channel's table, rounded before clamped; every other byte of
every memory, and everything else, is unchanged. -/
def Obligations.ScaleTableEntries : Prop :=
  ∀ (c : Channel) (s : State), ∃ t, exec (.scaleTable c) s = .next t ∧
    (∀ i, i < 256 →
      ((memRead (.scaled c) i t).toNat : Int) =
        clampZ (roundQ (((s.desc.get c).amplitude * (((memRead (.base (s.desc.get c).shape) i s).toNat : Rat) - 127)
          + 381 - 127 * (s.desc.get c).offset) / 3)) 0 255) ∧
    (∀ sp a, sp ≠ .scaled c → memRead sp a t = memRead sp a s) ∧
    t = { s with scaled := t.scaled }

/-- Hold mode of `DERIVE_SCHEDULE` (R126), with its corner cases; only the channel's two hold fields are
written. -/
def Obligations.HoldScheduleDerived : Prop :=
  ∀ (c : Channel) (s : State), ∃ t, exec (.deriveHold c) s = .next t ∧
    t = { s with sched := s.sched.set c { s.sched.get c with
          repeatCount := (t.sched.get c).repeatCount, thresholdRepeat := (t.sched.get c).thresholdRepeat } } ∧
    ((t.sched.get c).repeatCount : Int) = floorQ ((s.tfInt : Rat) / ((s.desc.get c).frequency : Rat)) ∧
    ((t.sched.get c).thresholdRepeat : Int) =
      roundQ (15 * (1 - fracQ (s.tfFloat / ((s.desc.get c).frequency : Rat)))) ∧
    (1 ≤ (s.desc.get c).frequency → (s.desc.get c).frequency < s.tfInt → 1 ≤ (t.sched.get c).repeatCount) ∧
    (t.sched.get c).thresholdRepeat ≤ 15 ∧
    ((t.sched.get c).thresholdRepeat = 15 ↔ fracQ (s.tfFloat / ((s.desc.get c).frequency : Rat)) ≤ 1 / 30) ∧
    ((t.sched.get c).thresholdRepeat = 0 ↔ 29 / 30 < fracQ (s.tfFloat / ((s.desc.get c).frequency : Rat)))

/-- Skip mode of `DERIVE_SCHEDULE` (R127); only the channel's two skip fields are written. -/
def Obligations.SkipScheduleDerived : Prop :=
  ∀ (c : Channel) (s : State), ∃ t, exec (.deriveSkip c) s = .next t ∧
    t = { s with sched := s.sched.set c { s.sched.get c with
          inverseRepeat := (t.sched.get c).inverseRepeat, thresholdSkip := (t.sched.get c).thresholdSkip } } ∧
    ((t.sched.get c).inverseRepeat : Int) = floorQ (((s.desc.get c).frequency : Rat) / (s.tfInt : Rat)) ∧
    ((t.sched.get c).thresholdSkip : Int) =
      roundQ (15 * (1 - fracQ (((s.desc.get c).frequency : Rat) / s.tfFloat))) ∧
    (1 ≤ s.tfInt → s.tfInt ≤ (s.desc.get c).frequency → 1 ≤ (t.sched.get c).inverseRepeat) ∧
    (t.sched.get c).thresholdSkip ≤ 15

/-- `DERIVE_SCHEDULE` chooses hold below `T_int` and skip from it on (R125). -/
def Obligations.DeriveScheduleSelects : Prop :=
  ∀ (c : Channel) (s : State), ∃ t, exec (.deriveSelect c) s = .next t ∧
    ((s.desc.get c).frequency < s.tfInt → exec (.deriveHold c) s = .next t) ∧
    (s.tfInt ≤ (s.desc.get c).frequency → exec (.deriveSkip c) s = .next t)

/-- `RECOMPUTE` (R121): all seven schedule fields from zero, then the table and the schedule; the other
channel's table and schedule, and everything else, are untouched (R120). -/
def Obligations.RecomputeRewritesOneChannel : Prop :=
  ∀ (c : Channel) (s : State), ∃ t, exec (.recompute c) s = .next t ∧
    (∀ i, i < 256 →
      ((memRead (.scaled c) i t).toNat : Int) =
        clampZ (roundQ (((s.desc.get c).amplitude * (((memRead (.base (s.desc.get c).shape) i s).toNat : Rat) - 127)
          + 381 - 127 * (s.desc.get c).offset) / 3)) 0 255) ∧
    ((s.desc.get c).frequency < s.tfInt →
      t.sched.get c = ⟨0, s.tfInt / (s.desc.get c).frequency, 0,
        (roundQ (15 * (1 - fracQ (s.tfFloat / ((s.desc.get c).frequency : Rat))))).toNat, 0, 0, 0⟩) ∧
    (s.tfInt ≤ (s.desc.get c).frequency →
      t.sched.get c = ⟨0, 0, (s.desc.get c).frequency / s.tfInt, 0,
        (roundQ (15 * (1 - fracQ (((s.desc.get c).frequency : Rat) / s.tfFloat)))).toNat, 0, 0⟩) ∧
    (∀ d, d ≠ c → t.sched.get d = s.sched.get d) ∧
    (∀ sp a, sp ≠ .scaled c → memRead sp a t = memRead sp a s) ∧
    t = { s with scaled := t.scaled, sched := t.sched }

/-- The scaled table depends on amplitude, offset, shape and the base tables alone, not on the frequency, the
mode or the other channel, and recomputing twice leaves the same bytes and the same schedule (derived in
R124). -/
def Obligations.RecomputedTableIsDetermined : Prop :=
  ∀ (c : Channel) (s t : State), exec (.recompute c) s = .next t →
    exec (.recompute c) t = .next t ∧
    ∀ s' t' : State, exec (.recompute c) s' = .next t' → s'.params.base = s.params.base →
      (s'.desc.get c).amplitude = (s.desc.get c).amplitude → (s'.desc.get c).offset = (s.desc.get c).offset →
      (s'.desc.get c).shape = (s.desc.get c).shape → t'.scaled.get c = t.scaled.get c

/-! ## The scheduler and the packer -/

/-- `SAMPLE_TICK` (R150, R151, R156): a masked tick has no effect; an effective one steps both channels
(hold first, else skip), writes no schedule parameter, reads each sample at the index its step
left, and commits one port image; everything else stays. -/
def Obligations.SampleTickStepsAndPacks : Prop :=
  ∀ s : State,
    (s.sampleTickEnable = false → exec .sampleTick s = .next s) ∧
    (s.sampleTickEnable = true → ∃ t, exec .sampleTick s = .next t ∧
      (∀ c u,
        ((s.sched.get c).repeatCount ≠ 0 → exec (.stepHold c) s = .next u → t.sched.get c = u.sched.get c) ∧
        ((s.sched.get c).repeatCount = 0 → (s.sched.get c).inverseRepeat ≠ 0 →
          exec (.stepSkip c) s = .next u → t.sched.get c = u.sched.get c)) ∧
      (∀ c, t.sched.get c = { s.sched.get c with
          tableIndex := (t.sched.get c).tableIndex
          sampleCounter := (t.sched.get c).sampleCounter
          tickCounter := (t.sched.get c).tickCounter }) ∧
      (∀ u, exec (.pack (memRead (.scaled .one) (t.sched.get .one).tableIndex.toNat s)
          (memRead (.scaled .two) (t.sched.get .two).tableIndex.toNat s)) s = .next u →
        t.port = u.port ∧ t.portTrace = s.portTrace ++ [u.port]) ∧
      t = { s with sched := t.sched, port := t.port, portTrace := t.portTrace })

/-- `STEP`, hold (R152): the limit is chosen by the old window position, the index moves when the
incremented tick counter reaches it, and the window position always advances modulo 15. -/
def Obligations.HoldStepRule : Prop :=
  ∀ (c : Channel) (s : State), ∃ t, exec (.stepHold c) s = .next t ∧
    t = { s with sched := s.sched.set c { s.sched.get c with
          tableIndex := (t.sched.get c).tableIndex
          tickCounter := (t.sched.get c).tickCounter
          sampleCounter := ((s.sched.get c).sampleCounter + 1) % 15 } } ∧
    ∀ limit,
      ((s.sched.get c).sampleCounter ≤ (s.sched.get c).thresholdRepeat → limit = (s.sched.get c).repeatCount) →
      ((s.sched.get c).thresholdRepeat < (s.sched.get c).sampleCounter → limit = (s.sched.get c).repeatCount + 1) →
      (limit ≤ (s.sched.get c).tickCounter + 1 →
        (t.sched.get c).tableIndex.toNat = ((s.sched.get c).tableIndex.toNat + 1) % 256 ∧
        (t.sched.get c).tickCounter = 0) ∧
      ((s.sched.get c).tickCounter + 1 < limit →
        (t.sched.get c).tableIndex = (s.sched.get c).tableIndex ∧
        (t.sched.get c).tickCounter = (s.sched.get c).tickCounter + 1)

/-- `STEP`, skip (R153, R155): the step is chosen by the old window position, the sum is reduced modulo 256,
and the tick counter is not touched. -/
def Obligations.SkipStepRule : Prop :=
  ∀ (c : Channel) (s : State), ∃ t, exec (.stepSkip c) s = .next t ∧
    t = { s with sched := s.sched.set c { s.sched.get c with
          tableIndex := (t.sched.get c).tableIndex
          sampleCounter := ((s.sched.get c).sampleCounter + 1) % 15 } } ∧
    ((s.sched.get c).sampleCounter ≤ (s.sched.get c).thresholdSkip →
      (t.sched.get c).tableIndex.toNat =
        ((s.sched.get c).tableIndex.toNat + (s.sched.get c).inverseRepeat) % 256) ∧
    ((s.sched.get c).thresholdSkip < (s.sched.get c).sampleCounter →
      (t.sched.get c).tableIndex.toNat =
        ((s.sched.get c).tableIndex.toNat + ((s.sched.get c).inverseRepeat + 1)) % 256)

/-- `STEP`, idle (derived in R154): no field changes, and a tick leaves the schedule of a channel in neither
mode as it is. -/
def Obligations.IdleStepChangesNothing : Prop :=
  ∀ (c : Channel) (s : State),
    exec (.stepIdle c) s = .next s ∧
    ∀ t, exec .sampleTick s = .next t → (s.sched.get c).repeatCount = 0 → (s.sched.get c).inverseRepeat = 0 →
      t.sched.get c = s.sched.get c

/-- `PACK` (R160): the six high bits of each sample go to its own group and the low bits to `GS[3:0]`, `GS[7:4]`
is preserved, and the image is committed whole (R161); so the codes the two DACs see are the two samples
(R162, which the spec derives from R160); everything else stays. -/
def Obligations.PackedPortCarriesDacCodes : Prop :=
  ∀ (s1 s2 : Byte) (s : State), ∃ t, exec (.pack s1 s2) s = .next t ∧
    t.port.g1 = s1.extractLsb' 2 6 ∧
    t.port.g2 = s2.extractLsb' 2 6 ∧
    t.port.gs.extractLsb' 0 2 = s1.extractLsb' 0 2 ∧
    t.port.gs.extractLsb' 2 2 = s2.extractLsb' 0 2 ∧
    t.port.gs.extractLsb' 4 4 = s.port.gs.extractLsb' 4 4 ∧
    t.port.g1 ++ t.port.gs.extractLsb' 0 2 = s1 ∧
    t.port.g2 ++ t.port.gs.extractLsb' 2 2 = s2 ∧
    t = { s with port := t.port, portTrace := s.portTrace ++ [t.port] }

/-- In skip mode fifteen effective ticks from window position 0 advance the index by
`15 * inverseRepeat + (14 - thresholdSkip)`, or `15 * inverseRepeat` at threshold 15, and bring the window
position back to 0 (derived in R158 from R153). -/
def Obligations.SkipWindowTotalAdvance : Prop :=
  ∀ (c : Channel) (s : State) (rest : List Move), s.sampleTickEnable = true →
    s.moves = List.replicate 15 .sampleTick ++ rest →
    (s.sched.get c).repeatCount = 0 → (s.sched.get c).inverseRepeat ≠ 0 →
    (s.sched.get c).sampleCounter = 0 →
    ∃ t, runSteps 15 s = .next t ∧ t.moves = rest ∧
      (t.sched.get c).sampleCounter = 0 ∧
      (t.sched.get c).tableIndex.toNat =
        ((s.sched.get c).tableIndex.toNat + 15 * (s.sched.get c).inverseRepeat +
          (14 - (s.sched.get c).thresholdSkip)) % 256

/-- In hold mode the index never stops: from any tick counter it moves to the next entry within
`repeatCount + 1` effective ticks (the reason the spec gives for "reaches" being `≥` in R152). -/
def Obligations.HoldAlwaysAdvances : Prop :=
  ∀ (c : Channel) (s : State) (rest : List Move), s.sampleTickEnable = true →
    (s.sched.get c).repeatCount ≠ 0 →
    s.moves = List.replicate ((s.sched.get c).repeatCount + 1) .sampleTick ++ rest →
    ∃ n t, 1 ≤ n ∧ n ≤ (s.sched.get c).repeatCount + 1 ∧ runSteps n s = .next t ∧
      (t.sched.get c).tableIndex = (s.sched.get c).tableIndex + 1 ∧ (t.sched.get c).tickCounter = 0

/-! ## The bus driver and the poller -/

/-- `PRIM` (R232): the request is handed over and the result is that of the bounded wait for the answer, which
`nextAnswer` and `takeAnswer` take from the list or draw (the model's choice, log entry 2). No
acknowledgment gives `Timeout` after exactly the budget; a flag first seen on poll `n` within the budget ends
the wait on that poll with `Ok` or `ProtocolError`; a later one is a `Timeout`. -/
def Obligations.BoundedWaitNeverHangs : Prop :=
  (∀ (r : BusRequest) (s : State), busPrim r s =
    ((awaitAck (nextAnswer s) s.params.busBudget 0).1, takeAnswer { s with busRequests := s.busRequests ++ [r] })) ∧
  ∀ (budget : Nat),
    awaitAck .never budget 0 = (.timeout, budget) ∧
    ∀ (n : Nat) (data : Byte), 1 ≤ n →
      (n ≤ budget → awaitAck (.done n true data) budget 0 = (.ok data, n) ∧
        awaitAck (.done n false data) budget 0 = (.protocolError, n)) ∧
      (budget < n → ∀ good, awaitAck (.done n good data) budget 0 = (.timeout, budget))

/-- The four primitives (R233 to R236): the request is handed over, one answer is taken, listed or drawn, and
no other state of the block changes (the list, the counter and the draw of `Config.freeAnswer` are the model's
choice for R54's answers, log entry 2); the result is `Ok` with the data byte, `ProtocolError` or `Timeout` as R232 says. -/
def Obligations.PrimitivesHandOverRequests : Prop :=
  ∀ (s : State) (i : Instr) (p : State → BusResult × State) (r : BusRequest),
    (i = .start ∧ p = busStart ∧ r = .start) ∨
    (∃ dir addr, i = .sendControl dir addr ∧ p = busSendControl dir addr ∧ r = .control dir addr) ∨
    (∃ data, i = .sendByte data ∧ p = busSendByte data ∧ r = .send data) ∨
    (∃ isLast, i = .receiveByte isLast ∧ p = busReceiveByte isLast ∧ r = .receive isLast) →
    exec i s = .next (p s).2 ∧
    (∀ a rest, s.busAnswers = a :: rest →
      exec i s = .next { s with busRequests := s.busRequests ++ [r], busAnswers := rest } ∧
      (a = .never → (p s).1 = .timeout) ∧
      ∀ n data, 1 ≤ n →
        (a = .done n true data → n ≤ s.params.busBudget → (p s).1 = .ok data) ∧
        (a = .done n false data → n ≤ s.params.busBudget → (p s).1 = .protocolError) ∧
        (∀ good, a = .done n good data → s.params.busBudget < n → (p s).1 = .timeout)) ∧
    (s.busAnswers = [] →
      exec i s = .next { s with busRequests := s.busRequests ++ [r], draws := s.draws + 1 } ∧
      (p s).1 = (p { s with busAnswers := [Config.freeAnswer s.draws] }).1)

/-- `SEC_TICK` (R240): the flag is set if the 1 Hz tick is enabled; a masked tick has no effect. -/
def Obligations.SecTickSetsFlag : Prop :=
  ∀ s : State,
    (s.secTickEnable = true → exec .secTick s = .next { s with oneSecondFlag := true }) ∧
    (s.secTickEnable = false → exec .secTick s = .next s)

/-- `SEC_PASS` (R241): nothing without the flag; else the flag is cleared, and `POLL` runs only if reporting
is enabled. -/
def Obligations.SecPassServesFlag : Prop :=
  ∀ s : State, ∃ t, exec .secPass s = .next t ∧
    (s.oneSecondFlag = false → t = s) ∧
    (s.oneSecondFlag = true → s.tempReportEnable = false → t = { s with oneSecondFlag := false }) ∧
    (s.oneSecondFlag = true → s.tempReportEnable = true → exec .poll { s with oneSecondFlag := false } = .next t)

/-- `POLL` issues a non-empty initial part of the nine requests of R242, in order; it emits nothing or, after
all nine, one report of three bytes; nothing else of the block changes (R243). The answers come from the model's
list or draws (log entry 2). -/
def Obligations.PollIssuesRequestsInOrder : Prop :=
  ∀ s : State, ∃ t k, exec .poll s = .next t ∧ 1 ≤ k ∧ k ≤ 9 ∧
    t.busRequests = s.busRequests ++
      ([.start, .control .write s.params.sensorAddr, .send s.params.cmdOneShot,
        .start, .control .write s.params.sensorAddr, .send s.params.cmdRegSel,
        .start, .control .read s.params.sensorAddr, .receive true] : List BusRequest).take k ∧
    (t.txStream = s.txStream ∨ (k = 9 ∧ ∃ d1 d0, t.txStream = s.txStream ++ [d1, d0, 0x0A])) ∧
    t = { s with
          busRequests := t.busRequests
          txStream := t.txStream
          busAnswers := t.busAnswers
          draws := t.draws }

/-- `POLL` with nine good answers issues the nine requests of R242 in order and reports the byte the ninth one
carries (R244); with `j` good answers and then one that is bad or too late, it stops after the first `j + 1`
requests, silently, and changes nothing else of the block (R243). Which answers are not `Ok` is R232 and R54; that
they stand in the list `busAnswers` and are consumed from it is the model's choice (log entry 2). -/
def Obligations.PollDecidedByAnswers : Prop :=
  ∀ (s : State) (good : List (Nat × Byte)) (rest : List BusAnswer) (nine : List BusRequest),
    nine = [.start, .control .write s.params.sensorAddr, .send s.params.cmdOneShot,
      .start, .control .write s.params.sensorAddr, .send s.params.cmdRegSel,
      .start, .control .read s.params.sensorAddr, .receive true] →
    (∀ g ∈ good, 1 ≤ g.1 ∧ g.1 ≤ s.params.busBudget) →
    (∀ n v, good.length = 8 → 1 ≤ n → n ≤ s.params.busBudget →
      s.busAnswers = good.map (fun g => .done g.1 true g.2) ++ .done n true v :: rest →
      ∃ t, exec .poll s = .next t ∧
        exec (.report v) { s with busAnswers := rest, busRequests := s.busRequests ++ nine } = .next t) ∧
    (∀ a, good.length < 9 →
      (a = .never ∨ (∃ n data, a = .done n false data) ∨
        ∃ n g data, a = .done n g data ∧ s.params.busBudget < n) →
      s.busAnswers = good.map (fun g => .done g.1 true g.2) ++ a :: rest →
      exec .poll s = .next { s with
        busAnswers := rest, busRequests := s.busRequests ++ nine.take (good.length + 1) })

/-- `REPORT` (R244, R107): up to 99 the tens digit, the ones digit and a newline; from 100 on three bytes of
which only the newline is fixed (the two digits are free values, log entry 3). -/
def Obligations.ReportSendsTwoDigits : Prop :=
  ∀ (v : Byte) (s : State),
    (∀ tens ones : Nat, tens ≤ 9 → ones ≤ 9 → v.toNat = 10 * tens + ones →
      exec (.report v) s = .next { s with
        txStream := s.txStream ++ [BitVec.ofNat 8 (0x30 + tens), BitVec.ofNat 8 (0x30 + ones), 0x0A] }) ∧
    (100 ≤ v.toNat → ∃ d1 d0 : Byte,
      exec (.report v) s = .next { s with txStream := s.txStream ++ [d1, d0, 0x0A], draws := s.draws + 2 })

/-! ## The boundary, reset and the step -/

/-- `RX_EVENT` (R50): the byte is appended at the tail of the receive queue. -/
def Obligations.RxEventAppendsAtTail : Prop :=
  ∀ (b : Byte) (s : State), exec (.rxEvent b) s = .next { s with rxQueue := s.rxQueue ++ [b] }

/-- `RESET` (R292) leaves the table of R56 in every state: descriptors, mode group, tables and schedules from
`RESET_DESC`, flags clear, ticks enabled, owned port bits 0, queues empty, nothing emitted or requested. That
`RESET` run in any state empties both streams and the model's list of requests is the model's reading (log
entry 11, DEDUCED, unsafe in mid-run). -/
def Obligations.ResetEstablishesTable : Prop :=
  ∀ s : State, ∃ t, exec .reset s = .next t ∧
    t.params = s.params ∧
    t.desc = s.params.resetDesc ∧
    (t.mode = .highFrequency ↔
      6000 ≤ s.params.resetDesc.one.frequency ∨ 6000 ≤ s.params.resetDesc.two.frequency) ∧
    t.tfInt = s.params.tInt.get t.mode ∧ t.tfFloat = s.params.tFloat.get t.mode ∧
    t.tickRateSel = s.params.tickRate.get t.mode ∧
    (t.tempReportEnable = true ↔ t.mode = .normal) ∧
    (∀ c, TableMatches c t ∧ ScheduleMatches c t ∧
      (t.sched.get c).tableIndex = 0 ∧ (t.sched.get c).sampleCounter = 0 ∧ (t.sched.get c).tickCounter = 0) ∧
    t.cmdLen = 0 ∧ t.errPending = false ∧ t.ackPending = false ∧ t.resumePending = false ∧
    t.oneSecondFlag = false ∧ t.sampleTickEnable = true ∧ t.secTickEnable = true ∧
    t.port.g1 = 0 ∧ t.port.g2 = 0 ∧ t.port.gs.extractLsb' 0 4 = 0 ∧
    t.port.gs.extractLsb' 4 4 = s.port.gs.extractLsb' 4 4 ∧
    t.rxQueue = [] ∧ t.txStream = [] ∧ t.busRequests = [] ∧ t.passPos = .reply

/-- `State.reset` is the state `RESET` leaves: resetting it changes nothing, the model's own fields among it
(log entries 11 and 19). -/
def Obligations.ResetStateIsTheTable : Prop :=
  exec .reset State.reset = .next State.reset

/-- One step runs one operation of the agent whose listed move is next (R14, R73, R74): the main sequencer
runs `REPLY_PASS`, `RX_PASS`, `SEC_PASS` in cyclic order (R180), the handlers theirs. With no move listed the
model draws one (its choice, log entry 1). -/
def Obligations.StepRunsTheNextMove : Prop :=
  ∀ (s : State) (rest : List Move),
    (s.moves = .main :: rest → s.passPos = .reply →
      step s = exec .replyPass { s with moves := rest, passPos := .rx }) ∧
    (s.moves = .main :: rest → s.passPos = .rx →
      step s = exec .rxPass { s with moves := rest, passPos := .sec }) ∧
    (s.moves = .main :: rest → s.passPos = .sec →
      step s = exec .secPass { s with moves := rest, passPos := .reply }) ∧
    (s.moves = .sampleTick :: rest → step s = exec .sampleTick { s with moves := rest }) ∧
    (s.moves = .secTick :: rest → step s = exec .secTick { s with moves := rest }) ∧
    (∀ b, s.moves = .rxEvent b :: rest → step s = exec (.rxEvent b) { s with moves := rest }) ∧
    (s.moves = [] → ∃ m, step s = step { s with moves := [m], draws := s.draws + 1 })

/-- A step that consumes a terminator runs the decoded telegram: with the pass at `RX_PASS` and a buffered body
that decodes to `tg`, the step is `exec` of it, after the byte is popped, both ticks are masked (R181) and the
pass has moved on. -/
def Obligations.StepRunsDecodedTelegram : Prop :=
  ∀ (s : State) (m : List Move) (q : List Byte) (tg : Telegram),
    s.moves = .main :: m → s.passPos = .rx → s.rxQueue = 0x21 :: q → decodeBody (cmdBody s) = .accept tg →
    step s = exec tg.toInstr
      { s with moves := m, passPos := .sec, rxQueue := q, sampleTickEnable := false, secTickEnable := false }

/-- A telegram placed by `withFetchWord` is run by the very next step (log entry 10). -/
def Obligations.PlacedTelegramRunsNext : Prop :=
  ∀ (s : State) (nbits w : Nat) (i : Instr), s.cmdBuf.wf → decodeTableWord nbits w = some i →
    ∃ u, step (s.withFetchWord nbits w) = exec i u ∧
      cmdBody u = tableBody nbits w ∧
      u = { s with
            cmdBuf := u.cmdBuf
            cmdLen := u.cmdLen
            passPos := .sec
            sampleTickEnable := false
            secTickEnable := false }

/-- No condition is fatal (R265): from every state the machine goes on. -/
def Obligations.EveryStepContinues : Prop :=
  ∀ s : State, ∃ t, step s = .next t

/-- The three handlers commute: any two of them give the same state in either order (R269, R75). -/
def Obligations.HandlersCommute : Prop :=
  ∀ (s t u v w : State) (i j : Instr),
    (i = .sampleTick ∨ i = .secTick ∨ ∃ b, i = .rxEvent b) →
    (j = .sampleTick ∨ j = .secTick ∨ ∃ b, j = .rxEvent b) →
    ((∃ b, i = .rxEvent b) → ∀ b, j ≠ .rxEvent b) →
    exec i s = .next t → exec j t = .next u → exec j s = .next v → exec i v = .next w → u = w

/-- `RESUME_BRANCH` (R208): the buffer cleared, both ticks enabled, the flag cleared, nothing emitted. Nothing
else lifts a mask: a step after which a tick source is enabled that was masked is the main sequencer's
`REPLY_PASS` with a resume action pending and no error or acknowledgment pending, it enables both, and the
action is not repeated. -/
def Obligations.ResumeBranchAloneEnablesTicks : Prop :=
  (∀ s : State, exec .resumeBranch s =
    .next { s with cmdLen := 0, sampleTickEnable := true, secTickEnable := true, resumePending := false }) ∧
  ∀ s t : State, step s = .next t →
    (s.sampleTickEnable = false ∧ t.sampleTickEnable = true) ∨ (s.secTickEnable = false ∧ t.secTickEnable = true) →
    nextMove s = .main ∧ s.passPos = .reply ∧ s.resumePending = true ∧ s.errPending = false ∧
      s.ackPending = false ∧ t.resumePending = false ∧ t.sampleTickEnable = true ∧ t.secTickEnable = true

/-- The transmit stream only grows, and only by an owed reply or by a temperature report (R213, R245): a step
appends `ERR\n` for a pending error, `ACK\n` for a pending acknowledgment, three bytes ending in a newline when
a served one-second flag finds reporting enabled, or nothing. -/
def Obligations.TransmitStreamCauses : Prop :=
  ∀ s t : State, step s = .next t →
    t.txStream = s.txStream ∨
    (t.txStream = s.txStream ++ [0x45, 0x52, 0x52, 0x0A] ∧ nextMove s = .main ∧ s.passPos = .reply ∧
      s.errPending = true ∧ t.errPending = false) ∨
    (t.txStream = s.txStream ++ [0x41, 0x43, 0x4B, 0x0A] ∧ nextMove s = .main ∧ s.passPos = .reply ∧
      s.errPending = false ∧ s.ackPending = true ∧ t.ackPending = false) ∨
    (∃ d1 d0, t.txStream = s.txStream ++ [d1, d0, 0x0A] ∧ nextMove s = .main ∧ s.passPos = .sec ∧
      s.oneSecondFlag = true ∧ s.tempReportEnable = true ∧ t.oneSecondFlag = false)

/-- Single writers (R21, R61, R79): a step changes a descriptor only where a terminator is consumed and an
acknowledgment results; it changes a scaled table only in an acknowledgment branch; it never changes an open
parameter, the base tables among them. -/
def Obligations.RegistersHaveOneWriter : Prop :=
  ∀ s t : State, step s = .next t →
    t.params = s.params ∧
    (t.desc ≠ s.desc → nextMove s = .main ∧ s.passPos = .rx ∧ s.rxQueue.head? = some 0x21 ∧
      t.ackPending = true) ∧
    (t.scaled ≠ s.scaled → nextMove s = .main ∧ s.passPos = .reply ∧ s.errPending = false ∧
      s.ackPending = true)

/-- The critical section (derived in R210): the `RX_PASS` that consumes a byte masks both ticks; while they are masked a
step changes no bit the block owns of the port image and commits no image, sets no one-second flag, and moves
no schedule counter except by a re-synthesis; and only a resume action, with no error or acknowledgment
pending, ends it. -/
def Obligations.CriticalSectionFreezesOutputs : Prop :=
  ∀ s t : State, step s = .next t →
    (nextMove s = .main → s.passPos = .rx → s.rxQueue ≠ [] → Masked t) ∧
    (Masked s →
      t.port.g1 = s.port.g1 ∧ t.port.g2 = s.port.g2 ∧
      t.port.gs.extractLsb' 0 4 = s.port.gs.extractLsb' 0 4 ∧
      t.portTrace = s.portTrace ∧
      (t.oneSecondFlag = true → s.oneSecondFlag = true) ∧
      (t.sched ≠ s.sched → s.ackPending = true) ∧
      (Masked t ∨
        (nextMove s = .main ∧ s.passPos = .reply ∧ s.resumePending = true ∧ s.errPending = false ∧
          s.ackPending = false)))

/-- `CONTINUEE` takes two passes after its terminator (R211): from the `RX_PASS` that consumes the terminator
behind a buffered `CONTINUEE`, with no further byte, no error and no second to serve, six main operations emit
exactly one `ACK\n`, enable both ticks, and leave the buffer empty and nothing pending. -/
def Obligations.ContinueeResumesInTwoPasses : Prop :=
  ∀ (s : State) (rest : List Move), s.passPos = .rx → s.rxQueue = [0x21] →
    cmdBody s = [0x43, 0x4F, 0x4E, 0x54, 0x49, 0x4E, 0x55, 0x45, 0x45] →
    s.errPending = false → s.oneSecondFlag = false →
    s.moves = List.replicate 6 .main ++ rest →
    ∃ t, runSteps 6 s = .next t ∧ t.moves = rest ∧ t.passPos = .rx ∧
      t.txStream = s.txStream ++ [0x41, 0x43, 0x4B, 0x0A] ∧
      t.sampleTickEnable = true ∧ t.secTickEnable = true ∧
      t.errPending = false ∧ t.ackPending = false ∧ t.resumePending = false ∧
      t.cmdLen = 0 ∧ t.rxQueue = [] ∧ t.desc = s.desc

/-! ## Invariants -/

/-- Every step keeps the protocol's discipline: equal masks (R34), nothing pending while the ticks run (derived
in R212), at most one reply owed (R180), the buffer within its nine cells (R31) and free of terminators (R90); the
memories are canonical, which `MemoryCanonicalKept` says every step keeps. -/
def Obligations.DisciplineKept : Prop :=
  ∀ s t : State, MemoryCanonical s → Disciplined s → step s = .next t → Disciplined t

/-- Every step keeps mode, tables and schedules those of the current descriptors unless a re-synthesis is owed
(R27, R203, R206). -/
def Obligations.CoherenceKept : Prop :=
  ∀ s t : State, Coherent s → step s = .next t → Coherent t

/-- Every step keeps each memory in its canonical form and within its address space (R60, R62, R63). -/
def Obligations.MemoryCanonicalKept : Prop :=
  ∀ s t : State, MemoryCanonical s → step s = .next t → MemoryCanonical t

/-- Every step keeps the configuration legal, the mode group consistent (R28) and the schedule fields within
the bounds of R23. -/
def Obligations.ConfigurationAndBoundsKept : Prop :=
  ∀ s t : State, Configured s → SchedulesBounded s → step s = .next t → Configured t ∧ SchedulesBounded t

/-- While the ticks run the scaled tables and the schedules are those of the current descriptors (derived: R27
speaks of the descriptors last recomputed and of tables; that these are then the current ones follows from R76
and R212, and the schedules from R125 to R127). -/
def Obligations.RunningTablesAreConsistent : Prop :=
  ∀ s t : State, MemoryCanonical s → Disciplined s → Coherent s → step s = .next t → t.sampleTickEnable = true →
    ∀ c, TableMatches c t ∧ ScheduleMatches c t

/-- All invariants hold right after reset (R293). -/
def Obligations.InvariantsHoldAtReset : Prop :=
  Disciplined State.reset ∧ Coherent State.reset ∧ MemoryCanonical State.reset ∧ Configured State.reset ∧
    SchedulesBounded State.reset
end

