-- ==== Sys2Proof/Laws/State.lean ====
section
/-! SUPPORT. One lemma per field per update: what each named update of State does to each field. -/

namespace Sys2Proof.Machine

@[simp] theorem setTicks_params (b : Bool) (s : State) : (setTicks b s).params = s.params := rfl
@[simp] theorem setTicks_desc (b : Bool) (s : State) : (setTicks b s).desc = s.desc := rfl
@[simp] theorem setTicks_sched (b : Bool) (s : State) : (setTicks b s).sched = s.sched := rfl
@[simp] theorem setTicks_scaled (b : Bool) (s : State) : (setTicks b s).scaled = s.scaled := rfl
@[simp] theorem setTicks_mode (b : Bool) (s : State) : (setTicks b s).mode = s.mode := rfl
@[simp] theorem setTicks_tfInt (b : Bool) (s : State) : (setTicks b s).tfInt = s.tfInt := rfl
@[simp] theorem setTicks_tfFloat (b : Bool) (s : State) : (setTicks b s).tfFloat = s.tfFloat := rfl
@[simp] theorem setTicks_tickRateSel (b : Bool) (s : State) : (setTicks b s).tickRateSel = s.tickRateSel := rfl
@[simp] theorem setTicks_tempReportEnable (b : Bool) (s : State) : (setTicks b s).tempReportEnable = s.tempReportEnable := rfl
@[simp] theorem setTicks_cmdBuf (b : Bool) (s : State) : (setTicks b s).cmdBuf = s.cmdBuf := rfl
@[simp] theorem setTicks_cmdLen (b : Bool) (s : State) : (setTicks b s).cmdLen = s.cmdLen := rfl
@[simp] theorem setTicks_errPending (b : Bool) (s : State) : (setTicks b s).errPending = s.errPending := rfl
@[simp] theorem setTicks_ackPending (b : Bool) (s : State) : (setTicks b s).ackPending = s.ackPending := rfl
@[simp] theorem setTicks_resumePending (b : Bool) (s : State) : (setTicks b s).resumePending = s.resumePending := rfl
@[simp] theorem setTicks_oneSecondFlag (b : Bool) (s : State) : (setTicks b s).oneSecondFlag = s.oneSecondFlag := rfl
@[simp] theorem setTicks_sampleTickEnable (b : Bool) (s : State) : (setTicks b s).sampleTickEnable = b := rfl
@[simp] theorem setTicks_secTickEnable (b : Bool) (s : State) : (setTicks b s).secTickEnable = b := rfl
@[simp] theorem setTicks_port (b : Bool) (s : State) : (setTicks b s).port = s.port := rfl
@[simp] theorem setTicks_portTrace (b : Bool) (s : State) : (setTicks b s).portTrace = s.portTrace := rfl
@[simp] theorem setTicks_rxQueue (b : Bool) (s : State) : (setTicks b s).rxQueue = s.rxQueue := rfl
@[simp] theorem setTicks_txStream (b : Bool) (s : State) : (setTicks b s).txStream = s.txStream := rfl
@[simp] theorem setTicks_busRequests (b : Bool) (s : State) : (setTicks b s).busRequests = s.busRequests := rfl
@[simp] theorem setTicks_passPos (b : Bool) (s : State) : (setTicks b s).passPos = s.passPos := rfl
@[simp] theorem setTicks_moves (b : Bool) (s : State) : (setTicks b s).moves = s.moves := rfl
@[simp] theorem setTicks_busAnswers (b : Bool) (s : State) : (setTicks b s).busAnswers = s.busAnswers := rfl
@[simp] theorem setTicks_draws (b : Bool) (s : State) : (setTicks b s).draws = s.draws := rfl

@[simp] theorem setErrPending_params (b : Bool) (s : State) : (setErrPending b s).params = s.params := rfl
@[simp] theorem setErrPending_desc (b : Bool) (s : State) : (setErrPending b s).desc = s.desc := rfl
@[simp] theorem setErrPending_sched (b : Bool) (s : State) : (setErrPending b s).sched = s.sched := rfl
@[simp] theorem setErrPending_scaled (b : Bool) (s : State) : (setErrPending b s).scaled = s.scaled := rfl
@[simp] theorem setErrPending_mode (b : Bool) (s : State) : (setErrPending b s).mode = s.mode := rfl
@[simp] theorem setErrPending_tfInt (b : Bool) (s : State) : (setErrPending b s).tfInt = s.tfInt := rfl
@[simp] theorem setErrPending_tfFloat (b : Bool) (s : State) : (setErrPending b s).tfFloat = s.tfFloat := rfl
@[simp] theorem setErrPending_tickRateSel (b : Bool) (s : State) : (setErrPending b s).tickRateSel = s.tickRateSel := rfl
@[simp] theorem setErrPending_tempReportEnable (b : Bool) (s : State) : (setErrPending b s).tempReportEnable = s.tempReportEnable := rfl
@[simp] theorem setErrPending_cmdBuf (b : Bool) (s : State) : (setErrPending b s).cmdBuf = s.cmdBuf := rfl
@[simp] theorem setErrPending_cmdLen (b : Bool) (s : State) : (setErrPending b s).cmdLen = s.cmdLen := rfl
@[simp] theorem setErrPending_errPending (b : Bool) (s : State) : (setErrPending b s).errPending = b := rfl
@[simp] theorem setErrPending_ackPending (b : Bool) (s : State) : (setErrPending b s).ackPending = s.ackPending := rfl
@[simp] theorem setErrPending_resumePending (b : Bool) (s : State) : (setErrPending b s).resumePending = s.resumePending := rfl
@[simp] theorem setErrPending_oneSecondFlag (b : Bool) (s : State) : (setErrPending b s).oneSecondFlag = s.oneSecondFlag := rfl
@[simp] theorem setErrPending_sampleTickEnable (b : Bool) (s : State) : (setErrPending b s).sampleTickEnable = s.sampleTickEnable := rfl
@[simp] theorem setErrPending_secTickEnable (b : Bool) (s : State) : (setErrPending b s).secTickEnable = s.secTickEnable := rfl
@[simp] theorem setErrPending_port (b : Bool) (s : State) : (setErrPending b s).port = s.port := rfl
@[simp] theorem setErrPending_portTrace (b : Bool) (s : State) : (setErrPending b s).portTrace = s.portTrace := rfl
@[simp] theorem setErrPending_rxQueue (b : Bool) (s : State) : (setErrPending b s).rxQueue = s.rxQueue := rfl
@[simp] theorem setErrPending_txStream (b : Bool) (s : State) : (setErrPending b s).txStream = s.txStream := rfl
@[simp] theorem setErrPending_busRequests (b : Bool) (s : State) : (setErrPending b s).busRequests = s.busRequests := rfl
@[simp] theorem setErrPending_passPos (b : Bool) (s : State) : (setErrPending b s).passPos = s.passPos := rfl
@[simp] theorem setErrPending_moves (b : Bool) (s : State) : (setErrPending b s).moves = s.moves := rfl
@[simp] theorem setErrPending_busAnswers (b : Bool) (s : State) : (setErrPending b s).busAnswers = s.busAnswers := rfl
@[simp] theorem setErrPending_draws (b : Bool) (s : State) : (setErrPending b s).draws = s.draws := rfl

@[simp] theorem setAckPending_params (b : Bool) (s : State) : (setAckPending b s).params = s.params := rfl
@[simp] theorem setAckPending_desc (b : Bool) (s : State) : (setAckPending b s).desc = s.desc := rfl
@[simp] theorem setAckPending_sched (b : Bool) (s : State) : (setAckPending b s).sched = s.sched := rfl
@[simp] theorem setAckPending_scaled (b : Bool) (s : State) : (setAckPending b s).scaled = s.scaled := rfl
@[simp] theorem setAckPending_mode (b : Bool) (s : State) : (setAckPending b s).mode = s.mode := rfl
@[simp] theorem setAckPending_tfInt (b : Bool) (s : State) : (setAckPending b s).tfInt = s.tfInt := rfl
@[simp] theorem setAckPending_tfFloat (b : Bool) (s : State) : (setAckPending b s).tfFloat = s.tfFloat := rfl
@[simp] theorem setAckPending_tickRateSel (b : Bool) (s : State) : (setAckPending b s).tickRateSel = s.tickRateSel := rfl
@[simp] theorem setAckPending_tempReportEnable (b : Bool) (s : State) : (setAckPending b s).tempReportEnable = s.tempReportEnable := rfl
@[simp] theorem setAckPending_cmdBuf (b : Bool) (s : State) : (setAckPending b s).cmdBuf = s.cmdBuf := rfl
@[simp] theorem setAckPending_cmdLen (b : Bool) (s : State) : (setAckPending b s).cmdLen = s.cmdLen := rfl
@[simp] theorem setAckPending_errPending (b : Bool) (s : State) : (setAckPending b s).errPending = s.errPending := rfl
@[simp] theorem setAckPending_ackPending (b : Bool) (s : State) : (setAckPending b s).ackPending = b := rfl
@[simp] theorem setAckPending_resumePending (b : Bool) (s : State) : (setAckPending b s).resumePending = s.resumePending := rfl
@[simp] theorem setAckPending_oneSecondFlag (b : Bool) (s : State) : (setAckPending b s).oneSecondFlag = s.oneSecondFlag := rfl
@[simp] theorem setAckPending_sampleTickEnable (b : Bool) (s : State) : (setAckPending b s).sampleTickEnable = s.sampleTickEnable := rfl
@[simp] theorem setAckPending_secTickEnable (b : Bool) (s : State) : (setAckPending b s).secTickEnable = s.secTickEnable := rfl
@[simp] theorem setAckPending_port (b : Bool) (s : State) : (setAckPending b s).port = s.port := rfl
@[simp] theorem setAckPending_portTrace (b : Bool) (s : State) : (setAckPending b s).portTrace = s.portTrace := rfl
@[simp] theorem setAckPending_rxQueue (b : Bool) (s : State) : (setAckPending b s).rxQueue = s.rxQueue := rfl
@[simp] theorem setAckPending_txStream (b : Bool) (s : State) : (setAckPending b s).txStream = s.txStream := rfl
@[simp] theorem setAckPending_busRequests (b : Bool) (s : State) : (setAckPending b s).busRequests = s.busRequests := rfl
@[simp] theorem setAckPending_passPos (b : Bool) (s : State) : (setAckPending b s).passPos = s.passPos := rfl
@[simp] theorem setAckPending_moves (b : Bool) (s : State) : (setAckPending b s).moves = s.moves := rfl
@[simp] theorem setAckPending_busAnswers (b : Bool) (s : State) : (setAckPending b s).busAnswers = s.busAnswers := rfl
@[simp] theorem setAckPending_draws (b : Bool) (s : State) : (setAckPending b s).draws = s.draws := rfl

@[simp] theorem setResumePending_params (b : Bool) (s : State) : (setResumePending b s).params = s.params := rfl
@[simp] theorem setResumePending_desc (b : Bool) (s : State) : (setResumePending b s).desc = s.desc := rfl
@[simp] theorem setResumePending_sched (b : Bool) (s : State) : (setResumePending b s).sched = s.sched := rfl
@[simp] theorem setResumePending_scaled (b : Bool) (s : State) : (setResumePending b s).scaled = s.scaled := rfl
@[simp] theorem setResumePending_mode (b : Bool) (s : State) : (setResumePending b s).mode = s.mode := rfl
@[simp] theorem setResumePending_tfInt (b : Bool) (s : State) : (setResumePending b s).tfInt = s.tfInt := rfl
@[simp] theorem setResumePending_tfFloat (b : Bool) (s : State) : (setResumePending b s).tfFloat = s.tfFloat := rfl
@[simp] theorem setResumePending_tickRateSel (b : Bool) (s : State) : (setResumePending b s).tickRateSel = s.tickRateSel := rfl
@[simp] theorem setResumePending_tempReportEnable (b : Bool) (s : State) : (setResumePending b s).tempReportEnable = s.tempReportEnable := rfl
@[simp] theorem setResumePending_cmdBuf (b : Bool) (s : State) : (setResumePending b s).cmdBuf = s.cmdBuf := rfl
@[simp] theorem setResumePending_cmdLen (b : Bool) (s : State) : (setResumePending b s).cmdLen = s.cmdLen := rfl
@[simp] theorem setResumePending_errPending (b : Bool) (s : State) : (setResumePending b s).errPending = s.errPending := rfl
@[simp] theorem setResumePending_ackPending (b : Bool) (s : State) : (setResumePending b s).ackPending = s.ackPending := rfl
@[simp] theorem setResumePending_resumePending (b : Bool) (s : State) : (setResumePending b s).resumePending = b := rfl
@[simp] theorem setResumePending_oneSecondFlag (b : Bool) (s : State) : (setResumePending b s).oneSecondFlag = s.oneSecondFlag := rfl
@[simp] theorem setResumePending_sampleTickEnable (b : Bool) (s : State) : (setResumePending b s).sampleTickEnable = s.sampleTickEnable := rfl
@[simp] theorem setResumePending_secTickEnable (b : Bool) (s : State) : (setResumePending b s).secTickEnable = s.secTickEnable := rfl
@[simp] theorem setResumePending_port (b : Bool) (s : State) : (setResumePending b s).port = s.port := rfl
@[simp] theorem setResumePending_portTrace (b : Bool) (s : State) : (setResumePending b s).portTrace = s.portTrace := rfl
@[simp] theorem setResumePending_rxQueue (b : Bool) (s : State) : (setResumePending b s).rxQueue = s.rxQueue := rfl
@[simp] theorem setResumePending_txStream (b : Bool) (s : State) : (setResumePending b s).txStream = s.txStream := rfl
@[simp] theorem setResumePending_busRequests (b : Bool) (s : State) : (setResumePending b s).busRequests = s.busRequests := rfl
@[simp] theorem setResumePending_passPos (b : Bool) (s : State) : (setResumePending b s).passPos = s.passPos := rfl
@[simp] theorem setResumePending_moves (b : Bool) (s : State) : (setResumePending b s).moves = s.moves := rfl
@[simp] theorem setResumePending_busAnswers (b : Bool) (s : State) : (setResumePending b s).busAnswers = s.busAnswers := rfl
@[simp] theorem setResumePending_draws (b : Bool) (s : State) : (setResumePending b s).draws = s.draws := rfl

@[simp] theorem setOneSecond_params (b : Bool) (s : State) : (setOneSecond b s).params = s.params := rfl
@[simp] theorem setOneSecond_desc (b : Bool) (s : State) : (setOneSecond b s).desc = s.desc := rfl
@[simp] theorem setOneSecond_sched (b : Bool) (s : State) : (setOneSecond b s).sched = s.sched := rfl
@[simp] theorem setOneSecond_scaled (b : Bool) (s : State) : (setOneSecond b s).scaled = s.scaled := rfl
@[simp] theorem setOneSecond_mode (b : Bool) (s : State) : (setOneSecond b s).mode = s.mode := rfl
@[simp] theorem setOneSecond_tfInt (b : Bool) (s : State) : (setOneSecond b s).tfInt = s.tfInt := rfl
@[simp] theorem setOneSecond_tfFloat (b : Bool) (s : State) : (setOneSecond b s).tfFloat = s.tfFloat := rfl
@[simp] theorem setOneSecond_tickRateSel (b : Bool) (s : State) : (setOneSecond b s).tickRateSel = s.tickRateSel := rfl
@[simp] theorem setOneSecond_tempReportEnable (b : Bool) (s : State) : (setOneSecond b s).tempReportEnable = s.tempReportEnable := rfl
@[simp] theorem setOneSecond_cmdBuf (b : Bool) (s : State) : (setOneSecond b s).cmdBuf = s.cmdBuf := rfl
@[simp] theorem setOneSecond_cmdLen (b : Bool) (s : State) : (setOneSecond b s).cmdLen = s.cmdLen := rfl
@[simp] theorem setOneSecond_errPending (b : Bool) (s : State) : (setOneSecond b s).errPending = s.errPending := rfl
@[simp] theorem setOneSecond_ackPending (b : Bool) (s : State) : (setOneSecond b s).ackPending = s.ackPending := rfl
@[simp] theorem setOneSecond_resumePending (b : Bool) (s : State) : (setOneSecond b s).resumePending = s.resumePending := rfl
@[simp] theorem setOneSecond_oneSecondFlag (b : Bool) (s : State) : (setOneSecond b s).oneSecondFlag = b := rfl
@[simp] theorem setOneSecond_sampleTickEnable (b : Bool) (s : State) : (setOneSecond b s).sampleTickEnable = s.sampleTickEnable := rfl
@[simp] theorem setOneSecond_secTickEnable (b : Bool) (s : State) : (setOneSecond b s).secTickEnable = s.secTickEnable := rfl
@[simp] theorem setOneSecond_port (b : Bool) (s : State) : (setOneSecond b s).port = s.port := rfl
@[simp] theorem setOneSecond_portTrace (b : Bool) (s : State) : (setOneSecond b s).portTrace = s.portTrace := rfl
@[simp] theorem setOneSecond_rxQueue (b : Bool) (s : State) : (setOneSecond b s).rxQueue = s.rxQueue := rfl
@[simp] theorem setOneSecond_txStream (b : Bool) (s : State) : (setOneSecond b s).txStream = s.txStream := rfl
@[simp] theorem setOneSecond_busRequests (b : Bool) (s : State) : (setOneSecond b s).busRequests = s.busRequests := rfl
@[simp] theorem setOneSecond_passPos (b : Bool) (s : State) : (setOneSecond b s).passPos = s.passPos := rfl
@[simp] theorem setOneSecond_moves (b : Bool) (s : State) : (setOneSecond b s).moves = s.moves := rfl
@[simp] theorem setOneSecond_busAnswers (b : Bool) (s : State) : (setOneSecond b s).busAnswers = s.busAnswers := rfl
@[simp] theorem setOneSecond_draws (b : Bool) (s : State) : (setOneSecond b s).draws = s.draws := rfl

@[simp] theorem evalMode_params (s : State) : (evalMode s).params = s.params := rfl
@[simp] theorem evalMode_desc (s : State) : (evalMode s).desc = s.desc := rfl
@[simp] theorem evalMode_sched (s : State) : (evalMode s).sched = s.sched := rfl
@[simp] theorem evalMode_scaled (s : State) : (evalMode s).scaled = s.scaled := rfl
@[simp] theorem evalMode_mode (s : State) : (evalMode s).mode = modeOf s.desc := rfl
@[simp] theorem evalMode_tfInt (s : State) : (evalMode s).tfInt = s.tfInt := rfl
@[simp] theorem evalMode_tfFloat (s : State) : (evalMode s).tfFloat = s.tfFloat := rfl
@[simp] theorem evalMode_tickRateSel (s : State) : (evalMode s).tickRateSel = s.tickRateSel := rfl
@[simp] theorem evalMode_tempReportEnable (s : State) : (evalMode s).tempReportEnable = s.tempReportEnable := rfl
@[simp] theorem evalMode_cmdBuf (s : State) : (evalMode s).cmdBuf = s.cmdBuf := rfl
@[simp] theorem evalMode_cmdLen (s : State) : (evalMode s).cmdLen = s.cmdLen := rfl
@[simp] theorem evalMode_errPending (s : State) : (evalMode s).errPending = s.errPending := rfl
@[simp] theorem evalMode_ackPending (s : State) : (evalMode s).ackPending = s.ackPending := rfl
@[simp] theorem evalMode_resumePending (s : State) : (evalMode s).resumePending = s.resumePending := rfl
@[simp] theorem evalMode_oneSecondFlag (s : State) : (evalMode s).oneSecondFlag = s.oneSecondFlag := rfl
@[simp] theorem evalMode_sampleTickEnable (s : State) : (evalMode s).sampleTickEnable = s.sampleTickEnable := rfl
@[simp] theorem evalMode_secTickEnable (s : State) : (evalMode s).secTickEnable = s.secTickEnable := rfl
@[simp] theorem evalMode_port (s : State) : (evalMode s).port = s.port := rfl
@[simp] theorem evalMode_portTrace (s : State) : (evalMode s).portTrace = s.portTrace := rfl
@[simp] theorem evalMode_rxQueue (s : State) : (evalMode s).rxQueue = s.rxQueue := rfl
@[simp] theorem evalMode_txStream (s : State) : (evalMode s).txStream = s.txStream := rfl
@[simp] theorem evalMode_busRequests (s : State) : (evalMode s).busRequests = s.busRequests := rfl
@[simp] theorem evalMode_passPos (s : State) : (evalMode s).passPos = s.passPos := rfl
@[simp] theorem evalMode_moves (s : State) : (evalMode s).moves = s.moves := rfl
@[simp] theorem evalMode_busAnswers (s : State) : (evalMode s).busAnswers = s.busAnswers := rfl
@[simp] theorem evalMode_draws (s : State) : (evalMode s).draws = s.draws := rfl

@[simp] theorem loadConstants_params (s : State) : (loadConstants s).params = s.params := rfl
@[simp] theorem loadConstants_desc (s : State) : (loadConstants s).desc = s.desc := rfl
@[simp] theorem loadConstants_sched (s : State) : (loadConstants s).sched = s.sched := rfl
@[simp] theorem loadConstants_scaled (s : State) : (loadConstants s).scaled = s.scaled := rfl
@[simp] theorem loadConstants_mode (s : State) : (loadConstants s).mode = s.mode := rfl
@[simp] theorem loadConstants_tfInt (s : State) : (loadConstants s).tfInt = s.params.tInt.get s.mode := rfl
@[simp] theorem loadConstants_tfFloat (s : State) : (loadConstants s).tfFloat = s.params.tFloat.get s.mode := rfl
@[simp] theorem loadConstants_tickRateSel (s : State) : (loadConstants s).tickRateSel = s.params.tickRate.get s.mode := rfl
@[simp] theorem loadConstants_tempReportEnable (s : State) : (loadConstants s).tempReportEnable = s.tempReportEnable := rfl
@[simp] theorem loadConstants_cmdBuf (s : State) : (loadConstants s).cmdBuf = s.cmdBuf := rfl
@[simp] theorem loadConstants_cmdLen (s : State) : (loadConstants s).cmdLen = s.cmdLen := rfl
@[simp] theorem loadConstants_errPending (s : State) : (loadConstants s).errPending = s.errPending := rfl
@[simp] theorem loadConstants_ackPending (s : State) : (loadConstants s).ackPending = s.ackPending := rfl
@[simp] theorem loadConstants_resumePending (s : State) : (loadConstants s).resumePending = s.resumePending := rfl
@[simp] theorem loadConstants_oneSecondFlag (s : State) : (loadConstants s).oneSecondFlag = s.oneSecondFlag := rfl
@[simp] theorem loadConstants_sampleTickEnable (s : State) : (loadConstants s).sampleTickEnable = s.sampleTickEnable := rfl
@[simp] theorem loadConstants_secTickEnable (s : State) : (loadConstants s).secTickEnable = s.secTickEnable := rfl
@[simp] theorem loadConstants_port (s : State) : (loadConstants s).port = s.port := rfl
@[simp] theorem loadConstants_portTrace (s : State) : (loadConstants s).portTrace = s.portTrace := rfl
@[simp] theorem loadConstants_rxQueue (s : State) : (loadConstants s).rxQueue = s.rxQueue := rfl
@[simp] theorem loadConstants_txStream (s : State) : (loadConstants s).txStream = s.txStream := rfl
@[simp] theorem loadConstants_busRequests (s : State) : (loadConstants s).busRequests = s.busRequests := rfl
@[simp] theorem loadConstants_passPos (s : State) : (loadConstants s).passPos = s.passPos := rfl
@[simp] theorem loadConstants_moves (s : State) : (loadConstants s).moves = s.moves := rfl
@[simp] theorem loadConstants_busAnswers (s : State) : (loadConstants s).busAnswers = s.busAnswers := rfl
@[simp] theorem loadConstants_draws (s : State) : (loadConstants s).draws = s.draws := rfl

@[simp] theorem gateReports_params (s : State) : (gateReports s).params = s.params := rfl
@[simp] theorem gateReports_desc (s : State) : (gateReports s).desc = s.desc := rfl
@[simp] theorem gateReports_sched (s : State) : (gateReports s).sched = s.sched := rfl
@[simp] theorem gateReports_scaled (s : State) : (gateReports s).scaled = s.scaled := rfl
@[simp] theorem gateReports_mode (s : State) : (gateReports s).mode = s.mode := rfl
@[simp] theorem gateReports_tfInt (s : State) : (gateReports s).tfInt = s.tfInt := rfl
@[simp] theorem gateReports_tfFloat (s : State) : (gateReports s).tfFloat = s.tfFloat := rfl
@[simp] theorem gateReports_tickRateSel (s : State) : (gateReports s).tickRateSel = s.tickRateSel := rfl
@[simp] theorem gateReports_tempReportEnable (s : State) : (gateReports s).tempReportEnable = decide (s.mode = .normal) := rfl
@[simp] theorem gateReports_cmdBuf (s : State) : (gateReports s).cmdBuf = s.cmdBuf := rfl
@[simp] theorem gateReports_cmdLen (s : State) : (gateReports s).cmdLen = s.cmdLen := rfl
@[simp] theorem gateReports_errPending (s : State) : (gateReports s).errPending = s.errPending := rfl
@[simp] theorem gateReports_ackPending (s : State) : (gateReports s).ackPending = s.ackPending := rfl
@[simp] theorem gateReports_resumePending (s : State) : (gateReports s).resumePending = s.resumePending := rfl
@[simp] theorem gateReports_oneSecondFlag (s : State) : (gateReports s).oneSecondFlag = s.oneSecondFlag := rfl
@[simp] theorem gateReports_sampleTickEnable (s : State) : (gateReports s).sampleTickEnable = s.sampleTickEnable := rfl
@[simp] theorem gateReports_secTickEnable (s : State) : (gateReports s).secTickEnable = s.secTickEnable := rfl
@[simp] theorem gateReports_port (s : State) : (gateReports s).port = s.port := rfl
@[simp] theorem gateReports_portTrace (s : State) : (gateReports s).portTrace = s.portTrace := rfl
@[simp] theorem gateReports_rxQueue (s : State) : (gateReports s).rxQueue = s.rxQueue := rfl
@[simp] theorem gateReports_txStream (s : State) : (gateReports s).txStream = s.txStream := rfl
@[simp] theorem gateReports_busRequests (s : State) : (gateReports s).busRequests = s.busRequests := rfl
@[simp] theorem gateReports_passPos (s : State) : (gateReports s).passPos = s.passPos := rfl
@[simp] theorem gateReports_moves (s : State) : (gateReports s).moves = s.moves := rfl
@[simp] theorem gateReports_busAnswers (s : State) : (gateReports s).busAnswers = s.busAnswers := rfl
@[simp] theorem gateReports_draws (s : State) : (gateReports s).draws = s.draws := rfl

@[simp] theorem setScaled_params (c : Channel) (m : Memory) (s : State) : (setScaled c m s).params = s.params := rfl
@[simp] theorem setScaled_desc (c : Channel) (m : Memory) (s : State) : (setScaled c m s).desc = s.desc := rfl
@[simp] theorem setScaled_sched (c : Channel) (m : Memory) (s : State) : (setScaled c m s).sched = s.sched := rfl
@[simp] theorem setScaled_scaled (c : Channel) (m : Memory) (s : State) : (setScaled c m s).scaled = s.scaled.set c m := rfl
@[simp] theorem setScaled_mode (c : Channel) (m : Memory) (s : State) : (setScaled c m s).mode = s.mode := rfl
@[simp] theorem setScaled_tfInt (c : Channel) (m : Memory) (s : State) : (setScaled c m s).tfInt = s.tfInt := rfl
@[simp] theorem setScaled_tfFloat (c : Channel) (m : Memory) (s : State) : (setScaled c m s).tfFloat = s.tfFloat := rfl
@[simp] theorem setScaled_tickRateSel (c : Channel) (m : Memory) (s : State) : (setScaled c m s).tickRateSel = s.tickRateSel := rfl
@[simp] theorem setScaled_tempReportEnable (c : Channel) (m : Memory) (s : State) : (setScaled c m s).tempReportEnable = s.tempReportEnable := rfl
@[simp] theorem setScaled_cmdBuf (c : Channel) (m : Memory) (s : State) : (setScaled c m s).cmdBuf = s.cmdBuf := rfl
@[simp] theorem setScaled_cmdLen (c : Channel) (m : Memory) (s : State) : (setScaled c m s).cmdLen = s.cmdLen := rfl
@[simp] theorem setScaled_errPending (c : Channel) (m : Memory) (s : State) : (setScaled c m s).errPending = s.errPending := rfl
@[simp] theorem setScaled_ackPending (c : Channel) (m : Memory) (s : State) : (setScaled c m s).ackPending = s.ackPending := rfl
@[simp] theorem setScaled_resumePending (c : Channel) (m : Memory) (s : State) : (setScaled c m s).resumePending = s.resumePending := rfl
@[simp] theorem setScaled_oneSecondFlag (c : Channel) (m : Memory) (s : State) : (setScaled c m s).oneSecondFlag = s.oneSecondFlag := rfl
@[simp] theorem setScaled_sampleTickEnable (c : Channel) (m : Memory) (s : State) : (setScaled c m s).sampleTickEnable = s.sampleTickEnable := rfl
@[simp] theorem setScaled_secTickEnable (c : Channel) (m : Memory) (s : State) : (setScaled c m s).secTickEnable = s.secTickEnable := rfl
@[simp] theorem setScaled_port (c : Channel) (m : Memory) (s : State) : (setScaled c m s).port = s.port := rfl
@[simp] theorem setScaled_portTrace (c : Channel) (m : Memory) (s : State) : (setScaled c m s).portTrace = s.portTrace := rfl
@[simp] theorem setScaled_rxQueue (c : Channel) (m : Memory) (s : State) : (setScaled c m s).rxQueue = s.rxQueue := rfl
@[simp] theorem setScaled_txStream (c : Channel) (m : Memory) (s : State) : (setScaled c m s).txStream = s.txStream := rfl
@[simp] theorem setScaled_busRequests (c : Channel) (m : Memory) (s : State) : (setScaled c m s).busRequests = s.busRequests := rfl
@[simp] theorem setScaled_passPos (c : Channel) (m : Memory) (s : State) : (setScaled c m s).passPos = s.passPos := rfl
@[simp] theorem setScaled_moves (c : Channel) (m : Memory) (s : State) : (setScaled c m s).moves = s.moves := rfl
@[simp] theorem setScaled_busAnswers (c : Channel) (m : Memory) (s : State) : (setScaled c m s).busAnswers = s.busAnswers := rfl
@[simp] theorem setScaled_draws (c : Channel) (m : Memory) (s : State) : (setScaled c m s).draws = s.draws := rfl

@[simp] theorem setCmdBuf_params (m : Memory) (s : State) : (setCmdBuf m s).params = s.params := rfl
@[simp] theorem setCmdBuf_desc (m : Memory) (s : State) : (setCmdBuf m s).desc = s.desc := rfl
@[simp] theorem setCmdBuf_sched (m : Memory) (s : State) : (setCmdBuf m s).sched = s.sched := rfl
@[simp] theorem setCmdBuf_scaled (m : Memory) (s : State) : (setCmdBuf m s).scaled = s.scaled := rfl
@[simp] theorem setCmdBuf_mode (m : Memory) (s : State) : (setCmdBuf m s).mode = s.mode := rfl
@[simp] theorem setCmdBuf_tfInt (m : Memory) (s : State) : (setCmdBuf m s).tfInt = s.tfInt := rfl
@[simp] theorem setCmdBuf_tfFloat (m : Memory) (s : State) : (setCmdBuf m s).tfFloat = s.tfFloat := rfl
@[simp] theorem setCmdBuf_tickRateSel (m : Memory) (s : State) : (setCmdBuf m s).tickRateSel = s.tickRateSel := rfl
@[simp] theorem setCmdBuf_tempReportEnable (m : Memory) (s : State) : (setCmdBuf m s).tempReportEnable = s.tempReportEnable := rfl
@[simp] theorem setCmdBuf_cmdBuf (m : Memory) (s : State) : (setCmdBuf m s).cmdBuf = m := rfl
@[simp] theorem setCmdBuf_cmdLen (m : Memory) (s : State) : (setCmdBuf m s).cmdLen = s.cmdLen := rfl
@[simp] theorem setCmdBuf_errPending (m : Memory) (s : State) : (setCmdBuf m s).errPending = s.errPending := rfl
@[simp] theorem setCmdBuf_ackPending (m : Memory) (s : State) : (setCmdBuf m s).ackPending = s.ackPending := rfl
@[simp] theorem setCmdBuf_resumePending (m : Memory) (s : State) : (setCmdBuf m s).resumePending = s.resumePending := rfl
@[simp] theorem setCmdBuf_oneSecondFlag (m : Memory) (s : State) : (setCmdBuf m s).oneSecondFlag = s.oneSecondFlag := rfl
@[simp] theorem setCmdBuf_sampleTickEnable (m : Memory) (s : State) : (setCmdBuf m s).sampleTickEnable = s.sampleTickEnable := rfl
@[simp] theorem setCmdBuf_secTickEnable (m : Memory) (s : State) : (setCmdBuf m s).secTickEnable = s.secTickEnable := rfl
@[simp] theorem setCmdBuf_port (m : Memory) (s : State) : (setCmdBuf m s).port = s.port := rfl
@[simp] theorem setCmdBuf_portTrace (m : Memory) (s : State) : (setCmdBuf m s).portTrace = s.portTrace := rfl
@[simp] theorem setCmdBuf_rxQueue (m : Memory) (s : State) : (setCmdBuf m s).rxQueue = s.rxQueue := rfl
@[simp] theorem setCmdBuf_txStream (m : Memory) (s : State) : (setCmdBuf m s).txStream = s.txStream := rfl
@[simp] theorem setCmdBuf_busRequests (m : Memory) (s : State) : (setCmdBuf m s).busRequests = s.busRequests := rfl
@[simp] theorem setCmdBuf_passPos (m : Memory) (s : State) : (setCmdBuf m s).passPos = s.passPos := rfl
@[simp] theorem setCmdBuf_moves (m : Memory) (s : State) : (setCmdBuf m s).moves = s.moves := rfl
@[simp] theorem setCmdBuf_busAnswers (m : Memory) (s : State) : (setCmdBuf m s).busAnswers = s.busAnswers := rfl
@[simp] theorem setCmdBuf_draws (m : Memory) (s : State) : (setCmdBuf m s).draws = s.draws := rfl

@[simp] theorem setDesc_params (c : Channel) (d : Desc) (s : State) : (setDesc c d s).params = s.params := rfl
@[simp] theorem setDesc_desc (c : Channel) (d : Desc) (s : State) : (setDesc c d s).desc = s.desc.set c d := rfl
@[simp] theorem setDesc_sched (c : Channel) (d : Desc) (s : State) : (setDesc c d s).sched = s.sched := rfl
@[simp] theorem setDesc_scaled (c : Channel) (d : Desc) (s : State) : (setDesc c d s).scaled = s.scaled := rfl
@[simp] theorem setDesc_mode (c : Channel) (d : Desc) (s : State) : (setDesc c d s).mode = s.mode := rfl
@[simp] theorem setDesc_tfInt (c : Channel) (d : Desc) (s : State) : (setDesc c d s).tfInt = s.tfInt := rfl
@[simp] theorem setDesc_tfFloat (c : Channel) (d : Desc) (s : State) : (setDesc c d s).tfFloat = s.tfFloat := rfl
@[simp] theorem setDesc_tickRateSel (c : Channel) (d : Desc) (s : State) : (setDesc c d s).tickRateSel = s.tickRateSel := rfl
@[simp] theorem setDesc_tempReportEnable (c : Channel) (d : Desc) (s : State) : (setDesc c d s).tempReportEnable = s.tempReportEnable := rfl
@[simp] theorem setDesc_cmdBuf (c : Channel) (d : Desc) (s : State) : (setDesc c d s).cmdBuf = s.cmdBuf := rfl
@[simp] theorem setDesc_cmdLen (c : Channel) (d : Desc) (s : State) : (setDesc c d s).cmdLen = s.cmdLen := rfl
@[simp] theorem setDesc_errPending (c : Channel) (d : Desc) (s : State) : (setDesc c d s).errPending = s.errPending := rfl
@[simp] theorem setDesc_ackPending (c : Channel) (d : Desc) (s : State) : (setDesc c d s).ackPending = s.ackPending := rfl
@[simp] theorem setDesc_resumePending (c : Channel) (d : Desc) (s : State) : (setDesc c d s).resumePending = s.resumePending := rfl
@[simp] theorem setDesc_oneSecondFlag (c : Channel) (d : Desc) (s : State) : (setDesc c d s).oneSecondFlag = s.oneSecondFlag := rfl
@[simp] theorem setDesc_sampleTickEnable (c : Channel) (d : Desc) (s : State) : (setDesc c d s).sampleTickEnable = s.sampleTickEnable := rfl
@[simp] theorem setDesc_secTickEnable (c : Channel) (d : Desc) (s : State) : (setDesc c d s).secTickEnable = s.secTickEnable := rfl
@[simp] theorem setDesc_port (c : Channel) (d : Desc) (s : State) : (setDesc c d s).port = s.port := rfl
@[simp] theorem setDesc_portTrace (c : Channel) (d : Desc) (s : State) : (setDesc c d s).portTrace = s.portTrace := rfl
@[simp] theorem setDesc_rxQueue (c : Channel) (d : Desc) (s : State) : (setDesc c d s).rxQueue = s.rxQueue := rfl
@[simp] theorem setDesc_txStream (c : Channel) (d : Desc) (s : State) : (setDesc c d s).txStream = s.txStream := rfl
@[simp] theorem setDesc_busRequests (c : Channel) (d : Desc) (s : State) : (setDesc c d s).busRequests = s.busRequests := rfl
@[simp] theorem setDesc_passPos (c : Channel) (d : Desc) (s : State) : (setDesc c d s).passPos = s.passPos := rfl
@[simp] theorem setDesc_moves (c : Channel) (d : Desc) (s : State) : (setDesc c d s).moves = s.moves := rfl
@[simp] theorem setDesc_busAnswers (c : Channel) (d : Desc) (s : State) : (setDesc c d s).busAnswers = s.busAnswers := rfl
@[simp] theorem setDesc_draws (c : Channel) (d : Desc) (s : State) : (setDesc c d s).draws = s.draws := rfl

@[simp] theorem setSched_params (c : Channel) (k : Sched) (s : State) : (setSched c k s).params = s.params := rfl
@[simp] theorem setSched_desc (c : Channel) (k : Sched) (s : State) : (setSched c k s).desc = s.desc := rfl
@[simp] theorem setSched_sched (c : Channel) (k : Sched) (s : State) : (setSched c k s).sched = s.sched.set c k := rfl
@[simp] theorem setSched_scaled (c : Channel) (k : Sched) (s : State) : (setSched c k s).scaled = s.scaled := rfl
@[simp] theorem setSched_mode (c : Channel) (k : Sched) (s : State) : (setSched c k s).mode = s.mode := rfl
@[simp] theorem setSched_tfInt (c : Channel) (k : Sched) (s : State) : (setSched c k s).tfInt = s.tfInt := rfl
@[simp] theorem setSched_tfFloat (c : Channel) (k : Sched) (s : State) : (setSched c k s).tfFloat = s.tfFloat := rfl
@[simp] theorem setSched_tickRateSel (c : Channel) (k : Sched) (s : State) : (setSched c k s).tickRateSel = s.tickRateSel := rfl
@[simp] theorem setSched_tempReportEnable (c : Channel) (k : Sched) (s : State) : (setSched c k s).tempReportEnable = s.tempReportEnable := rfl
@[simp] theorem setSched_cmdBuf (c : Channel) (k : Sched) (s : State) : (setSched c k s).cmdBuf = s.cmdBuf := rfl
@[simp] theorem setSched_cmdLen (c : Channel) (k : Sched) (s : State) : (setSched c k s).cmdLen = s.cmdLen := rfl
@[simp] theorem setSched_errPending (c : Channel) (k : Sched) (s : State) : (setSched c k s).errPending = s.errPending := rfl
@[simp] theorem setSched_ackPending (c : Channel) (k : Sched) (s : State) : (setSched c k s).ackPending = s.ackPending := rfl
@[simp] theorem setSched_resumePending (c : Channel) (k : Sched) (s : State) : (setSched c k s).resumePending = s.resumePending := rfl
@[simp] theorem setSched_oneSecondFlag (c : Channel) (k : Sched) (s : State) : (setSched c k s).oneSecondFlag = s.oneSecondFlag := rfl
@[simp] theorem setSched_sampleTickEnable (c : Channel) (k : Sched) (s : State) : (setSched c k s).sampleTickEnable = s.sampleTickEnable := rfl
@[simp] theorem setSched_secTickEnable (c : Channel) (k : Sched) (s : State) : (setSched c k s).secTickEnable = s.secTickEnable := rfl
@[simp] theorem setSched_port (c : Channel) (k : Sched) (s : State) : (setSched c k s).port = s.port := rfl
@[simp] theorem setSched_portTrace (c : Channel) (k : Sched) (s : State) : (setSched c k s).portTrace = s.portTrace := rfl
@[simp] theorem setSched_rxQueue (c : Channel) (k : Sched) (s : State) : (setSched c k s).rxQueue = s.rxQueue := rfl
@[simp] theorem setSched_txStream (c : Channel) (k : Sched) (s : State) : (setSched c k s).txStream = s.txStream := rfl
@[simp] theorem setSched_busRequests (c : Channel) (k : Sched) (s : State) : (setSched c k s).busRequests = s.busRequests := rfl
@[simp] theorem setSched_passPos (c : Channel) (k : Sched) (s : State) : (setSched c k s).passPos = s.passPos := rfl
@[simp] theorem setSched_moves (c : Channel) (k : Sched) (s : State) : (setSched c k s).moves = s.moves := rfl
@[simp] theorem setSched_busAnswers (c : Channel) (k : Sched) (s : State) : (setSched c k s).busAnswers = s.busAnswers := rfl
@[simp] theorem setSched_draws (c : Channel) (k : Sched) (s : State) : (setSched c k s).draws = s.draws := rfl

@[simp] theorem setCmdLen_params (n : Nat) (s : State) : (setCmdLen n s).params = s.params := rfl
@[simp] theorem setCmdLen_desc (n : Nat) (s : State) : (setCmdLen n s).desc = s.desc := rfl
@[simp] theorem setCmdLen_sched (n : Nat) (s : State) : (setCmdLen n s).sched = s.sched := rfl
@[simp] theorem setCmdLen_scaled (n : Nat) (s : State) : (setCmdLen n s).scaled = s.scaled := rfl
@[simp] theorem setCmdLen_mode (n : Nat) (s : State) : (setCmdLen n s).mode = s.mode := rfl
@[simp] theorem setCmdLen_tfInt (n : Nat) (s : State) : (setCmdLen n s).tfInt = s.tfInt := rfl
@[simp] theorem setCmdLen_tfFloat (n : Nat) (s : State) : (setCmdLen n s).tfFloat = s.tfFloat := rfl
@[simp] theorem setCmdLen_tickRateSel (n : Nat) (s : State) : (setCmdLen n s).tickRateSel = s.tickRateSel := rfl
@[simp] theorem setCmdLen_tempReportEnable (n : Nat) (s : State) : (setCmdLen n s).tempReportEnable = s.tempReportEnable := rfl
@[simp] theorem setCmdLen_cmdBuf (n : Nat) (s : State) : (setCmdLen n s).cmdBuf = s.cmdBuf := rfl
@[simp] theorem setCmdLen_cmdLen (n : Nat) (s : State) : (setCmdLen n s).cmdLen = n := rfl
@[simp] theorem setCmdLen_errPending (n : Nat) (s : State) : (setCmdLen n s).errPending = s.errPending := rfl
@[simp] theorem setCmdLen_ackPending (n : Nat) (s : State) : (setCmdLen n s).ackPending = s.ackPending := rfl
@[simp] theorem setCmdLen_resumePending (n : Nat) (s : State) : (setCmdLen n s).resumePending = s.resumePending := rfl
@[simp] theorem setCmdLen_oneSecondFlag (n : Nat) (s : State) : (setCmdLen n s).oneSecondFlag = s.oneSecondFlag := rfl
@[simp] theorem setCmdLen_sampleTickEnable (n : Nat) (s : State) : (setCmdLen n s).sampleTickEnable = s.sampleTickEnable := rfl
@[simp] theorem setCmdLen_secTickEnable (n : Nat) (s : State) : (setCmdLen n s).secTickEnable = s.secTickEnable := rfl
@[simp] theorem setCmdLen_port (n : Nat) (s : State) : (setCmdLen n s).port = s.port := rfl
@[simp] theorem setCmdLen_portTrace (n : Nat) (s : State) : (setCmdLen n s).portTrace = s.portTrace := rfl
@[simp] theorem setCmdLen_rxQueue (n : Nat) (s : State) : (setCmdLen n s).rxQueue = s.rxQueue := rfl
@[simp] theorem setCmdLen_txStream (n : Nat) (s : State) : (setCmdLen n s).txStream = s.txStream := rfl
@[simp] theorem setCmdLen_busRequests (n : Nat) (s : State) : (setCmdLen n s).busRequests = s.busRequests := rfl
@[simp] theorem setCmdLen_passPos (n : Nat) (s : State) : (setCmdLen n s).passPos = s.passPos := rfl
@[simp] theorem setCmdLen_moves (n : Nat) (s : State) : (setCmdLen n s).moves = s.moves := rfl
@[simp] theorem setCmdLen_busAnswers (n : Nat) (s : State) : (setCmdLen n s).busAnswers = s.busAnswers := rfl
@[simp] theorem setCmdLen_draws (n : Nat) (s : State) : (setCmdLen n s).draws = s.draws := rfl

@[simp] theorem clearCmdBuffer_params (s : State) : (clearCmdBuffer s).params = s.params := rfl
@[simp] theorem clearCmdBuffer_desc (s : State) : (clearCmdBuffer s).desc = s.desc := rfl
@[simp] theorem clearCmdBuffer_sched (s : State) : (clearCmdBuffer s).sched = s.sched := rfl
@[simp] theorem clearCmdBuffer_scaled (s : State) : (clearCmdBuffer s).scaled = s.scaled := rfl
@[simp] theorem clearCmdBuffer_mode (s : State) : (clearCmdBuffer s).mode = s.mode := rfl
@[simp] theorem clearCmdBuffer_tfInt (s : State) : (clearCmdBuffer s).tfInt = s.tfInt := rfl
@[simp] theorem clearCmdBuffer_tfFloat (s : State) : (clearCmdBuffer s).tfFloat = s.tfFloat := rfl
@[simp] theorem clearCmdBuffer_tickRateSel (s : State) : (clearCmdBuffer s).tickRateSel = s.tickRateSel := rfl
@[simp] theorem clearCmdBuffer_tempReportEnable (s : State) : (clearCmdBuffer s).tempReportEnable = s.tempReportEnable := rfl
@[simp] theorem clearCmdBuffer_cmdBuf (s : State) : (clearCmdBuffer s).cmdBuf = s.cmdBuf := rfl
@[simp] theorem clearCmdBuffer_cmdLen (s : State) : (clearCmdBuffer s).cmdLen = 0 := rfl
@[simp] theorem clearCmdBuffer_errPending (s : State) : (clearCmdBuffer s).errPending = s.errPending := rfl
@[simp] theorem clearCmdBuffer_ackPending (s : State) : (clearCmdBuffer s).ackPending = s.ackPending := rfl
@[simp] theorem clearCmdBuffer_resumePending (s : State) : (clearCmdBuffer s).resumePending = s.resumePending := rfl
@[simp] theorem clearCmdBuffer_oneSecondFlag (s : State) : (clearCmdBuffer s).oneSecondFlag = s.oneSecondFlag := rfl
@[simp] theorem clearCmdBuffer_sampleTickEnable (s : State) : (clearCmdBuffer s).sampleTickEnable = s.sampleTickEnable := rfl
@[simp] theorem clearCmdBuffer_secTickEnable (s : State) : (clearCmdBuffer s).secTickEnable = s.secTickEnable := rfl
@[simp] theorem clearCmdBuffer_port (s : State) : (clearCmdBuffer s).port = s.port := rfl
@[simp] theorem clearCmdBuffer_portTrace (s : State) : (clearCmdBuffer s).portTrace = s.portTrace := rfl
@[simp] theorem clearCmdBuffer_rxQueue (s : State) : (clearCmdBuffer s).rxQueue = s.rxQueue := rfl
@[simp] theorem clearCmdBuffer_txStream (s : State) : (clearCmdBuffer s).txStream = s.txStream := rfl
@[simp] theorem clearCmdBuffer_busRequests (s : State) : (clearCmdBuffer s).busRequests = s.busRequests := rfl
@[simp] theorem clearCmdBuffer_passPos (s : State) : (clearCmdBuffer s).passPos = s.passPos := rfl
@[simp] theorem clearCmdBuffer_moves (s : State) : (clearCmdBuffer s).moves = s.moves := rfl
@[simp] theorem clearCmdBuffer_busAnswers (s : State) : (clearCmdBuffer s).busAnswers = s.busAnswers := rfl
@[simp] theorem clearCmdBuffer_draws (s : State) : (clearCmdBuffer s).draws = s.draws := rfl

@[simp] theorem emit_params (bytes : List Byte) (s : State) : (emit bytes s).params = s.params := rfl
@[simp] theorem emit_desc (bytes : List Byte) (s : State) : (emit bytes s).desc = s.desc := rfl
@[simp] theorem emit_sched (bytes : List Byte) (s : State) : (emit bytes s).sched = s.sched := rfl
@[simp] theorem emit_scaled (bytes : List Byte) (s : State) : (emit bytes s).scaled = s.scaled := rfl
@[simp] theorem emit_mode (bytes : List Byte) (s : State) : (emit bytes s).mode = s.mode := rfl
@[simp] theorem emit_tfInt (bytes : List Byte) (s : State) : (emit bytes s).tfInt = s.tfInt := rfl
@[simp] theorem emit_tfFloat (bytes : List Byte) (s : State) : (emit bytes s).tfFloat = s.tfFloat := rfl
@[simp] theorem emit_tickRateSel (bytes : List Byte) (s : State) : (emit bytes s).tickRateSel = s.tickRateSel := rfl
@[simp] theorem emit_tempReportEnable (bytes : List Byte) (s : State) : (emit bytes s).tempReportEnable = s.tempReportEnable := rfl
@[simp] theorem emit_cmdBuf (bytes : List Byte) (s : State) : (emit bytes s).cmdBuf = s.cmdBuf := rfl
@[simp] theorem emit_cmdLen (bytes : List Byte) (s : State) : (emit bytes s).cmdLen = s.cmdLen := rfl
@[simp] theorem emit_errPending (bytes : List Byte) (s : State) : (emit bytes s).errPending = s.errPending := rfl
@[simp] theorem emit_ackPending (bytes : List Byte) (s : State) : (emit bytes s).ackPending = s.ackPending := rfl
@[simp] theorem emit_resumePending (bytes : List Byte) (s : State) : (emit bytes s).resumePending = s.resumePending := rfl
@[simp] theorem emit_oneSecondFlag (bytes : List Byte) (s : State) : (emit bytes s).oneSecondFlag = s.oneSecondFlag := rfl
@[simp] theorem emit_sampleTickEnable (bytes : List Byte) (s : State) : (emit bytes s).sampleTickEnable = s.sampleTickEnable := rfl
@[simp] theorem emit_secTickEnable (bytes : List Byte) (s : State) : (emit bytes s).secTickEnable = s.secTickEnable := rfl
@[simp] theorem emit_port (bytes : List Byte) (s : State) : (emit bytes s).port = s.port := rfl
@[simp] theorem emit_portTrace (bytes : List Byte) (s : State) : (emit bytes s).portTrace = s.portTrace := rfl
@[simp] theorem emit_rxQueue (bytes : List Byte) (s : State) : (emit bytes s).rxQueue = s.rxQueue := rfl
@[simp] theorem emit_txStream (bytes : List Byte) (s : State) : (emit bytes s).txStream = s.txStream ++ bytes := rfl
@[simp] theorem emit_busRequests (bytes : List Byte) (s : State) : (emit bytes s).busRequests = s.busRequests := rfl
@[simp] theorem emit_passPos (bytes : List Byte) (s : State) : (emit bytes s).passPos = s.passPos := rfl
@[simp] theorem emit_moves (bytes : List Byte) (s : State) : (emit bytes s).moves = s.moves := rfl
@[simp] theorem emit_busAnswers (bytes : List Byte) (s : State) : (emit bytes s).busAnswers = s.busAnswers := rfl
@[simp] theorem emit_draws (bytes : List Byte) (s : State) : (emit bytes s).draws = s.draws := rfl

@[simp] theorem setRxQueue_params (q : List Byte) (s : State) : (setRxQueue q s).params = s.params := rfl
@[simp] theorem setRxQueue_desc (q : List Byte) (s : State) : (setRxQueue q s).desc = s.desc := rfl
@[simp] theorem setRxQueue_sched (q : List Byte) (s : State) : (setRxQueue q s).sched = s.sched := rfl
@[simp] theorem setRxQueue_scaled (q : List Byte) (s : State) : (setRxQueue q s).scaled = s.scaled := rfl
@[simp] theorem setRxQueue_mode (q : List Byte) (s : State) : (setRxQueue q s).mode = s.mode := rfl
@[simp] theorem setRxQueue_tfInt (q : List Byte) (s : State) : (setRxQueue q s).tfInt = s.tfInt := rfl
@[simp] theorem setRxQueue_tfFloat (q : List Byte) (s : State) : (setRxQueue q s).tfFloat = s.tfFloat := rfl
@[simp] theorem setRxQueue_tickRateSel (q : List Byte) (s : State) : (setRxQueue q s).tickRateSel = s.tickRateSel := rfl
@[simp] theorem setRxQueue_tempReportEnable (q : List Byte) (s : State) : (setRxQueue q s).tempReportEnable = s.tempReportEnable := rfl
@[simp] theorem setRxQueue_cmdBuf (q : List Byte) (s : State) : (setRxQueue q s).cmdBuf = s.cmdBuf := rfl
@[simp] theorem setRxQueue_cmdLen (q : List Byte) (s : State) : (setRxQueue q s).cmdLen = s.cmdLen := rfl
@[simp] theorem setRxQueue_errPending (q : List Byte) (s : State) : (setRxQueue q s).errPending = s.errPending := rfl
@[simp] theorem setRxQueue_ackPending (q : List Byte) (s : State) : (setRxQueue q s).ackPending = s.ackPending := rfl
@[simp] theorem setRxQueue_resumePending (q : List Byte) (s : State) : (setRxQueue q s).resumePending = s.resumePending := rfl
@[simp] theorem setRxQueue_oneSecondFlag (q : List Byte) (s : State) : (setRxQueue q s).oneSecondFlag = s.oneSecondFlag := rfl
@[simp] theorem setRxQueue_sampleTickEnable (q : List Byte) (s : State) : (setRxQueue q s).sampleTickEnable = s.sampleTickEnable := rfl
@[simp] theorem setRxQueue_secTickEnable (q : List Byte) (s : State) : (setRxQueue q s).secTickEnable = s.secTickEnable := rfl
@[simp] theorem setRxQueue_port (q : List Byte) (s : State) : (setRxQueue q s).port = s.port := rfl
@[simp] theorem setRxQueue_portTrace (q : List Byte) (s : State) : (setRxQueue q s).portTrace = s.portTrace := rfl
@[simp] theorem setRxQueue_rxQueue (q : List Byte) (s : State) : (setRxQueue q s).rxQueue = q := rfl
@[simp] theorem setRxQueue_txStream (q : List Byte) (s : State) : (setRxQueue q s).txStream = s.txStream := rfl
@[simp] theorem setRxQueue_busRequests (q : List Byte) (s : State) : (setRxQueue q s).busRequests = s.busRequests := rfl
@[simp] theorem setRxQueue_passPos (q : List Byte) (s : State) : (setRxQueue q s).passPos = s.passPos := rfl
@[simp] theorem setRxQueue_moves (q : List Byte) (s : State) : (setRxQueue q s).moves = s.moves := rfl
@[simp] theorem setRxQueue_busAnswers (q : List Byte) (s : State) : (setRxQueue q s).busAnswers = s.busAnswers := rfl
@[simp] theorem setRxQueue_draws (q : List Byte) (s : State) : (setRxQueue q s).draws = s.draws := rfl

@[simp] theorem commitPort_params (p : PortImage) (s : State) : (commitPort p s).params = s.params := rfl
@[simp] theorem commitPort_desc (p : PortImage) (s : State) : (commitPort p s).desc = s.desc := rfl
@[simp] theorem commitPort_sched (p : PortImage) (s : State) : (commitPort p s).sched = s.sched := rfl
@[simp] theorem commitPort_scaled (p : PortImage) (s : State) : (commitPort p s).scaled = s.scaled := rfl
@[simp] theorem commitPort_mode (p : PortImage) (s : State) : (commitPort p s).mode = s.mode := rfl
@[simp] theorem commitPort_tfInt (p : PortImage) (s : State) : (commitPort p s).tfInt = s.tfInt := rfl
@[simp] theorem commitPort_tfFloat (p : PortImage) (s : State) : (commitPort p s).tfFloat = s.tfFloat := rfl
@[simp] theorem commitPort_tickRateSel (p : PortImage) (s : State) : (commitPort p s).tickRateSel = s.tickRateSel := rfl
@[simp] theorem commitPort_tempReportEnable (p : PortImage) (s : State) : (commitPort p s).tempReportEnable = s.tempReportEnable := rfl
@[simp] theorem commitPort_cmdBuf (p : PortImage) (s : State) : (commitPort p s).cmdBuf = s.cmdBuf := rfl
@[simp] theorem commitPort_cmdLen (p : PortImage) (s : State) : (commitPort p s).cmdLen = s.cmdLen := rfl
@[simp] theorem commitPort_errPending (p : PortImage) (s : State) : (commitPort p s).errPending = s.errPending := rfl
@[simp] theorem commitPort_ackPending (p : PortImage) (s : State) : (commitPort p s).ackPending = s.ackPending := rfl
@[simp] theorem commitPort_resumePending (p : PortImage) (s : State) : (commitPort p s).resumePending = s.resumePending := rfl
@[simp] theorem commitPort_oneSecondFlag (p : PortImage) (s : State) : (commitPort p s).oneSecondFlag = s.oneSecondFlag := rfl
@[simp] theorem commitPort_sampleTickEnable (p : PortImage) (s : State) : (commitPort p s).sampleTickEnable = s.sampleTickEnable := rfl
@[simp] theorem commitPort_secTickEnable (p : PortImage) (s : State) : (commitPort p s).secTickEnable = s.secTickEnable := rfl
@[simp] theorem commitPort_port (p : PortImage) (s : State) : (commitPort p s).port = p := rfl
@[simp] theorem commitPort_portTrace (p : PortImage) (s : State) : (commitPort p s).portTrace = s.portTrace ++ [p] := rfl
@[simp] theorem commitPort_rxQueue (p : PortImage) (s : State) : (commitPort p s).rxQueue = s.rxQueue := rfl
@[simp] theorem commitPort_txStream (p : PortImage) (s : State) : (commitPort p s).txStream = s.txStream := rfl
@[simp] theorem commitPort_busRequests (p : PortImage) (s : State) : (commitPort p s).busRequests = s.busRequests := rfl
@[simp] theorem commitPort_passPos (p : PortImage) (s : State) : (commitPort p s).passPos = s.passPos := rfl
@[simp] theorem commitPort_moves (p : PortImage) (s : State) : (commitPort p s).moves = s.moves := rfl
@[simp] theorem commitPort_busAnswers (p : PortImage) (s : State) : (commitPort p s).busAnswers = s.busAnswers := rfl
@[simp] theorem commitPort_draws (p : PortImage) (s : State) : (commitPort p s).draws = s.draws := rfl

@[simp] theorem raiseFormatError_params (s : State) : (raiseFormatError s).params = s.params := rfl
@[simp] theorem raiseFormatError_desc (s : State) : (raiseFormatError s).desc = s.desc := rfl
@[simp] theorem raiseFormatError_sched (s : State) : (raiseFormatError s).sched = s.sched := rfl
@[simp] theorem raiseFormatError_scaled (s : State) : (raiseFormatError s).scaled = s.scaled := rfl
@[simp] theorem raiseFormatError_mode (s : State) : (raiseFormatError s).mode = s.mode := rfl
@[simp] theorem raiseFormatError_tfInt (s : State) : (raiseFormatError s).tfInt = s.tfInt := rfl
@[simp] theorem raiseFormatError_tfFloat (s : State) : (raiseFormatError s).tfFloat = s.tfFloat := rfl
@[simp] theorem raiseFormatError_tickRateSel (s : State) : (raiseFormatError s).tickRateSel = s.tickRateSel := rfl
@[simp] theorem raiseFormatError_tempReportEnable (s : State) : (raiseFormatError s).tempReportEnable = s.tempReportEnable := rfl
@[simp] theorem raiseFormatError_cmdBuf (s : State) : (raiseFormatError s).cmdBuf = s.cmdBuf := rfl
@[simp] theorem raiseFormatError_cmdLen (s : State) : (raiseFormatError s).cmdLen = 0 := rfl
@[simp] theorem raiseFormatError_errPending (s : State) : (raiseFormatError s).errPending = true := rfl
@[simp] theorem raiseFormatError_ackPending (s : State) : (raiseFormatError s).ackPending = s.ackPending := rfl
@[simp] theorem raiseFormatError_resumePending (s : State) : (raiseFormatError s).resumePending = s.resumePending := rfl
@[simp] theorem raiseFormatError_oneSecondFlag (s : State) : (raiseFormatError s).oneSecondFlag = s.oneSecondFlag := rfl
@[simp] theorem raiseFormatError_sampleTickEnable (s : State) : (raiseFormatError s).sampleTickEnable = s.sampleTickEnable := rfl
@[simp] theorem raiseFormatError_secTickEnable (s : State) : (raiseFormatError s).secTickEnable = s.secTickEnable := rfl
@[simp] theorem raiseFormatError_port (s : State) : (raiseFormatError s).port = s.port := rfl
@[simp] theorem raiseFormatError_portTrace (s : State) : (raiseFormatError s).portTrace = s.portTrace := rfl
@[simp] theorem raiseFormatError_rxQueue (s : State) : (raiseFormatError s).rxQueue = s.rxQueue := rfl
@[simp] theorem raiseFormatError_txStream (s : State) : (raiseFormatError s).txStream = s.txStream := rfl
@[simp] theorem raiseFormatError_busRequests (s : State) : (raiseFormatError s).busRequests = s.busRequests := rfl
@[simp] theorem raiseFormatError_passPos (s : State) : (raiseFormatError s).passPos = s.passPos := rfl
@[simp] theorem raiseFormatError_moves (s : State) : (raiseFormatError s).moves = s.moves := rfl
@[simp] theorem raiseFormatError_busAnswers (s : State) : (raiseFormatError s).busAnswers = s.busAnswers := rfl
@[simp] theorem raiseFormatError_draws (s : State) : (raiseFormatError s).draws = s.draws := rfl

@[simp] theorem recoverFormatError_params (s : State) : (recoverFormatError s).params = s.params := rfl
@[simp] theorem recoverFormatError_desc (s : State) : (recoverFormatError s).desc = s.desc := rfl
@[simp] theorem recoverFormatError_sched (s : State) : (recoverFormatError s).sched = s.sched := rfl
@[simp] theorem recoverFormatError_scaled (s : State) : (recoverFormatError s).scaled = s.scaled := rfl
@[simp] theorem recoverFormatError_mode (s : State) : (recoverFormatError s).mode = s.mode := rfl
@[simp] theorem recoverFormatError_tfInt (s : State) : (recoverFormatError s).tfInt = s.tfInt := rfl
@[simp] theorem recoverFormatError_tfFloat (s : State) : (recoverFormatError s).tfFloat = s.tfFloat := rfl
@[simp] theorem recoverFormatError_tickRateSel (s : State) : (recoverFormatError s).tickRateSel = s.tickRateSel := rfl
@[simp] theorem recoverFormatError_tempReportEnable (s : State) : (recoverFormatError s).tempReportEnable = s.tempReportEnable := rfl
@[simp] theorem recoverFormatError_cmdBuf (s : State) : (recoverFormatError s).cmdBuf = s.cmdBuf := rfl
@[simp] theorem recoverFormatError_cmdLen (s : State) : (recoverFormatError s).cmdLen = 0 := rfl
@[simp] theorem recoverFormatError_errPending (s : State) : (recoverFormatError s).errPending = false := rfl
@[simp] theorem recoverFormatError_ackPending (s : State) : (recoverFormatError s).ackPending = s.ackPending := rfl
@[simp] theorem recoverFormatError_resumePending (s : State) : (recoverFormatError s).resumePending = s.resumePending := rfl
@[simp] theorem recoverFormatError_oneSecondFlag (s : State) : (recoverFormatError s).oneSecondFlag = s.oneSecondFlag := rfl
@[simp] theorem recoverFormatError_sampleTickEnable (s : State) : (recoverFormatError s).sampleTickEnable = s.sampleTickEnable := rfl
@[simp] theorem recoverFormatError_secTickEnable (s : State) : (recoverFormatError s).secTickEnable = s.secTickEnable := rfl
@[simp] theorem recoverFormatError_port (s : State) : (recoverFormatError s).port = s.port := rfl
@[simp] theorem recoverFormatError_portTrace (s : State) : (recoverFormatError s).portTrace = s.portTrace := rfl
@[simp] theorem recoverFormatError_rxQueue (s : State) : (recoverFormatError s).rxQueue = s.rxQueue := rfl
@[simp] theorem recoverFormatError_txStream (s : State) : (recoverFormatError s).txStream = s.txStream ++ errReply := rfl
@[simp] theorem recoverFormatError_busRequests (s : State) : (recoverFormatError s).busRequests = s.busRequests := rfl
@[simp] theorem recoverFormatError_passPos (s : State) : (recoverFormatError s).passPos = s.passPos := rfl
@[simp] theorem recoverFormatError_moves (s : State) : (recoverFormatError s).moves = s.moves := rfl
@[simp] theorem recoverFormatError_busAnswers (s : State) : (recoverFormatError s).busAnswers = s.busAnswers := rfl
@[simp] theorem recoverFormatError_draws (s : State) : (recoverFormatError s).draws = s.draws := rfl

@[simp] theorem busRequest_params (r : BusRequest) (s : State) : (busRequest r s).params = s.params := rfl
@[simp] theorem busRequest_desc (r : BusRequest) (s : State) : (busRequest r s).desc = s.desc := rfl
@[simp] theorem busRequest_sched (r : BusRequest) (s : State) : (busRequest r s).sched = s.sched := rfl
@[simp] theorem busRequest_scaled (r : BusRequest) (s : State) : (busRequest r s).scaled = s.scaled := rfl
@[simp] theorem busRequest_mode (r : BusRequest) (s : State) : (busRequest r s).mode = s.mode := rfl
@[simp] theorem busRequest_tfInt (r : BusRequest) (s : State) : (busRequest r s).tfInt = s.tfInt := rfl
@[simp] theorem busRequest_tfFloat (r : BusRequest) (s : State) : (busRequest r s).tfFloat = s.tfFloat := rfl
@[simp] theorem busRequest_tickRateSel (r : BusRequest) (s : State) : (busRequest r s).tickRateSel = s.tickRateSel := rfl
@[simp] theorem busRequest_tempReportEnable (r : BusRequest) (s : State) : (busRequest r s).tempReportEnable = s.tempReportEnable := rfl
@[simp] theorem busRequest_cmdBuf (r : BusRequest) (s : State) : (busRequest r s).cmdBuf = s.cmdBuf := rfl
@[simp] theorem busRequest_cmdLen (r : BusRequest) (s : State) : (busRequest r s).cmdLen = s.cmdLen := rfl
@[simp] theorem busRequest_errPending (r : BusRequest) (s : State) : (busRequest r s).errPending = s.errPending := rfl
@[simp] theorem busRequest_ackPending (r : BusRequest) (s : State) : (busRequest r s).ackPending = s.ackPending := rfl
@[simp] theorem busRequest_resumePending (r : BusRequest) (s : State) : (busRequest r s).resumePending = s.resumePending := rfl
@[simp] theorem busRequest_oneSecondFlag (r : BusRequest) (s : State) : (busRequest r s).oneSecondFlag = s.oneSecondFlag := rfl
@[simp] theorem busRequest_sampleTickEnable (r : BusRequest) (s : State) : (busRequest r s).sampleTickEnable = s.sampleTickEnable := rfl
@[simp] theorem busRequest_secTickEnable (r : BusRequest) (s : State) : (busRequest r s).secTickEnable = s.secTickEnable := rfl
@[simp] theorem busRequest_port (r : BusRequest) (s : State) : (busRequest r s).port = s.port := rfl
@[simp] theorem busRequest_portTrace (r : BusRequest) (s : State) : (busRequest r s).portTrace = s.portTrace := rfl
@[simp] theorem busRequest_rxQueue (r : BusRequest) (s : State) : (busRequest r s).rxQueue = s.rxQueue := rfl
@[simp] theorem busRequest_txStream (r : BusRequest) (s : State) : (busRequest r s).txStream = s.txStream := rfl
@[simp] theorem busRequest_busRequests (r : BusRequest) (s : State) : (busRequest r s).busRequests = s.busRequests ++ [r] := rfl
@[simp] theorem busRequest_passPos (r : BusRequest) (s : State) : (busRequest r s).passPos = s.passPos := rfl
@[simp] theorem busRequest_moves (r : BusRequest) (s : State) : (busRequest r s).moves = s.moves := rfl
@[simp] theorem busRequest_busAnswers (r : BusRequest) (s : State) : (busRequest r s).busAnswers = s.busAnswers := rfl
@[simp] theorem busRequest_draws (r : BusRequest) (s : State) : (busRequest r s).draws = s.draws := rfl

@[simp] theorem drawn_params (n : Nat) (s : State) : (drawn n s).params = s.params := rfl
@[simp] theorem drawn_desc (n : Nat) (s : State) : (drawn n s).desc = s.desc := rfl
@[simp] theorem drawn_sched (n : Nat) (s : State) : (drawn n s).sched = s.sched := rfl
@[simp] theorem drawn_scaled (n : Nat) (s : State) : (drawn n s).scaled = s.scaled := rfl
@[simp] theorem drawn_mode (n : Nat) (s : State) : (drawn n s).mode = s.mode := rfl
@[simp] theorem drawn_tfInt (n : Nat) (s : State) : (drawn n s).tfInt = s.tfInt := rfl
@[simp] theorem drawn_tfFloat (n : Nat) (s : State) : (drawn n s).tfFloat = s.tfFloat := rfl
@[simp] theorem drawn_tickRateSel (n : Nat) (s : State) : (drawn n s).tickRateSel = s.tickRateSel := rfl
@[simp] theorem drawn_tempReportEnable (n : Nat) (s : State) : (drawn n s).tempReportEnable = s.tempReportEnable := rfl
@[simp] theorem drawn_cmdBuf (n : Nat) (s : State) : (drawn n s).cmdBuf = s.cmdBuf := rfl
@[simp] theorem drawn_cmdLen (n : Nat) (s : State) : (drawn n s).cmdLen = s.cmdLen := rfl
@[simp] theorem drawn_errPending (n : Nat) (s : State) : (drawn n s).errPending = s.errPending := rfl
@[simp] theorem drawn_ackPending (n : Nat) (s : State) : (drawn n s).ackPending = s.ackPending := rfl
@[simp] theorem drawn_resumePending (n : Nat) (s : State) : (drawn n s).resumePending = s.resumePending := rfl
@[simp] theorem drawn_oneSecondFlag (n : Nat) (s : State) : (drawn n s).oneSecondFlag = s.oneSecondFlag := rfl
@[simp] theorem drawn_sampleTickEnable (n : Nat) (s : State) : (drawn n s).sampleTickEnable = s.sampleTickEnable := rfl
@[simp] theorem drawn_secTickEnable (n : Nat) (s : State) : (drawn n s).secTickEnable = s.secTickEnable := rfl
@[simp] theorem drawn_port (n : Nat) (s : State) : (drawn n s).port = s.port := rfl
@[simp] theorem drawn_portTrace (n : Nat) (s : State) : (drawn n s).portTrace = s.portTrace := rfl
@[simp] theorem drawn_rxQueue (n : Nat) (s : State) : (drawn n s).rxQueue = s.rxQueue := rfl
@[simp] theorem drawn_txStream (n : Nat) (s : State) : (drawn n s).txStream = s.txStream := rfl
@[simp] theorem drawn_busRequests (n : Nat) (s : State) : (drawn n s).busRequests = s.busRequests := rfl
@[simp] theorem drawn_passPos (n : Nat) (s : State) : (drawn n s).passPos = s.passPos := rfl
@[simp] theorem drawn_moves (n : Nat) (s : State) : (drawn n s).moves = s.moves := rfl
@[simp] theorem drawn_busAnswers (n : Nat) (s : State) : (drawn n s).busAnswers = s.busAnswers := rfl
@[simp] theorem drawn_draws (n : Nat) (s : State) : (drawn n s).draws = s.draws + n := rfl

@[simp] theorem advancePass_params (s : State) : (advancePass s).params = s.params := rfl
@[simp] theorem advancePass_desc (s : State) : (advancePass s).desc = s.desc := rfl
@[simp] theorem advancePass_sched (s : State) : (advancePass s).sched = s.sched := rfl
@[simp] theorem advancePass_scaled (s : State) : (advancePass s).scaled = s.scaled := rfl
@[simp] theorem advancePass_mode (s : State) : (advancePass s).mode = s.mode := rfl
@[simp] theorem advancePass_tfInt (s : State) : (advancePass s).tfInt = s.tfInt := rfl
@[simp] theorem advancePass_tfFloat (s : State) : (advancePass s).tfFloat = s.tfFloat := rfl
@[simp] theorem advancePass_tickRateSel (s : State) : (advancePass s).tickRateSel = s.tickRateSel := rfl
@[simp] theorem advancePass_tempReportEnable (s : State) : (advancePass s).tempReportEnable = s.tempReportEnable := rfl
@[simp] theorem advancePass_cmdBuf (s : State) : (advancePass s).cmdBuf = s.cmdBuf := rfl
@[simp] theorem advancePass_cmdLen (s : State) : (advancePass s).cmdLen = s.cmdLen := rfl
@[simp] theorem advancePass_errPending (s : State) : (advancePass s).errPending = s.errPending := rfl
@[simp] theorem advancePass_ackPending (s : State) : (advancePass s).ackPending = s.ackPending := rfl
@[simp] theorem advancePass_resumePending (s : State) : (advancePass s).resumePending = s.resumePending := rfl
@[simp] theorem advancePass_oneSecondFlag (s : State) : (advancePass s).oneSecondFlag = s.oneSecondFlag := rfl
@[simp] theorem advancePass_sampleTickEnable (s : State) : (advancePass s).sampleTickEnable = s.sampleTickEnable := rfl
@[simp] theorem advancePass_secTickEnable (s : State) : (advancePass s).secTickEnable = s.secTickEnable := rfl
@[simp] theorem advancePass_port (s : State) : (advancePass s).port = s.port := rfl
@[simp] theorem advancePass_portTrace (s : State) : (advancePass s).portTrace = s.portTrace := rfl
@[simp] theorem advancePass_rxQueue (s : State) : (advancePass s).rxQueue = s.rxQueue := rfl
@[simp] theorem advancePass_txStream (s : State) : (advancePass s).txStream = s.txStream := rfl
@[simp] theorem advancePass_busRequests (s : State) : (advancePass s).busRequests = s.busRequests := rfl
@[simp] theorem advancePass_passPos (s : State) : (advancePass s).passPos = s.passPos.next := rfl
@[simp] theorem advancePass_moves (s : State) : (advancePass s).moves = s.moves := rfl
@[simp] theorem advancePass_busAnswers (s : State) : (advancePass s).busAnswers = s.busAnswers := rfl
@[simp] theorem advancePass_draws (s : State) : (advancePass s).draws = s.draws := rfl

@[simp] theorem setGsHigh_params (v : BitVec 4) (s : State) : (setGsHigh v s).params = s.params := rfl
@[simp] theorem setGsHigh_desc (v : BitVec 4) (s : State) : (setGsHigh v s).desc = s.desc := rfl
@[simp] theorem setGsHigh_sched (v : BitVec 4) (s : State) : (setGsHigh v s).sched = s.sched := rfl
@[simp] theorem setGsHigh_scaled (v : BitVec 4) (s : State) : (setGsHigh v s).scaled = s.scaled := rfl
@[simp] theorem setGsHigh_mode (v : BitVec 4) (s : State) : (setGsHigh v s).mode = s.mode := rfl
@[simp] theorem setGsHigh_tfInt (v : BitVec 4) (s : State) : (setGsHigh v s).tfInt = s.tfInt := rfl
@[simp] theorem setGsHigh_tfFloat (v : BitVec 4) (s : State) : (setGsHigh v s).tfFloat = s.tfFloat := rfl
@[simp] theorem setGsHigh_tickRateSel (v : BitVec 4) (s : State) : (setGsHigh v s).tickRateSel = s.tickRateSel := rfl
@[simp] theorem setGsHigh_tempReportEnable (v : BitVec 4) (s : State) : (setGsHigh v s).tempReportEnable = s.tempReportEnable := rfl
@[simp] theorem setGsHigh_cmdBuf (v : BitVec 4) (s : State) : (setGsHigh v s).cmdBuf = s.cmdBuf := rfl
@[simp] theorem setGsHigh_cmdLen (v : BitVec 4) (s : State) : (setGsHigh v s).cmdLen = s.cmdLen := rfl
@[simp] theorem setGsHigh_errPending (v : BitVec 4) (s : State) : (setGsHigh v s).errPending = s.errPending := rfl
@[simp] theorem setGsHigh_ackPending (v : BitVec 4) (s : State) : (setGsHigh v s).ackPending = s.ackPending := rfl
@[simp] theorem setGsHigh_resumePending (v : BitVec 4) (s : State) : (setGsHigh v s).resumePending = s.resumePending := rfl
@[simp] theorem setGsHigh_oneSecondFlag (v : BitVec 4) (s : State) : (setGsHigh v s).oneSecondFlag = s.oneSecondFlag := rfl
@[simp] theorem setGsHigh_sampleTickEnable (v : BitVec 4) (s : State) : (setGsHigh v s).sampleTickEnable = s.sampleTickEnable := rfl
@[simp] theorem setGsHigh_secTickEnable (v : BitVec 4) (s : State) : (setGsHigh v s).secTickEnable = s.secTickEnable := rfl
@[simp] theorem setGsHigh_port (v : BitVec 4) (s : State) : (setGsHigh v s).port = { s.port with gs := v ++ s.port.gs.extractLsb' 0 4 } := rfl
@[simp] theorem setGsHigh_portTrace (v : BitVec 4) (s : State) : (setGsHigh v s).portTrace = s.portTrace := rfl
@[simp] theorem setGsHigh_rxQueue (v : BitVec 4) (s : State) : (setGsHigh v s).rxQueue = s.rxQueue := rfl
@[simp] theorem setGsHigh_txStream (v : BitVec 4) (s : State) : (setGsHigh v s).txStream = s.txStream := rfl
@[simp] theorem setGsHigh_busRequests (v : BitVec 4) (s : State) : (setGsHigh v s).busRequests = s.busRequests := rfl
@[simp] theorem setGsHigh_passPos (v : BitVec 4) (s : State) : (setGsHigh v s).passPos = s.passPos := rfl
@[simp] theorem setGsHigh_moves (v : BitVec 4) (s : State) : (setGsHigh v s).moves = s.moves := rfl
@[simp] theorem setGsHigh_busAnswers (v : BitVec 4) (s : State) : (setGsHigh v s).busAnswers = s.busAnswers := rfl
@[simp] theorem setGsHigh_draws (v : BitVec 4) (s : State) : (setGsHigh v s).draws = s.draws := rfl

@[simp] theorem loadBody_params (body : List Byte) (s : State) : (loadBody body s).params = s.params := rfl
@[simp] theorem loadBody_desc (body : List Byte) (s : State) : (loadBody body s).desc = s.desc := rfl
@[simp] theorem loadBody_sched (body : List Byte) (s : State) : (loadBody body s).sched = s.sched := rfl
@[simp] theorem loadBody_scaled (body : List Byte) (s : State) : (loadBody body s).scaled = s.scaled := rfl
@[simp] theorem loadBody_mode (body : List Byte) (s : State) : (loadBody body s).mode = s.mode := rfl
@[simp] theorem loadBody_tfInt (body : List Byte) (s : State) : (loadBody body s).tfInt = s.tfInt := rfl
@[simp] theorem loadBody_tfFloat (body : List Byte) (s : State) : (loadBody body s).tfFloat = s.tfFloat := rfl
@[simp] theorem loadBody_tickRateSel (body : List Byte) (s : State) : (loadBody body s).tickRateSel = s.tickRateSel := rfl
@[simp] theorem loadBody_tempReportEnable (body : List Byte) (s : State) : (loadBody body s).tempReportEnable = s.tempReportEnable := rfl
@[simp] theorem loadBody_cmdBuf (body : List Byte) (s : State) : (loadBody body s).cmdBuf = Memory.writeFrom s.cmdBuf 0 body := rfl
@[simp] theorem loadBody_cmdLen (body : List Byte) (s : State) : (loadBody body s).cmdLen = body.length := rfl
@[simp] theorem loadBody_errPending (body : List Byte) (s : State) : (loadBody body s).errPending = s.errPending := rfl
@[simp] theorem loadBody_ackPending (body : List Byte) (s : State) : (loadBody body s).ackPending = s.ackPending := rfl
@[simp] theorem loadBody_resumePending (body : List Byte) (s : State) : (loadBody body s).resumePending = s.resumePending := rfl
@[simp] theorem loadBody_oneSecondFlag (body : List Byte) (s : State) : (loadBody body s).oneSecondFlag = s.oneSecondFlag := rfl
@[simp] theorem loadBody_sampleTickEnable (body : List Byte) (s : State) : (loadBody body s).sampleTickEnable = s.sampleTickEnable := rfl
@[simp] theorem loadBody_secTickEnable (body : List Byte) (s : State) : (loadBody body s).secTickEnable = s.secTickEnable := rfl
@[simp] theorem loadBody_port (body : List Byte) (s : State) : (loadBody body s).port = s.port := rfl
@[simp] theorem loadBody_portTrace (body : List Byte) (s : State) : (loadBody body s).portTrace = s.portTrace := rfl
@[simp] theorem loadBody_rxQueue (body : List Byte) (s : State) : (loadBody body s).rxQueue = terminator :: s.rxQueue := rfl
@[simp] theorem loadBody_txStream (body : List Byte) (s : State) : (loadBody body s).txStream = s.txStream := rfl
@[simp] theorem loadBody_busRequests (body : List Byte) (s : State) : (loadBody body s).busRequests = s.busRequests := rfl
@[simp] theorem loadBody_passPos (body : List Byte) (s : State) : (loadBody body s).passPos = .rx := rfl
@[simp] theorem loadBody_moves (body : List Byte) (s : State) : (loadBody body s).moves = .main :: s.moves := rfl
@[simp] theorem loadBody_busAnswers (body : List Byte) (s : State) : (loadBody body s).busAnswers = s.busAnswers := rfl
@[simp] theorem loadBody_draws (body : List Byte) (s : State) : (loadBody body s).draws = s.draws := rfl

@[simp] theorem takeAnswer_params (s : State) : (takeAnswer s).params = s.params := by unfold takeAnswer; split <;> rfl
@[simp] theorem takeAnswer_desc (s : State) : (takeAnswer s).desc = s.desc := by unfold takeAnswer; split <;> rfl
@[simp] theorem takeAnswer_sched (s : State) : (takeAnswer s).sched = s.sched := by unfold takeAnswer; split <;> rfl
@[simp] theorem takeAnswer_scaled (s : State) : (takeAnswer s).scaled = s.scaled := by unfold takeAnswer; split <;> rfl
@[simp] theorem takeAnswer_mode (s : State) : (takeAnswer s).mode = s.mode := by unfold takeAnswer; split <;> rfl
@[simp] theorem takeAnswer_tfInt (s : State) : (takeAnswer s).tfInt = s.tfInt := by unfold takeAnswer; split <;> rfl
@[simp] theorem takeAnswer_tfFloat (s : State) : (takeAnswer s).tfFloat = s.tfFloat := by unfold takeAnswer; split <;> rfl
@[simp] theorem takeAnswer_tickRateSel (s : State) : (takeAnswer s).tickRateSel = s.tickRateSel := by unfold takeAnswer; split <;> rfl
@[simp] theorem takeAnswer_tempReportEnable (s : State) : (takeAnswer s).tempReportEnable = s.tempReportEnable := by unfold takeAnswer; split <;> rfl
@[simp] theorem takeAnswer_cmdBuf (s : State) : (takeAnswer s).cmdBuf = s.cmdBuf := by unfold takeAnswer; split <;> rfl
@[simp] theorem takeAnswer_cmdLen (s : State) : (takeAnswer s).cmdLen = s.cmdLen := by unfold takeAnswer; split <;> rfl
@[simp] theorem takeAnswer_errPending (s : State) : (takeAnswer s).errPending = s.errPending := by unfold takeAnswer; split <;> rfl
@[simp] theorem takeAnswer_ackPending (s : State) : (takeAnswer s).ackPending = s.ackPending := by unfold takeAnswer; split <;> rfl
@[simp] theorem takeAnswer_resumePending (s : State) : (takeAnswer s).resumePending = s.resumePending := by unfold takeAnswer; split <;> rfl
@[simp] theorem takeAnswer_oneSecondFlag (s : State) : (takeAnswer s).oneSecondFlag = s.oneSecondFlag := by unfold takeAnswer; split <;> rfl
@[simp] theorem takeAnswer_sampleTickEnable (s : State) : (takeAnswer s).sampleTickEnable = s.sampleTickEnable := by unfold takeAnswer; split <;> rfl
@[simp] theorem takeAnswer_secTickEnable (s : State) : (takeAnswer s).secTickEnable = s.secTickEnable := by unfold takeAnswer; split <;> rfl
@[simp] theorem takeAnswer_port (s : State) : (takeAnswer s).port = s.port := by unfold takeAnswer; split <;> rfl
@[simp] theorem takeAnswer_portTrace (s : State) : (takeAnswer s).portTrace = s.portTrace := by unfold takeAnswer; split <;> rfl
@[simp] theorem takeAnswer_rxQueue (s : State) : (takeAnswer s).rxQueue = s.rxQueue := by unfold takeAnswer; split <;> rfl
@[simp] theorem takeAnswer_txStream (s : State) : (takeAnswer s).txStream = s.txStream := by unfold takeAnswer; split <;> rfl
@[simp] theorem takeAnswer_busRequests (s : State) : (takeAnswer s).busRequests = s.busRequests := by unfold takeAnswer; split <;> rfl
@[simp] theorem takeAnswer_passPos (s : State) : (takeAnswer s).passPos = s.passPos := by unfold takeAnswer; split <;> rfl
@[simp] theorem takeAnswer_moves (s : State) : (takeAnswer s).moves = s.moves := by unfold takeAnswer; split <;> rfl

@[simp] theorem takeMove_params (s : State) : (takeMove s).params = s.params := by unfold takeMove; split <;> rfl
@[simp] theorem takeMove_desc (s : State) : (takeMove s).desc = s.desc := by unfold takeMove; split <;> rfl
@[simp] theorem takeMove_sched (s : State) : (takeMove s).sched = s.sched := by unfold takeMove; split <;> rfl
@[simp] theorem takeMove_scaled (s : State) : (takeMove s).scaled = s.scaled := by unfold takeMove; split <;> rfl
@[simp] theorem takeMove_mode (s : State) : (takeMove s).mode = s.mode := by unfold takeMove; split <;> rfl
@[simp] theorem takeMove_tfInt (s : State) : (takeMove s).tfInt = s.tfInt := by unfold takeMove; split <;> rfl
@[simp] theorem takeMove_tfFloat (s : State) : (takeMove s).tfFloat = s.tfFloat := by unfold takeMove; split <;> rfl
@[simp] theorem takeMove_tickRateSel (s : State) : (takeMove s).tickRateSel = s.tickRateSel := by unfold takeMove; split <;> rfl
@[simp] theorem takeMove_tempReportEnable (s : State) : (takeMove s).tempReportEnable = s.tempReportEnable := by unfold takeMove; split <;> rfl
@[simp] theorem takeMove_cmdBuf (s : State) : (takeMove s).cmdBuf = s.cmdBuf := by unfold takeMove; split <;> rfl
@[simp] theorem takeMove_cmdLen (s : State) : (takeMove s).cmdLen = s.cmdLen := by unfold takeMove; split <;> rfl
@[simp] theorem takeMove_errPending (s : State) : (takeMove s).errPending = s.errPending := by unfold takeMove; split <;> rfl
@[simp] theorem takeMove_ackPending (s : State) : (takeMove s).ackPending = s.ackPending := by unfold takeMove; split <;> rfl
@[simp] theorem takeMove_resumePending (s : State) : (takeMove s).resumePending = s.resumePending := by unfold takeMove; split <;> rfl
@[simp] theorem takeMove_oneSecondFlag (s : State) : (takeMove s).oneSecondFlag = s.oneSecondFlag := by unfold takeMove; split <;> rfl
@[simp] theorem takeMove_sampleTickEnable (s : State) : (takeMove s).sampleTickEnable = s.sampleTickEnable := by unfold takeMove; split <;> rfl
@[simp] theorem takeMove_secTickEnable (s : State) : (takeMove s).secTickEnable = s.secTickEnable := by unfold takeMove; split <;> rfl
@[simp] theorem takeMove_port (s : State) : (takeMove s).port = s.port := by unfold takeMove; split <;> rfl
@[simp] theorem takeMove_portTrace (s : State) : (takeMove s).portTrace = s.portTrace := by unfold takeMove; split <;> rfl
@[simp] theorem takeMove_rxQueue (s : State) : (takeMove s).rxQueue = s.rxQueue := by unfold takeMove; split <;> rfl
@[simp] theorem takeMove_txStream (s : State) : (takeMove s).txStream = s.txStream := by unfold takeMove; split <;> rfl
@[simp] theorem takeMove_busRequests (s : State) : (takeMove s).busRequests = s.busRequests := by unfold takeMove; split <;> rfl
@[simp] theorem takeMove_passPos (s : State) : (takeMove s).passPos = s.passPos := by unfold takeMove; split <;> rfl
@[simp] theorem takeMove_busAnswers (s : State) : (takeMove s).busAnswers = s.busAnswers := by unfold takeMove; split <;> rfl

end Sys2Proof.Machine
end

