-- ==== Sys2Proof/Laws/Bus.lean ====
section
/-! SUPPORT. Everything the bus primitives and `POLL` can do. -/

namespace Sys2Proof.Machine

/-- The state of `s` but for what a bus transfer writes. -/
def BusFrame (s t : State) : Prop :=
  t = { s with busRequests := t.busRequests, busAnswers := t.busAnswers, draws := t.draws }

theorem BusFrame.refl (s : State) : BusFrame s s := rfl

theorem BusFrame.trans {s t u : State} (h1 : BusFrame s t) (h2 : BusFrame t u) : BusFrame s u := by
  unfold BusFrame at *
  rw [h2, h1]

theorem takeAnswer_frame (s : State) : BusFrame s (takeAnswer s) := by
  unfold BusFrame takeAnswer
  split <;> rfl

/-- A primitive hands its request over, takes one answer, and changes nothing else (R232). -/
theorem busPrim_frame (r : BusRequest) (s : State) : BusFrame s (busPrim r s).2 :=
  BusFrame.trans (t := busRequest r s) rfl (takeAnswer_frame _)

theorem busPrim_requests (r : BusRequest) (s : State) :
    (busPrim r s).2.busRequests = s.busRequests ++ [r] := by simp [busPrim]

/-- The requests the nine primitives of `POLL` hand over (R242). -/
def pollRequests (p : Params) : List BusRequest :=
  [.start, .control .write p.sensorAddr, .send p.cmdOneShot,
   .start, .control .write p.sensorAddr, .send p.cmdRegSel,
   .start, .control .read p.sensorAddr, .receive true]

theorem pollSequence_eq (p : Params) : pollSequence p = (pollRequests p).map busPrim := rfl

/-- Running primitives in order: an initial part of the requests is handed over, all of them if every result
is `Ok`, and nothing but the bus is touched (R242, R243). -/
theorem runPrims_spec (rs : List BusRequest) (last : Byte) (s : State) :
    ∃ k, k ≤ rs.length ∧ (rs ≠ [] → 1 ≤ k) ∧
      (runPrims last (rs.map busPrim) s).2.busRequests = s.busRequests ++ rs.take k ∧
      BusFrame s (runPrims last (rs.map busPrim) s).2 ∧
      (∀ v, (runPrims last (rs.map busPrim) s).1 = .ok v → k = rs.length) := by
  induction rs generalizing last s with
  | nil => exact ⟨0, Nat.le_refl _, by simp, by simp [runPrims], BusFrame.refl s, by simp⟩
  | cons r rest ih =>
    rw [List.map_cons, runPrims]
    split
    · rename_i data hok
      obtain ⟨k, h1, -, h3, h4, h5⟩ := ih data (busPrim r s).2
      refine ⟨k + 1, by simp only [List.length_cons]; omega, fun _ => by omega, ?_, (busPrim_frame r s).trans h4, ?_⟩
      · rw [h3, busPrim_requests]
        simp
      · intro v hv
        rw [h5 v hv]
        rfl
    · exact ⟨1, by simp, fun _ => Nat.le_refl _, by simp [busPrim_requests], busPrim_frame r s, by simp⟩
    · exact ⟨1, by simp, fun _ => Nat.le_refl _, by simp [busPrim_requests], busPrim_frame r s, by simp⟩

/-- A report appends three bytes, the last a newline, and may draw; nothing else (R244). -/
theorem report_cases (v : Byte) (s : State) :
    ∃ d1 d0, (report v s).txStream = s.txStream ++ [d1, d0, 0x0A] ∧
      report v s = { s with txStream := (report v s).txStream, draws := (report v s).draws } := by
  unfold report
  split
  · exact ⟨_, _, rfl, rfl⟩
  · exact ⟨_, _, rfl, rfl⟩

/-- Everything `POLL` can do (R242, R243, R244). -/
theorem poll_cases (s : State) :
    ∃ k, 1 ≤ k ∧ k ≤ 9 ∧ (poll s).busRequests = s.busRequests ++ (pollRequests s.params).take k ∧
      ((poll s).txStream = s.txStream ∨
        (k = 9 ∧ ∃ d1 d0, (poll s).txStream = s.txStream ++ [d1, d0, 0x0A])) ∧
      poll s = { s with
        busRequests := (poll s).busRequests
        txStream := (poll s).txStream
        busAnswers := (poll s).busAnswers
        draws := (poll s).draws } := by
  obtain ⟨k, h1, h2, h3, h4, h5⟩ := runPrims_spec (pollRequests s.params) 0 s
  rw [← pollSequence_eq] at h3 h4 h5
  have htx : (runPrims 0 (pollSequence s.params) s).2.txStream = s.txStream := by rw [h4]
  refine ⟨k, h2 (by simp [pollRequests]), h1, ?_⟩
  unfold poll
  split
  · rename_i v hv
    obtain ⟨d1, d0, ht, hf⟩ := report_cases v (runPrims 0 (pollSequence s.params) s).2
    refine ⟨?_, .inr ⟨h5 v hv, d1, d0, ?_⟩, ?_⟩
    · rw [hf]
      exact h3
    · rw [ht, htx]
    · rw [hf]
      generalize (report v (runPrims 0 (pollSequence s.params) s).2).txStream = tx
      generalize (report v (runPrims 0 (pollSequence s.params) s).2).draws = dr
      rw [h4]
  · refine ⟨h3, .inl htx, ?_⟩
    rw [htx]
    exact h4
  · refine ⟨h3, .inl htx, ?_⟩
    rw [htx]
    exact h4

/-- Everything `SEC_PASS` can do (R241). -/
theorem secPass_cases (s : State) :
    (s.oneSecondFlag = false ∧ secPass s = s) ∨
    (s.oneSecondFlag = true ∧ s.tempReportEnable = false ∧ secPass s = setOneSecond false s) ∨
    (s.oneSecondFlag = true ∧ s.tempReportEnable = true ∧ secPass s = poll (setOneSecond false s)) := by
  unfold secPass
  cases s.oneSecondFlag <;> cases s.tempReportEnable <;> simp

end Sys2Proof.Machine
end

