-- ==== Sys2Proof/Laws/Channel.lean ====
section
/-! SUPPORT. Reading and replacing one channel's element of a two-channel pair. -/

namespace Sys2Proof

@[simp] theorem PerChannel.get_set_same {α : Type} (p : PerChannel α) (c : Channel) (a : α) :
    (p.set c a).get c = a := by cases c <;> rfl

theorem PerChannel.get_set_other {α : Type} (p : PerChannel α) {c d : Channel} (a : α) (h : d ≠ c) :
    (p.set c a).get d = p.get d := by
  cases c <;> cases d <;> first | rfl | exact absurd rfl h

@[simp] theorem PerChannel.get_set_one_two {α : Type} (p : PerChannel α) (a : α) :
    (p.set .one a).get .two = p.get .two := rfl

@[simp] theorem PerChannel.get_set_two_one {α : Type} (p : PerChannel α) (a : α) :
    (p.set .two a).get .one = p.get .one := rfl

@[simp] theorem PerChannel.set_set {α : Type} (p : PerChannel α) (c : Channel) (a b : α) :
    (p.set c a).set c b = p.set c b := by cases c <;> rfl

/-- A pair is its two elements. -/
theorem PerChannel.ext_get {α : Type} {p q : PerChannel α} (h : ∀ c, p.get c = q.get c) : p = q := by
  obtain ⟨p1, p2⟩ := p
  obtain ⟨q1, q2⟩ := q
  have h1 := h .one
  have h2 := h .two
  simp only [PerChannel.get] at h1 h2
  rw [h1, h2]

end Sys2Proof
end

