-- ==== Sys2Proof/Laws/Memory.lean ====
section
/-! SUPPORT. The laws of a byte-wide memory: read after write, the canonical form kept by every operation, and
what `tabulate`, `writeFrom` and `readFrom` read as. -/

namespace Sys2Proof

@[simp] theorem Memory.read_nil (a : Nat) : Memory.read [] a = Memory.fill := rfl

/-- An address below every listed one reads as an unlisted address. -/
theorem Memory.read_of_below (m : Memory) (a : Nat) (h : ∀ c ∈ m, a < c.1) : m.read a = Memory.fill := by
  induction m with
  | nil => rfl
  | cons c rest ih =>
    have hc := h c (by simp)
    have hne : a ≠ c.1 := by omega
    rw [Memory.read, if_neg hne]
    exact ih fun d hd => h d (by simp [hd])

theorem Memory.wf_tail {c : Host.Cell} {m : Memory} (h : Memory.wf (c :: m)) : m.wf :=
  ⟨(List.pairwise_cons.1 h.1).2, fun d hd => h.2 d (by simp [hd])⟩

theorem Memory.wf_head_lt {c : Host.Cell} {m : Memory} (h : Memory.wf (c :: m)) : ∀ d ∈ m, c.1 < d.1 :=
  (List.pairwise_cons.1 h.1).1

/-- A write lists no address but the written one and those listed before. -/
theorem Memory.mem_write {m : Memory} {a : Nat} {v : Byte} {c : Host.Cell} (h : c ∈ m.write a v) :
    c = (a, v) ∨ c ∈ m := by
  induction m with
  | nil =>
    rw [Memory.write] at h
    split at h <;> simp_all
  | cons d rest ih =>
    rw [Memory.write] at h
    split at h
    · split at h
      · exact .inr h
      · simpa using h
    · split at h
      · split at h
        · exact .inr (by simp [h])
        · rcases List.mem_cons.1 h with h | h
          · exact .inl h
          · exact .inr (by simp [h])
      · rcases List.mem_cons.1 h with h | h
        · exact .inr (by simp [h])
        · rcases ih h with h | h
          · exact .inl h
          · exact .inr (by simp [h])

/-- A write keeps the canonical form. -/
theorem Memory.write_wf {m : Memory} (h : m.wf) (a : Nat) (v : Byte) : (m.write a v).wf := by
  induction m with
  | nil =>
    rw [Memory.write]
    split <;> simp_all [Memory.wf]
  | cons d rest ih =>
    have ht := Memory.wf_tail h
    have hlt := Memory.wf_head_lt h
    have hd := h.2 d (by simp)
    rw [Memory.write]
    split
    · rename_i hak
      split
      · exact h
      · rename_i hv
        refine ⟨List.pairwise_cons.2 ⟨?_, h.1⟩, ?_⟩
        · intro e he
          rcases List.mem_cons.1 he with rfl | he
          · exact hak
          · exact Nat.lt_trans hak (hlt e he)
        · intro e he
          rcases List.mem_cons.1 he with rfl | he
          · exact hv
          · exact h.2 e he
    · rename_i hnlt
      split
      · rename_i hak
        split
        · exact ht
        · rename_i hv
          refine ⟨List.pairwise_cons.2 ⟨fun e he => ?_, ht.1⟩, ?_⟩
          · exact hak ▸ hlt e he
          · intro e he
            rcases List.mem_cons.1 he with rfl | he
            · exact hv
            · exact ht.2 e he
      · rename_i hne
        refine ⟨List.pairwise_cons.2 ⟨?_, (ih ht).1⟩, ?_⟩
        · intro e he
          rcases Memory.mem_write he with rfl | he
          · show d.1 < a
            have h1 : ¬ a < d.1 := hnlt
            have h2 : ¬ a = d.1 := hne
            omega
          · exact hlt e he
        · intro e he
          rcases List.mem_cons.1 he with rfl | he
          · exact hd
          · exact (ih ht).2 e he

/-- A write at an address of the space keeps the memory within the space. -/
theorem Memory.write_inSpace {m : Memory} {n a : Nat} (h : m.inSpace n) (ha : a < n) (v : Byte) :
    (m.write a v).inSpace n := by
  intro c hc
  rcases Memory.mem_write hc with rfl | hc
  · exact ha
  · exact h c hc

/-- Reading any address after a write: the value written, or what was there. -/
theorem Memory.read_write {m : Memory} (h : m.wf) (a : Nat) (v : Byte) (b : Nat) :
    (m.write a v).read b = if b = a then v else m.read b := by
  induction m with
  | nil =>
    rw [Memory.write]
    split <;> simp_all [Memory.read]
  | cons d rest ih =>
    have ht := Memory.wf_tail h
    have hlt := Memory.wf_head_lt h
    rw [Memory.write]
    split
    · rename_i hak
      split
      · rename_i hv
        split
        · rename_i hb
          subst hb
          rw [hv]
          refine Memory.read_of_below _ _ fun c hc => ?_
          rcases List.mem_cons.1 hc with rfl | hc
          · exact hak
          · exact Nat.lt_trans hak (hlt c hc)
        · rfl
      · rfl
    · rename_i hnlt
      split
      · rename_i hak
        split
        · rename_i hv
          split
          · rename_i hb
            rw [hv]
            exact Memory.read_of_below _ _ fun c hc => by have := hlt c hc; omega
          · rename_i hb
            have hne : b ≠ d.1 := by omega
            rw [Memory.read, if_neg hne]
        · split
          · rename_i hb
            rw [Memory.read, if_pos hb]
          · rename_i hb
            have hne : b ≠ d.1 := by omega
            rw [Memory.read, if_neg hb, Memory.read, if_neg hne]
      · rename_i hne
        rw [Memory.read, ih ht]
        by_cases hb : b = d.1
        · have : b ≠ a := by omega
          rw [if_pos hb, if_neg this, Memory.read, if_pos hb]
        · rw [if_neg hb, Memory.read, if_neg hb]

/-- Read after write, same address. -/
theorem Memory.read_write_same {m : Memory} (h : m.wf) (a : Nat) (v : Byte) : (m.write a v).read a = v := by
  rw [Memory.read_write h, if_pos rfl]

/-- Read after write, another address. -/
theorem Memory.read_write_other {m : Memory} (h : m.wf) {a b : Nat} (v : Byte) (hb : b ≠ a) :
    (m.write a v).read b = m.read b := by
  rw [Memory.read_write h, if_neg hb]

/-- The cells `tabulate` lists, for any rising list of addresses. -/
theorem Memory.filterMap_cellOf_wf (f : Nat → Byte) (l : List Nat) (h : l.Pairwise (· < ·)) :
    Memory.wf (l.filterMap (Memory.cellOf f)) := by
  refine ⟨List.Pairwise.filterMap _ ?_ h, ?_⟩
  · intro a b hab c hc d hd
    simp only [Memory.cellOf] at hc hd
    split at hc <;> split at hd <;> simp_all
    subst hc hd
    exact hab
  · intro c hc
    obtain ⟨i, -, hi⟩ := List.mem_filterMap.1 hc
    simp only [Memory.cellOf] at hi
    split at hi <;> simp_all
    subst hi
    assumption

/-- `tabulate` is canonical. -/
theorem Memory.tabulate_wf (n : Nat) (f : Nat → Byte) : (Memory.tabulate n f).wf :=
  Memory.filterMap_cellOf_wf f _ List.pairwise_lt_range

/-- `tabulate` stays within its space. -/
theorem Memory.tabulate_inSpace (n : Nat) (f : Nat → Byte) : (Memory.tabulate n f).inSpace n := by
  intro c hc
  obtain ⟨i, hi, hci⟩ := List.mem_filterMap.1 hc
  simp only [Memory.cellOf] at hci
  split at hci <;> simp_all
  subst hci
  exact hi

theorem Memory.read_filterMap_cellOf (f : Nat → Byte) (l : List Nat) (a : Nat) :
    Memory.read (l.filterMap (Memory.cellOf f)) a = if a ∈ l then f a else Memory.fill := by
  induction l with
  | nil => rfl
  | cons i rest ih =>
    by_cases hf : f i = Memory.fill
    · have : Memory.cellOf f i = none := by simp [Memory.cellOf, hf]
      rw [List.filterMap_cons_none this, ih]
      by_cases ha : a = i
      · subst ha; simp [hf]
      · simp [ha]
    · have : Memory.cellOf f i = some (i, f i) := by simp [Memory.cellOf, hf]
      rw [List.filterMap_cons_some this, Memory.read, ih]
      by_cases ha : a = i
      · subst ha; simp
      · simp [ha]

/-- What `tabulate` reads as. -/
theorem Memory.read_tabulate (n : Nat) (f : Nat → Byte) (a : Nat) :
    (Memory.tabulate n f).read a = if a < n then f a else Memory.fill := by
  simp [Memory.tabulate, Memory.read_filterMap_cellOf]

theorem Memory.writeFrom_wf {m : Memory} (h : m.wf) (bs : List Byte) (a : Nat) :
    (Memory.writeFrom m a bs).wf := by
  induction bs generalizing m a with
  | nil => exact h
  | cons b rest ih => exact ih (Memory.write_wf h a b) (a + 1)

/-- What consecutive writes read as. -/
theorem Memory.read_writeFrom {m : Memory} (h : m.wf) (bs : List Byte) (a i : Nat) :
    (Memory.writeFrom m a bs).read i = if a ≤ i ∧ i < a + bs.length then bs.getD (i - a) 0 else m.read i := by
  induction bs generalizing m a with
  | nil =>
    have : ¬ (a ≤ i ∧ i < a + ([] : List Byte).length) := by simp
    rw [if_neg this]
    rfl
  | cons b rest ih =>
    rw [Memory.writeFrom, ih (Memory.write_wf h a b), Memory.read_write h]
    by_cases h1 : a + 1 ≤ i ∧ i < a + 1 + rest.length
    · have h2 : a ≤ i ∧ i < a + (b :: rest).length := by simp only [List.length_cons]; omega
      have h3 : i - a = i - (a + 1) + 1 := by omega
      rw [if_pos h1, if_pos h2, h3, List.getD_cons_succ]
    · rw [if_neg h1]
      by_cases h2 : i = a
      · have h3 : a ≤ i ∧ i < a + (b :: rest).length := by simp only [List.length_cons]; omega
        rw [if_pos h2, if_pos h3, h2, Nat.sub_self, List.getD_cons_zero]
      · have h3 : ¬ (a ≤ i ∧ i < a + (b :: rest).length) := by simp only [List.length_cons]; omega
        rw [if_neg h2, if_neg h3]

theorem Memory.length_readFrom (m : Memory) (a n : Nat) : (m.readFrom a n).length = n := by
  induction n generalizing a with
  | zero => rfl
  | succ n ih => simp [Memory.readFrom, ih]

/-- `readFrom` depends on the bytes it reads alone. -/
theorem Memory.readFrom_congr {m m' : Memory} {a n : Nat} (h : ∀ i, a ≤ i → i < a + n → m.read i = m'.read i) :
    m.readFrom a n = m'.readFrom a n := by
  induction n generalizing a with
  | zero => rfl
  | succ n ih =>
    rw [Memory.readFrom, Memory.readFrom, h a (Nat.le_refl a) (by omega)]
    rw [ih fun i h1 h2 => h i (by omega) (by omega)]

/-- One more byte at the end. -/
theorem Memory.readFrom_succ (m : Memory) (a n : Nat) :
    m.readFrom a (n + 1) = m.readFrom a n ++ [m.read (a + n)] := by
  induction n generalizing a with
  | zero => rfl
  | succ n ih =>
    rw [Memory.readFrom, ih (a + 1), Memory.readFrom]
    have : a + 1 + n = a + (n + 1) := by omega
    rw [this]
    rfl

/-- Reading back what consecutive writes stored. -/
theorem Memory.readFrom_writeFrom {m : Memory} (h : m.wf) (bs : List Byte) (a : Nat) :
    (Memory.writeFrom m a bs).readFrom a bs.length = bs := by
  induction bs generalizing m a with
  | nil => rfl
  | cons b rest ih =>
    have hw := Memory.write_wf h a b
    have hhead : (Memory.writeFrom m a (b :: rest)).read a = b := by
      rw [Memory.read_writeFrom h]; simp
    rw [List.length_cons, Memory.readFrom, hhead, Memory.writeFrom, ih hw]

/-- Writing a body within the space keeps the memory within it. -/
theorem Memory.writeFrom_inSpace {m : Memory} {n : Nat} (h : m.inSpace n) (bs : List Byte) (a : Nat)
    (ha : a + bs.length ≤ n) : (Memory.writeFrom m a bs).inSpace n := by
  induction bs generalizing m a with
  | nil => exact h
  | cons b rest ih =>
    simp only [List.length_cons] at ha
    exact ih (Memory.write_inSpace h (by omega) b) (a + 1) (by omega)

end Sys2Proof
end

