-- ==== Sys2Proof/Laws/Config.lean ====
section
/-! SUPPORT. The open parameters the machine is built with satisfy the constraints of R8, whatever they are. -/

namespace Sys2Proof

theorem Config.inRange_bounds {lo hi : Rat} (h : lo ≤ hi) (x : Rat) :
    lo ≤ Config.inRange lo hi x ∧ Config.inRange lo hi x ≤ hi := by
  unfold Config.inRange
  split
  · exact ⟨le_refl _, h⟩
  · split
    · exact ⟨h, le_refl _⟩
    · rename_i h1 h2
      exact ⟨not_lt.1 h1, not_lt.1 h2⟩

/-- A legal value is left as it is, so every legal value is possible. -/
theorem Config.inRange_of_mem {lo hi x : Rat} (h1 : lo ≤ x) (h2 : x ≤ hi) : Config.inRange lo hi x = x := by
  rw [Config.inRange, if_neg (not_lt.2 h1), if_neg (not_lt.2 h2)]

theorem Config.resetDesc_legal (c : Channel) : (Config.resetDesc c).Legal := by
  have ha := Config.inRange_bounds (lo := 0) (hi := 10) (by norm_num) (Config.resetAmplitude c)
  have ho := Config.inRange_bounds (lo := -10) (hi := 10) (by norm_num) (Config.resetOffset c)
  refine ⟨ha.1, ha.2, ho.1, ho.2, ?_, ?_⟩
  · exact Nat.le_add_left 1 _
  · exact (Config.resetFrequencyPred c).isLt

theorem Config.baseMemory_wf (s : Shape) : (Config.baseMemory s).wf ∧ (Config.baseMemory s).inSpace tableLen :=
  ⟨Memory.tabulate_wf _ _, Memory.tabulate_inSpace _ _⟩

/-- R8 holds of the parameters. -/
theorem Config.params_legal : Config.params.Legal where
  base_wf s := by cases s <;> exact Config.baseMemory_wf _
  tInt_pos m := by cases m <;> exact (Config.tInt _).pos
  tFloat_pos m := by
    cases m <;>
      exact div_pos (Nat.cast_pos.2 (Config.tFloatNum _).pos) (Nat.cast_pos.2 (Config.tFloatDen _).pos)
  budget_pos := Config.busBudget.pos
  resetDesc_legal c := by cases c <;> exact Config.resetDesc_legal _

end Sys2Proof
end

