-- ==== Sys2Proof/Laws/Decode.lean ====
section
/-! SUPPORT. What the readers of the decoder do: each undoes the spelling of its part of a telegram body
(R93, R94, R96), and each accepted spelling is the one spelling of what it reads. -/

namespace Sys2Proof

theorem readDigit_digitByte (d : Digit) : readDigit (digitByte d) = some d := by
  revert d; decide

theorem digitByte_of_readDigit {b : Byte} {d : Digit} (h : readDigit b = some d) : digitByte d = b := by
  revert b d; decide

theorem digitByte_ne_minus (d : Digit) : digitByte d ≠ minusByte := by
  revert d; decide

theorem digitByte_ne_terminator (d : Digit) : digitByte d ≠ terminator := by
  revert d; decide

/-- `takeDigits` splits a string into spelled digits and the rest. -/
theorem takeDigits_split (bs : List Byte) : (takeDigits bs).1.map digitByte ++ (takeDigits bs).2 = bs := by
  induction bs with
  | nil => rfl
  | cons b rest ih =>
    rw [takeDigits]
    split
    · rfl
    · rename_i d h
      simp [digitByte_of_readDigit h, ih]

/-- Spelled digits in front are all taken. -/
theorem takeDigits_spelled (ds : List Digit) (rest : List Byte) :
    takeDigits (ds.map digitByte ++ rest) = (ds ++ (takeDigits rest).1, (takeDigits rest).2) := by
  induction ds with
  | nil => rfl
  | cons d ds ih => simp [takeDigits, readDigit_digitByte, ih]

/-- `readFraction` undoes the spelling of a fraction part. -/
theorem readFraction_spelled (f : Option (List Digit)) :
    readFraction (fractionBytes f) = some f := by
  cases f with
  | none => rfl
  | some ds =>
    have h : takeDigits (ds.map digitByte) = (ds, []) := by simpa [takeDigits] using takeDigits_spelled ds []
    simp [readFraction, fractionBytes, h]

/-- A fraction part that reads has one spelling. -/
theorem readFraction_sound {bs : List Byte} {f : Option (List Digit)} (h : readFraction bs = some f) :
    (fractionBytes f) = bs := by
  cases bs with
  | nil => cases h; rfl
  | cons b rest =>
    rw [readFraction] at h
    split at h
    · rename_i hb
      have hs := takeDigits_split rest
      split at h
      · rename_i ds he
        cases h
        rw [he] at hs
        simpa [hb, fractionBytes] using hs
      · cases h
    · cases h

/-- The fraction part spelled holds no digit in front. -/
theorem takeDigits_fraction (f : Option (List Digit)) :
    takeDigits (fractionBytes f) =
      ([], fractionBytes f) := by
  cases f with
  | none => rfl
  | some ds =>
    have : readDigit pointByte = none := by decide
    simp [fractionBytes, takeDigits, this]

/-- Reading the spelling of a literal gives it back (R96). -/
theorem readLiteral_bytes {v : Literal} (h : v.int ≠ []) : readLiteral v.bytes = some v := by
  obtain ⟨neg, int, f⟩ := v
  cases int with
  | nil => exact absurd rfl h
  | cons d ds =>
    have hu : ∀ n, readUnsigned n ((d :: ds).map digitByte ++
        (fractionBytes f)) = some ⟨n, d :: ds, f⟩ := by
      intro n
      rw [readUnsigned, takeDigits_spelled, takeDigits_fraction]
      simp [readFraction_spelled]
    cases neg
    · have := hu false
      simp only [List.map_cons, List.cons_append] at this
      simp [Literal.bytes, readLiteral, digitByte_ne_minus, this]
    · have := hu true
      simp only [List.map_cons, List.cons_append] at this
      simp [Literal.bytes, readLiteral, this]

/-- A string that reads as a literal is the spelling of it, with at least one integer digit (R96). -/
theorem readLiteral_sound {bs : List Byte} {v : Literal} (h : readLiteral bs = some v) :
    v.bytes = bs ∧ v.int ≠ [] := by
  have hu : ∀ n bs, readUnsigned n bs = some v →
      (if n then [minusByte] else []) ++ bs = v.bytes ∧ v.int ≠ [] := by
    intro n bs h
    rw [readUnsigned] at h
    have hs := takeDigits_split bs
    split at h
    · cases h
    · rename_i d ds rest he
      split at h
      · cases h
      · rename_i f hf
        cases h
        have hr := readFraction_sound hf
        rw [he] at hs
        refine ⟨?_, by simp⟩
        rw [← hs]
        simp [Literal.bytes, ← hr]
  cases bs with
  | nil => cases h
  | cons b rest =>
    rw [readLiteral] at h
    split at h
    · rename_i hb
      have := hu true rest h
      exact ⟨by simpa [hb] using this.1.symm, this.2⟩
    · have := hu false (b :: rest) h
      exact ⟨by simpa using this.1.symm, this.2⟩

/-- The bytes of a literal number its width (R96). -/
theorem Literal.bytes_length (v : Literal) : v.bytes.length = v.width := by
  obtain ⟨neg, int, f⟩ := v
  cases neg <;> cases f <;> simp [Literal.bytes, fractionBytes, Literal.width, Nat.add_comm, Nat.add_assoc, Nat.add_left_comm]

/-- No byte of a literal is a terminator (R96). -/
theorem Literal.bytes_ne_terminator (v : Literal) : ∀ b ∈ v.bytes, b ≠ terminator := by
  obtain ⟨neg, int, f⟩ := v
  have hm : minusByte ≠ terminator := by decide
  have hp : pointByte ≠ terminator := by decide
  intro b hb
  simp only [Literal.bytes, List.mem_append] at hb
  rcases hb with (hb | hb) | hb
  · cases neg <;> simp at hb
    exact hb ▸ hm
  · obtain ⟨d, -, rfl⟩ := List.mem_map.1 hb
    exact digitByte_ne_terminator d
  · cases f with
    | none => simp [fractionBytes] at hb
    | some ds =>
      rcases List.mem_cons.1 hb with rfl | hb
      · exact hp
      · obtain ⟨d, -, rfl⟩ := List.mem_map.1 hb
        exact digitByte_ne_terminator d

theorem readOpcode_bytes (op : Opcode) : ∃ b0 b1, op.bytes = [b0, b1] ∧ readOpcode b0 b1 = some op := by
  cases op <;> exact ⟨_, _, rfl, by decide⟩

theorem readOpcode_sound {b0 b1 : Byte} {op : Opcode} (h : readOpcode b0 b1 = some op) : op.bytes = [b0, b1] := by
  unfold readOpcode at h
  split at h
  · cases h; exact Eq.symm ‹_›
  split at h
  · cases h; exact Eq.symm ‹_›
  split at h
  · cases h; exact Eq.symm ‹_›
  split at h
  · cases h; exact Eq.symm ‹_›
  · cases h

theorem readChannel_channelByte (c : Channel) : readChannel (channelByte c) = some c := by
  cases c <;> decide

theorem readChannel_sound {b : Byte} {c : Channel} (h : readChannel b = some c) : channelByte c = b := by
  unfold readChannel at h
  split at h
  · cases h; exact Eq.symm ‹_›
  split at h
  · cases h; exact Eq.symm ‹_›
  · cases h

/-- A configuration telegram is spelled by its parts (R91). -/
theorem encode_configTelegram (op : Opcode) (c : Channel) (pad : Byte) (v : Literal) :
    (configTelegram op c pad v).encode = encodeConfig op c pad v := by
  cases op <;> rfl

/-- Whatever tests 2 to 5 of R101 accept is a configuration telegram spelled out in the body. -/
theorem decodeConfig_sound {t : List Byte} {tg : Telegram} (h : decodeConfig t = .accept tg) :
    ∃ op c pad v, tg = configTelegram op c pad v ∧ encodeConfig op c pad v = t ∧ v.int ≠ [] := by
  unfold decodeConfig at h
  split at h
  · rename_i b0 b1 b2 b3 b4 value
    split at h
    · cases h
    rename_i op hop
    split at h
    · cases h
    rename_i c hc
    split at h
    · cases h
    rename_i v hv
    cases h
    refine ⟨op, c, b3, v, rfl, ?_, (readLiteral_sound hv).2⟩
    rw [encodeConfig, readOpcode_sound hop, readChannel_sound hc, (readLiteral_sound hv).1]
    rfl
  · cases h

/-- Tests 2 to 5 of R101 accept the spelling of a configuration telegram. -/
theorem decodeConfig_encodeConfig (op : Opcode) (c : Channel) (pad : Byte) {v : Literal} (h : v.int ≠ []) :
    decodeConfig (encodeConfig op c pad v) = .accept (configTelegram op c pad v) := by
  obtain ⟨b0, b1, hb, hop⟩ := readOpcode_bytes op
  have hv := readLiteral_bytes h
  obtain ⟨b4, value, he⟩ : ∃ b4 value, v.bytes = b4 :: value := by
    cases hbs : v.bytes with
    | nil => rw [hbs] at hv; cases hv
    | cons b4 value => exact ⟨b4, value, rfl⟩
  rw [he] at hv
  simp [encodeConfig, hb, he, decodeConfig, hop, readChannel_channelByte, hv]

/-- No configuration telegram spells `CONTINUEE`. -/
theorem encodeConfig_ne_continuee (op : Opcode) (c : Channel) (pad : Byte) (v : Literal) :
    encodeConfig op c pad v ≠ continueeBytes := by
  cases op <;> simp [encodeConfig, Opcode.bytes, continueeBytes]

theorem encodeConfig_length (op : Opcode) (c : Channel) (pad : Byte) (v : Literal) :
    (encodeConfig op c pad v).length = v.width + 4 := by
  cases op <;> simp [encodeConfig, Opcode.bytes, v.bytes_length]

end Sys2Proof
end

