-- ==== Sys2Proof/Laws/Numeric.lean ====
section
/-! SUPPORT. The arithmetic functions of R13: their characterising bounds, and the thresholds of R126, R127. -/

namespace Sys2Proof

theorem floorQ_eq (x : Rat) : floorQ x = ⌊x⌋ := rfl

theorem floorQ_le (x : Rat) : (floorQ x : Rat) ≤ x := Int.floor_le x

theorem lt_floorQ_add_one (x : Rat) : x < (floorQ x : Rat) + 1 := Int.lt_floor_add_one x

/-- The only integer within one below `x`. -/
theorem floorQ_unique {x : Rat} {n : Int} (h1 : (n : Rat) ≤ x) (h2 : x < (n : Rat) + 1) : floorQ x = n :=
  Int.floor_eq_iff.2 ⟨h1, h2⟩

theorem fracQ_nonneg (x : Rat) : 0 ≤ fracQ x := by
  have := floorQ_le x
  unfold fracQ
  linarith

theorem fracQ_lt_one (x : Rat) : fracQ x < 1 := by
  have := lt_floorQ_add_one x
  unfold fracQ
  linarith

/-- `round` on a non-negative argument: the integer `n` with `n - 1/2 ≤ x < n + 1/2`. -/
theorem roundQ_of_nonneg {x : Rat} {n : Int} (hx : 0 ≤ x) (h1 : (n : Rat) - 1 / 2 ≤ x) (h2 : x < (n : Rat) + 1 / 2) :
    roundQ x = n := by
  unfold roundQ
  rw [if_pos hx]
  exact floorQ_unique (by linarith) (by linarith)

theorem roundQ_natCast (n : Nat) : roundQ (n : Rat) = n := by
  refine roundQ_of_nonneg (by exact_mod_cast Nat.zero_le n) ?_ ?_ <;> push_cast <;> linarith

theorem roundQ_nonneg {x : Rat} (hx : 0 ≤ x) : 0 ≤ roundQ x := by
  unfold roundQ
  rw [if_pos hx]
  have h : (0 : Rat) ≤ x + 1 / 2 := by linarith
  exact Int.floor_nonneg.2 h

theorem clampZ_bounds {n lo hi : Int} (h : lo ≤ hi) : lo ≤ clampZ n lo hi ∧ clampZ n lo hi ≤ hi := by
  unfold clampZ
  split
  · exact ⟨le_refl _, h⟩
  · split
    · exact ⟨h, le_refl _⟩
    · omega

namespace Machine

/-- The byte of a scaled entry as a number: the clamped value itself. -/
theorem scaleEntry_toNat (amp off : Rat) (b : Byte) :
    ((scaleEntry amp off b).toNat : Int) = clampZ (roundQ (scaleRaw amp off b)) 0 255 := by
  have h := clampZ_bounds (n := roundQ (scaleRaw amp off b)) (lo := 0) (hi := 255) (by decide)
  rw [scaleEntry, BitVec.toNat_ofInt]
  have h2 : clampZ (roundQ (scaleRaw amp off b)) 0 255 % ((2 ^ 8 : Nat) : Int) =
      clampZ (roundQ (scaleRaw amp off b)) 0 255 := Int.emod_eq_of_lt h.1 (by have := h.2; norm_num; omega)
  rw [h2, Int.toNat_of_nonneg h.1]

/-- The argument of the final `round` of R126 and R127 lies in `(0, 15]`. -/
theorem windowArg_bounds (r : Rat) :
    0 < (scaleWindow : Rat) * (1 - fracQ r) ∧ (scaleWindow : Rat) * (1 - fracQ r) ≤ 15 := by
  have h0 := fracQ_nonneg r
  have h1 := fracQ_lt_one r
  have : (scaleWindow : Rat) = 15 := by norm_num [scaleWindow]
  rw [this]
  constructor <;> linarith

/-- A threshold is the integer nearest to `15 * (1 - frac(r))`, the half rounded up. -/
theorem windowThreshold_spec (r : Rat) (n : Nat) :
    windowThreshold r = n ↔ (n : Rat) - 1 / 2 ≤ 15 * (1 - fracQ r) ∧ 15 * (1 - fracQ r) < (n : Rat) + 1 / 2 := by
  have hb := windowArg_bounds r
  have h15 : (scaleWindow : Rat) = 15 := by norm_num [scaleWindow]
  rw [h15] at hb
  have hr : roundQ (15 * (1 - fracQ r)) = floorQ (15 * (1 - fracQ r) + 1 / 2) := by
    unfold roundQ; rw [if_pos hb.1.le]
  have hn : 0 ≤ floorQ (15 * (1 - fracQ r) + 1 / 2) := hr ▸ roundQ_nonneg hb.1.le
  rw [windowThreshold, h15, hr]
  have hle := floorQ_le (15 * (1 - fracQ r) + 1 / 2)
  have hlt := lt_floorQ_add_one (15 * (1 - fracQ r) + 1 / 2)
  constructor
  · intro h
    have hz : floorQ (15 * (1 - fracQ r) + 1 / 2) = (n : Int) := by omega
    rw [hz] at hle hlt
    push_cast at hle hlt
    constructor <;> linarith
  · rintro ⟨h1, h2⟩
    have : floorQ (15 * (1 - fracQ r) + 1 / 2) = (n : Int) :=
      floorQ_unique (by push_cast; linarith) (by push_cast; linarith)
    rw [this]
    rfl

theorem windowThreshold_le (r : Rat) : windowThreshold r ≤ 15 := by
  have hb := (windowArg_bounds r).2
  have h15 : (scaleWindow : Rat) = 15 := by norm_num [scaleWindow]
  rw [h15] at hb
  have h := ((windowThreshold_spec r _).1 rfl).1
  by_contra hc
  have : (16 : Rat) ≤ (windowThreshold r : Rat) := by exact_mod_cast (by omega : 16 ≤ windowThreshold r)
  linarith

end Machine

end Sys2Proof
end

