-- ==== Sys2Proof/Laws/PerInstr.lean ====
section
/-! SUPPORT. Statements made for every operation, one lemma per constructor: `BodyShape`, that an encoded body
fits the command buffer and holds no terminator (R90, R91, R92). -/

namespace Sys2Proof.Laws.BodyShape

/-- If a well-formed operation has an encoding, its body has five to nine bytes and none is a terminator. -/
def Statement (i : Instr) : Prop :=
  i.wellFormed = true → ∀ body, encode i = some body →
    5 ≤ body.length ∧ body.length ≤ cmdCap ∧ ∀ b ∈ body, b ≠ terminator

/-- The four configuration telegrams share one shape (R91). -/
theorem config (op : Opcode) (c : Channel) (pad : Byte) (v : Literal)
    (h : (padWellFormed pad && v.wellFormed) = true) :
    5 ≤ (encodeConfig op c pad v).length ∧ (encodeConfig op c pad v).length ≤ cmdCap ∧
      ∀ b ∈ encodeConfig op c pad v, b ≠ terminator := by
  simp only [padWellFormed, Literal.wellFormed, Bool.and_eq_true, decide_eq_true_eq] at h
  have hi : 1 ≤ v.int.length := List.length_pos_iff.2 h.2.1
  have hw : v.int.length ≤ v.width := by unfold Literal.width; omega
  refine ⟨?_, ?_, ?_⟩
  · rw [encodeConfig_length]; omega
  · rw [encodeConfig_length, cmdCap]; omega
  · intro b hb
    have hop : ∀ b ∈ op.bytes, b ≠ terminator := by cases op <;> decide
    have hc : channelByte c ≠ terminator := by cases c <;> decide
    simp only [encodeConfig, List.mem_append, List.mem_cons, List.not_mem_nil, or_false] at hb
    rcases hb with (hb | rfl | rfl) | hb
    · exact hop b hb
    · exact hc
    · exact h.1
    · exact v.bytes_ne_terminator b hb

theorem am (c : Channel) (pad : Byte) (v : Literal) : Statement (.am c pad v) := by
  intro h body he
  cases he
  exact config .am c pad v h

theorem of (c : Channel) (pad : Byte) (v : Literal) : Statement (.of c pad v) := by
  intro h body he
  cases he
  exact config .of c pad v h

theorem fr (c : Channel) (pad : Byte) (v : Literal) : Statement (.fr c pad v) := by
  intro h body he
  cases he
  exact config .fr c pad v h

theorem wa (c : Channel) (pad : Byte) (v : Literal) : Statement (.wa c pad v) := by
  intro h body he
  cases he
  exact config .wa c pad v h

theorem continuee : Statement .continuee := by
  intro _ body he
  cases he
  decide

theorem recompute (c : Channel) : Statement (.recompute c) := fun _ _ he => nomatch he

theorem scaleTable (c : Channel) : Statement (.scaleTable c) := fun _ _ he => nomatch he

theorem deriveSelect (c : Channel) : Statement (.deriveSelect c) := fun _ _ he => nomatch he

theorem deriveHold (c : Channel) : Statement (.deriveHold c) := fun _ _ he => nomatch he

theorem deriveSkip (c : Channel) : Statement (.deriveSkip c) := fun _ _ he => nomatch he

theorem sampleTick : Statement .sampleTick := fun _ _ he => nomatch he

theorem stepHold (c : Channel) : Statement (.stepHold c) := fun _ _ he => nomatch he

theorem stepSkip (c : Channel) : Statement (.stepSkip c) := fun _ _ he => nomatch he

theorem stepIdle (c : Channel) : Statement (.stepIdle c) := fun _ _ he => nomatch he

theorem pack (s1 s2 : Byte) : Statement (.pack s1 s2) := fun _ _ he => nomatch he

theorem rxPass : Statement .rxPass := fun _ _ he => nomatch he

theorem accumulate (ch : Byte) : Statement (.accumulate ch) := fun _ _ he => nomatch he

theorem accumulateOverflow (ch : Byte) : Statement (.accumulateOverflow ch) := fun _ _ he => nomatch he

theorem parse : Statement .parse := fun _ _ he => nomatch he

theorem replyPass : Statement .replyPass := fun _ _ he => nomatch he

theorem errorBranch : Statement .errorBranch := fun _ _ he => nomatch he

theorem ackBranch : Statement .ackBranch := fun _ _ he => nomatch he

theorem modeEval : Statement .modeEval := fun _ _ he => nomatch he

theorem resumeBranch : Statement .resumeBranch := fun _ _ he => nomatch he

theorem start : Statement .start := fun _ _ he => nomatch he

theorem sendControl (direction : Direction) (address : BusAddr) : Statement (.sendControl direction address) := fun _ _ he => nomatch he

theorem sendByte (data : Byte) : Statement (.sendByte data) := fun _ _ he => nomatch he

theorem receiveByte (isLast : Bool) : Statement (.receiveByte isLast) := fun _ _ he => nomatch he

theorem secTick : Statement .secTick := fun _ _ he => nomatch he

theorem secPass : Statement .secPass := fun _ _ he => nomatch he

theorem poll : Statement .poll := fun _ _ he => nomatch he

theorem report (v : Byte) : Statement (.report v) := fun _ _ he => nomatch he

theorem rxEvent (b : Byte) : Statement (.rxEvent b) := fun _ _ he => nomatch he

theorem reset : Statement .reset := fun _ _ he => nomatch he

end Sys2Proof.Laws.BodyShape
end

