-- ==== Sys2Proof/Laws/Synthesizer.lean ====
section
/-! SUPPORT. Everything the synthesizer's operations can do: the entries of a scaled table, the fields of a
derived schedule, and one equation each for `RECOMPUTE` and for acknowledgment steps (1) to (4). -/

namespace Sys2Proof.Machine

/-- What a scaled table reads as (R123). -/
theorem read_scaledTable (base : PerShape Memory) (d : Desc) {i : Nat} (hi : i < tableLen) :
    (scaledTable base d).read i = scaleEntry d.amplitude d.offset ((base.get d.shape).read i) := by
  rw [scaledTable, Memory.read_tabulate, if_pos hi]

theorem scaledTable_wf (base : PerShape Memory) (d : Desc) :
    (scaledTable base d).wf ∧ (scaledTable base d).inSpace tableLen :=
  ⟨Memory.tabulate_wf _ _, Memory.tabulate_inSpace _ _⟩

/-- The two forms of `raw` in R123 agree. -/
theorem scaleRaw_eq (amp off : Rat) (b : Byte) :
    scaleRaw amp off b = (amp * ((b.toNat : Rat) - 127) + 381 - 127 * off) / 3 := by
  unfold scaleRaw
  ring

/-- A freshly derived schedule in hold mode (R126). -/
theorem freshSched_hold {tInt : Nat} {tFloat : Rat} {d : Desc} (h : d.frequency < tInt) :
    freshSched tInt tFloat d =
      ⟨0, tInt / d.frequency, 0, windowThreshold (tFloat / (d.frequency : Rat)), 0, 0, 0⟩ := by
  rw [freshSched, selectSchedule, if_pos h]
  rfl

/-- A freshly derived schedule in skip mode (R127). -/
theorem freshSched_skip {tInt : Nat} {tFloat : Rat} {d : Desc} (h : tInt ≤ d.frequency) :
    freshSched tInt tFloat d =
      ⟨0, 0, d.frequency / tInt, 0, windowThreshold ((d.frequency : Rat) / tFloat), 0, 0⟩ := by
  rw [freshSched, selectSchedule, if_neg (Nat.not_lt.2 h)]
  rfl

/-- `RECOMPUTE(c)`: the channel's table and schedule, nothing else (R120, R121). -/
theorem recompute_eq (c : Channel) (s : State) :
    recompute c s = { s with
      scaled := s.scaled.set c (scaledTable s.params.base (s.desc.get c))
      sched := s.sched.set c (freshSched s.tfInt s.tfFloat (s.desc.get c)) } := by
  unfold recompute deriveSchedule
  by_cases h : (s.desc.get c).frequency < s.tfInt
  · simp [h, deriveHold, scaleChannel, zeroSched, freshSched, selectSchedule, setSched, setScaled]
  · simp [h, deriveSkip, scaleChannel, zeroSched, freshSched, selectSchedule, setSched, setScaled]

/-- Acknowledgment steps (1) to (4) (R202 to R206), which `RESET` shares (R292). -/
theorem resynthesize_eq (s : State) :
    resynthesize s = { s with
      mode := modeOf s.desc
      tickRateSel := s.params.tickRate.get (modeOf s.desc)
      tfInt := s.params.tInt.get (modeOf s.desc)
      tfFloat := s.params.tFloat.get (modeOf s.desc)
      tempReportEnable := decide (modeOf s.desc = .normal)
      scaled := ⟨scaledTable s.params.base s.desc.one, scaledTable s.params.base s.desc.two⟩
      sched :=
        ⟨freshSched (s.params.tInt.get (modeOf s.desc)) (s.params.tFloat.get (modeOf s.desc)) s.desc.one,
         freshSched (s.params.tInt.get (modeOf s.desc)) (s.params.tFloat.get (modeOf s.desc)) s.desc.two⟩ } := by
  rw [resynthesize, recompute_eq, recompute_eq]
  rfl

/-- The mode rule, as its two cases (R203). -/
theorem modeOf_high {d : PerChannel Desc} : modeOf d = .highFrequency ↔
    6000 ≤ d.one.frequency ∨ 6000 ≤ d.two.frequency := by
  unfold modeOf hfThreshold
  split <;> simp_all

theorem modeOf_normal {d : PerChannel Desc} : modeOf d = .normal ↔
    d.one.frequency < 6000 ∧ d.two.frequency < 6000 := by
  unfold modeOf hfThreshold
  split
  · rename_i h
    simp only [reduceCtorEq, false_iff]
    omega
  · rename_i h
    simp only [true_iff]
    omega

/-- The bounds of R23 right after a derivation. -/
theorem freshSched_bounds {tInt : Nat} {tFloat : Rat} {d : Desc} (hT : 1 ≤ tInt) (hd : d.Legal) :
    (freshSched tInt tFloat d).repeatCount ≤ tInt ∧
    (freshSched tInt tFloat d).inverseRepeat ≤ 10000 / tInt ∧
    (((freshSched tInt tFloat d).repeatCount ≠ 0 ∧ (freshSched tInt tFloat d).inverseRepeat = 0) ∨
      ((freshSched tInt tFloat d).repeatCount = 0 ∧ (freshSched tInt tFloat d).inverseRepeat ≠ 0)) ∧
    (freshSched tInt tFloat d).thresholdRepeat ≤ 15 ∧ (freshSched tInt tFloat d).thresholdSkip ≤ 15 ∧
    (freshSched tInt tFloat d).sampleCounter = 0 ∧ (freshSched tInt tFloat d).tickCounter = 0 := by
  have h1 := hd.2.2.2.2.1
  have h2 := hd.2.2.2.2.2
  by_cases h : d.frequency < tInt
  · rw [freshSched_hold h]
    refine ⟨Nat.div_le_self _ _, Nat.zero_le _, .inl ⟨?_, rfl⟩, windowThreshold_le _, by simp, rfl, rfl⟩
    have := Nat.div_pos h.le h1
    show tInt / d.frequency ≠ 0
    omega
  · rw [freshSched_skip (Nat.not_lt.1 h)]
    refine ⟨Nat.zero_le _, Nat.div_le_div_right h2, .inr ⟨rfl, ?_⟩, by simp, windowThreshold_le _, rfl, rfl⟩
    have := Nat.div_pos (Nat.not_lt.1 h) hT
    show d.frequency / tInt ≠ 0
    omega

end Sys2Proof.Machine
end

