-- ==== Sys2Proof/Laws/Protocol.lean ====
section
/-! SUPPORT. Everything the protocol machine's operations can do, as one case list for each. -/

namespace Sys2Proof.Machine

/-- What a telegram can do (R186 to R192): raise `FormatError`, schedule a resume, or write one legal field of
one descriptor and schedule the acknowledgment. -/
theorem applyTelegram_cases (tg : Telegram) (s : State) :
    applyTelegram tg s = raiseFormatError s ∨
    applyTelegram tg s = scheduleResume s ∨
    ∃ c d, applyTelegram tg s = setAckPending true (setDesc c d s) ∧ ((s.desc.get c).Legal → d.Legal) ∧
      (d = { s.desc.get c with amplitude := d.amplitude } ∨ d = { s.desc.get c with offset := d.offset } ∨
        d = { s.desc.get c with frequency := d.frequency } ∨ d = { s.desc.get c with shape := d.shape }) := by
  cases tg with
  | am c pad v =>
    simp only [applyTelegram, setAmplitude]
    split
    · rename_i h
      simp only [amplitudeInRange, Bool.and_eq_true, decide_eq_true_eq] at h
      exact .inr (.inr ⟨c, _, rfl, fun hl => ⟨h.1, h.2, hl.2.2⟩, .inl rfl⟩)
    · exact .inl rfl
  | of c pad v =>
    simp only [applyTelegram, setOffset]
    split
    · rename_i h
      simp only [offsetInRange, Bool.and_eq_true, decide_eq_true_eq] at h
      exact .inr (.inr ⟨c, _, rfl, fun hl => ⟨hl.1, hl.2.1, h.1, h.2, hl.2.2.2.2⟩, .inr (.inl rfl)⟩)
    · exact .inl rfl
  | fr c pad v =>
    simp only [applyTelegram, setFrequency]
    split
    · rename_i h
      simp only [frequencyInRange, Bool.and_eq_true, decide_eq_true_eq] at h
      refine .inr (.inr ⟨c, _, rfl, fun hl => ⟨hl.1, hl.2.1, hl.2.2.1, hl.2.2.2.1, ?_, ?_⟩, .inr (.inr (.inl rfl))⟩)
      · show 1 ≤ v.ival.toNat
        omega
      · show v.ival.toNat ≤ 10000
        omega
    · exact .inl rfl
  | wa c pad v =>
    simp only [applyTelegram, setShape]
    split
    · exact .inr (.inr ⟨c, _, rfl, fun hl => hl, .inr (.inr (.inr rfl))⟩)
    · exact .inl rfl
  | continuee => exact .inr (.inl rfl)

/-- What `RX_PASS` can do (R181 to R185). -/
theorem rxPass_cases (s : State) :
    (s.rxQueue = [] ∧ rxPass s = s) ∨
    ∃ ch rest, s.rxQueue = ch :: rest ∧
      ((ch ≠ terminator ∧ s.cmdLen < cmdCap ∧ rxPass s = storeByte ch (setTicks false (setRxQueue rest s))) ∨
        rxPass s = raiseFormatError (setTicks false (setRxQueue rest s)) ∨
        (ch = terminator ∧ ∃ tg, decodeBody (cmdBody s) = .accept tg ∧
          rxPass s = applyTelegram tg (setTicks false (setRxQueue rest s)))) := by
  cases hq : s.rxQueue with
  | nil => exact .inl ⟨rfl, by simp [rxPass, hq]⟩
  | cons ch rest =>
    refine .inr ⟨ch, rest, rfl, ?_⟩
    have hb : cmdBody (setTicks false (setRxQueue rest s)) = cmdBody s := rfl
    by_cases hc : ch = terminator
    · cases hd : decodeBody (cmdBody s) with
      | accept tg => exact .inr (.inr ⟨hc, tg, rfl, by simp [rxPass, hq, consumeByte, hc, parse, hb, hd]⟩)
      | reject why => exact .inr (.inl (by simp [rxPass, hq, consumeByte, hc, parse, hb, hd]))
    · by_cases hl : s.cmdLen < cmdCap
      · exact .inl ⟨hc, hl, by simp [rxPass, hq, consumeByte, hc, accumulate, hl]⟩
      · exact .inr (.inl (by simp [rxPass, hq, consumeByte, hc, accumulate, hl, overflowByte]))

/-- What `REPLY_PASS` can do (R200). -/
theorem replyPass_cases (s : State) :
    (s.errPending = true ∧ replyPass s = recoverFormatError s) ∨
    (s.errPending = false ∧ s.ackPending = true ∧ replyPass s = ackBranch s) ∨
    (s.errPending = false ∧ s.ackPending = false ∧ s.resumePending = true ∧ replyPass s = resumeBranch s) ∨
    (s.errPending = false ∧ s.ackPending = false ∧ s.resumePending = false ∧ replyPass s = s) := by
  unfold replyPass
  cases s.errPending <;> cases s.ackPending <;> cases s.resumePending <;> simp [errorBranch]

/-- `ACK_BRANCH` as one equation (R202). -/
theorem ackBranch_eq (s : State) :
    ackBranch s = { resynthesize s with
      txStream := s.txStream ++ ackReply
      cmdLen := 0
      ackPending := false } := by
  rw [ackBranch, resynthesize_eq]
  rfl

/-- Storing a body byte (R182). -/
theorem storeByte_eq (ch : Byte) (s : State) :
    storeByte ch s = { s with cmdBuf := s.cmdBuf.write s.cmdLen ch, cmdLen := s.cmdLen + 1 } := rfl

/-- A telegram as an operation runs as `PARSE` runs it. -/
theorem exec_toInstr (tg : Telegram) (s : State) : exec tg.toInstr s = .next (applyTelegram tg s) := by
  cases tg <;> rfl

end Sys2Proof.Machine
end

