-- ==== Sys2Proof/Laws/Scheduler.lean ====
section
/-! SUPPORT. Everything a scheduler step and a sample tick can do. -/

namespace Sys2Proof.Machine

/-- A hold step writes the index and the two counters alone (R152). -/
theorem holdStep_frame (k : Sched) : holdStep k = { k with
    tableIndex := (holdStep k).tableIndex
    tickCounter := (holdStep k).tickCounter
    sampleCounter := (k.sampleCounter + 1) % 15 } := by
  unfold holdStep
  split <;> rfl

/-- A hold step that reaches its limit. -/
theorem holdStep_advance {k : Sched} (h : holdLimit k ≤ k.tickCounter + 1) :
    (holdStep k).tableIndex = k.tableIndex + 1 ∧ (holdStep k).tickCounter = 0 := by
  rw [holdStep, if_pos h]
  exact ⟨rfl, rfl⟩

/-- A hold step that does not. -/
theorem holdStep_wait {k : Sched} (h : k.tickCounter + 1 < holdLimit k) :
    (holdStep k).tableIndex = k.tableIndex ∧ (holdStep k).tickCounter = k.tickCounter + 1 := by
  rw [holdStep, if_neg (Nat.not_le.2 h)]
  exact ⟨rfl, rfl⟩

theorem holdLimit_le (k : Sched) : holdLimit k ≤ k.repeatCount + 1 := by
  unfold holdLimit
  split <;> omega

theorem repeatCount_le_holdLimit (k : Sched) : k.repeatCount ≤ holdLimit k := by
  unfold holdLimit
  split <;> omega

/-- A skip step writes the index and the window position alone (R153). -/
theorem skipStep_frame (k : Sched) : skipStep k = { k with
    tableIndex := (skipStep k).tableIndex
    sampleCounter := (k.sampleCounter + 1) % 15 } := rfl

theorem skipStep_index (k : Sched) :
    (skipStep k).tableIndex.toNat = (k.tableIndex.toNat + skipAmount k) % 256 := by
  simp [skipStep]

/-- No step writes a schedule parameter (R150). -/
theorem schedStep_params (k : Sched) :
    (schedStep k).repeatCount = k.repeatCount ∧ (schedStep k).inverseRepeat = k.inverseRepeat ∧
    (schedStep k).thresholdRepeat = k.thresholdRepeat ∧ (schedStep k).thresholdSkip = k.thresholdSkip := by
  unfold schedStep
  split
  · rw [holdStep_frame]; exact ⟨rfl, rfl, rfl, rfl⟩
  · split <;> exact ⟨rfl, rfl, rfl, rfl⟩

theorem schedStep_hold {k : Sched} (h : k.repeatCount ≠ 0) : schedStep k = holdStep k := if_pos h

theorem schedStep_skip {k : Sched} (h : k.repeatCount = 0) (h' : k.inverseRepeat ≠ 0) :
    schedStep k = skipStep k := by
  rw [schedStep, if_neg (by simpa using h), if_pos h']

theorem schedStep_idle {k : Sched} (h : k.repeatCount = 0) (h' : k.inverseRepeat = 0) : schedStep k = k := by
  rw [schedStep, if_neg (by simpa using h), if_neg (by simpa using h')]

/-- `STEP(c)` on the state is the step of the channel's schedule (R151). -/
theorem stepChannel_eq (c : Channel) (s : State) :
    stepChannel c s = { s with sched := s.sched.set c (schedStep (s.sched.get c)) } := by
  unfold stepChannel schedStep
  split
  · rfl
  · split
    · rfl
    · have : s.sched.set c (s.sched.get c) = s.sched := by cases c <;> rfl
      rw [this]
      rfl

/-- `SAMPLE_TICK` when it is effective: both schedules stepped, one image committed, nothing else (R151). -/
theorem runTick_eq (s : State) :
    runTick s = { s with
      sched := ⟨schedStep s.sched.one, schedStep s.sched.two⟩
      port := packImage (s.scaled.one.read (schedStep s.sched.one).tableIndex.toNat)
        (s.scaled.two.read (schedStep s.sched.two).tableIndex.toNat) s.port.gs
      portTrace := s.portTrace ++ [packImage (s.scaled.one.read (schedStep s.sched.one).tableIndex.toNat)
        (s.scaled.two.read (schedStep s.sched.two).tableIndex.toNat) s.port.gs] } := by
  simp only [runTick, stepChannel_eq]
  rfl

/-- Every tick keeps the bounds of R22 and R23 on the counters. -/
theorem schedStep_counters {k : Sched} (h1 : k.sampleCounter < 15) (h2 : k.tickCounter ≤ k.repeatCount) :
    (schedStep k).sampleCounter < 15 ∧ (schedStep k).tickCounter ≤ k.repeatCount := by
  by_cases hr : k.repeatCount ≠ 0
  · rw [schedStep_hold hr]
    refine ⟨by rw [holdStep_frame]; exact Nat.mod_lt _ (by decide), ?_⟩
    by_cases h : holdLimit k ≤ k.tickCounter + 1
    · rw [(holdStep_advance h).2]; exact Nat.zero_le _
    · rw [(holdStep_wait (Nat.not_le.1 h)).2]
      have := holdLimit_le k
      omega
  · have hr0 : k.repeatCount = 0 := by simpa using hr
    by_cases hi : k.inverseRepeat ≠ 0
    · rw [schedStep_skip hr0 hi]
      exact ⟨Nat.mod_lt _ (by decide), h2⟩
    · rw [schedStep_idle hr0 (by simpa using hi)]
      exact ⟨h1, h2⟩

end Sys2Proof.Machine
end

