-- ==== Sys2Proof/Laws/Step.lean ====
section
/-! SUPPORT. Everything one step can do: one case for each agent's operation. -/

namespace Sys2Proof.Machine

/-- Choosing the next move touches the environment's fields alone. -/
theorem takeMove_frame (s : State) : takeMove s = { s with moves := (takeMove s).moves, draws := (takeMove s).draws } := by
  unfold takeMove
  split <;> rfl

/-- The cases of a step (R14, R73, R74, R180). -/
theorem step_cases {s t : State} (h : step s = .next t) :
    (nextMove s = .main ∧ s.passPos = .reply ∧ t = replyPass (advancePass (takeMove s))) ∨
    (nextMove s = .main ∧ s.passPos = .rx ∧ t = rxPass (advancePass (takeMove s))) ∨
    (nextMove s = .main ∧ s.passPos = .sec ∧ t = secPass (advancePass (takeMove s))) ∨
    (nextMove s = .sampleTick ∧ t = sampleTick (takeMove s)) ∨
    (nextMove s = .secTick ∧ t = secTick (takeMove s)) ∨
    (∃ b, nextMove s = .rxEvent b ∧ t = rxEvent b (takeMove s)) ∨
    (∃ v, nextMove s = .gsHigh v ∧ t = setGsHigh v (takeMove s)) := by
  unfold step runMove at h
  cases hm : nextMove s with
  | main =>
    rw [hm] at h
    simp only [takeMove_passPos] at h
    cases hp : s.passPos <;> rw [hp] at h
    · exact .inl ⟨rfl, rfl, (Host.Outcome.next.inj h).symm⟩
    · exact .inr (.inl ⟨rfl, rfl, (Host.Outcome.next.inj h).symm⟩)
    · exact .inr (.inr (.inl ⟨rfl, rfl, (Host.Outcome.next.inj h).symm⟩))
  | sampleTick =>
    rw [hm] at h
    exact .inr (.inr (.inr (.inl ⟨rfl, (Host.Outcome.next.inj h).symm⟩)))
  | secTick =>
    rw [hm] at h
    exact .inr (.inr (.inr (.inr (.inl ⟨rfl, (Host.Outcome.next.inj h).symm⟩))))
  | rxEvent b =>
    rw [hm] at h
    exact .inr (.inr (.inr (.inr (.inr (.inl ⟨b, rfl, (Host.Outcome.next.inj h).symm⟩)))))
  | gsHigh v =>
    rw [hm] at h
    exact .inr (.inr (.inr (.inr (.inr (.inr ⟨v, rfl, (Host.Outcome.next.inj h).symm⟩)))))

/-- A listed move of the main sequencer runs its next operation (R73, R180). -/
theorem step_main {s : State} {rest : List Move} (h : s.moves = .main :: rest) :
    step s = exec (mainOperation s.passPos) (advancePass { s with moves := rest }) := by
  have hn : nextMove s = .main := by rw [nextMove, h]
  have ht : takeMove s = { s with moves := rest } := by rw [takeMove, h]
  rw [step, hn, ht]
  rfl

/-- A run of the machine, one step at a time. -/
theorem runSteps_succ {s s' : State} (h : step s = .next s') (n : Nat) :
    runSteps (n + 1) s = runSteps n s' := by
  rw [runSteps, h]

end Sys2Proof.Machine
end

