-- ==== Sys2Proof/Tests/Slice0.lean ====
section
/-! SUPPORT. The model's own tests. Expected results come from spec/95_test_vectors.md (under its test
instantiation `TP` and test tables `TT`) and from the spec's examples; the vector is named with each. Below
them one witness for every obligation that has hypotheses. -/

namespace Sys2Proof.Tests

open Sys2Proof Sys2Proof.Machine

/-! ## The test instantiation -/

/-- `TT[Sawtooth]`. -/
def ttSawtooth : Memory := Memory.tabulate tableLen fun i => BitVec.ofNat 8 i
/-- `TT[ReverseSawtooth]`. -/
def ttReverse : Memory := Memory.tabulate tableLen fun i => BitVec.ofNat 8 (255 - i)
/-- `TT[Square]`. -/
def ttSquare : Memory := Memory.tabulate tableLen fun i => if i < 128 then 255 else 0
/-- `TT[Triangle]`. -/
def ttTriangle : Memory := Memory.tabulate tableLen fun i => BitVec.ofNat 8 (if i < 128 then 2 * i else 2 * (255 - i))

/-- `TP`. The spec names no sine table, sensor address or command byte: no test reads them. -/
def tp : Params where
  base := ⟨Memory.tabulate tableLen fun _ => 0, ttSquare, ttTriangle, ttSawtooth, ttReverse⟩
  tInt := ⟨175, 312⟩
  tFloat := ⟨45000 / 256, 80000 / 256⟩
  tickRate := ⟨0, 1⟩
  busBudget := 100
  sensorAddr := 0
  cmdOneShot := 0xEE
  cmdRegSel := 0xAA
  resetDesc := ⟨⟨3, 0, 100, .sawtooth⟩, ⟨3, 0, 1000, .reverseSawtooth⟩⟩

/-- The state right after reset under `TP`, with `GS[7:4] = 0xA`. -/
def demo : State :=
  { State.reset with
    params := tp
    desc := tp.resetDesc
    sched := ⟨freshSched 175 (45000 / 256) tp.resetDesc.one, freshSched 175 (45000 / 256) tp.resetDesc.two⟩
    scaled := ⟨scaledTable tp.base tp.resetDesc.one, scaledTable tp.base tp.resetDesc.two⟩
    mode := .normal
    tfInt := 175
    tfFloat := 45000 / 256
    tickRateSel := 0
    tempReportEnable := true
    port := ⟨0, 0, 0xA0⟩ }

/-- `demo` with channel 1's schedule replaced. -/
def withSched (k : Sched) : State := { demo with sched := demo.sched.set .one k }

/-- `demo` with a body in the command buffer. -/
def withBody (body : List Byte) : State :=
  { demo with cmdBuf := Memory.writeFrom [] 0 body, cmdLen := body.length }

/-- `demo` with channel 1's frequency replaced. -/
def withFreq (f : Nat) : State := { demo with desc := demo.desc.set .one ⟨3, 0, f, .sawtooth⟩ }

/-- The outcome is a next state with this property. -/
def after (o : Host.Outcome State Fault Refusal) (p : State → Bool) : Bool :=
  match o with
  | .next t => p t
  | .fault _ => false
  | .refused _ => false

/-! ## Well-formedness refuses each ill-formed term -/

theorem test_wf_refuses_no_integer_digit : Instr.wellFormed (.am .one 0x5F ⟨false, [], some [5]⟩) = false := by decide
theorem test_wf_refuses_six_characters : Instr.wellFormed (.fr .one 0x5F ⟨true, [1, 0, 0, 0, 0], none⟩) = false := by decide
theorem test_wf_refuses_point_over_width : Instr.wellFormed (.of .two 0x5F ⟨true, [1, 0], some [0, 0]⟩) = false := by decide
theorem test_wf_refuses_terminator_pad : Instr.wellFormed (.wa .one 0x21 ⟨false, [1], none⟩) = false := by decide
theorem test_wf_refuses_stored_terminator : Instr.wellFormed (.accumulate 0x21) = false := by decide
theorem test_wf_refuses_overflow_terminator : Instr.wellFormed (.accumulateOverflow 0x21) = false := by decide
theorem test_wf_accepts_widest_literal : Instr.wellFormed (.of .one 0x5F ⟨true, [1, 0], some [0]⟩) = true := by decide

/-! ## Decoding, words written out from R91 to R97 -/

/-- `AM1_0005` (E2). -/
theorem test_decode_am : decode [0x41, 0x4D, 0x31, 0x5F, 0x30, 0x30, 0x30, 0x35] =
    some (.am .one 0x5F ⟨false, [0, 0, 0, 5], none⟩) := by decide
/-- `OF1_-10.0` (V-PARSE). -/
theorem test_decode_of : decode [0x4F, 0x46, 0x31, 0x5F, 0x2D, 0x31, 0x30, 0x2E, 0x30] =
    some (.of .one 0x5F ⟨true, [1, 0], some [0]⟩) := by decide
/-- `FR2_6000` (E4), as a table word: right-padded with one zero byte. -/
theorem test_decode_fr : decodeTableWord 72 0x4652325F3630303000 =
    some (.fr .two 0x5F ⟨false, [6, 0, 0, 0], none⟩) := by decide
/-- `WA2_2.7` (V-PARSE). -/
theorem test_decode_wa : decode [0x57, 0x41, 0x32, 0x5F, 0x32, 0x2E, 0x37] =
    some (.wa .two 0x5F ⟨false, [2], some [7]⟩) := by decide
/-- `CONTINUEE` (R92), as a table word. -/
theorem test_decode_continuee : decodeTableWord 72 0x434F4E54494E554545 = some .continuee := by decide
/-- `AM1X7.` (V-PARSE): any pad, a trailing point. -/
theorem test_decode_pad_and_point : decode [0x41, 0x4D, 0x31, 0x58, 0x37, 0x2E] =
    some (.am .one 0x58 ⟨false, [7], some []⟩) := by decide
/-- R94: the byte 0x01 is no channel. -/
theorem test_decode_rejects_channel_value : decodeBody [0x41, 0x4D, 0x01, 0x5F, 0x35] = .reject .badChannel := by decide
/-- R103: `CONTINUE` is a format error (its third byte is no channel, its opcode none of the four). -/
theorem test_decode_rejects_continue :
    decodeBody [0x43, 0x4F, 0x4E, 0x54, 0x49, 0x4E, 0x55, 0x45] = .reject .unknownOpcode := by decide
/-- R96: `-`, `.5`, `+5`, `5 ` and `--1` are no literals. -/
theorem test_decode_rejects_bad_literals :
    readLiteral [0x2D] = none ∧ readLiteral [0x2E, 0x35] = none ∧ readLiteral [0x2B, 0x35] = none ∧
      readLiteral [0x35, 0x20] = none ∧ readLiteral [0x2D, 0x2D, 0x31] = none := by decide

/-! ## Telegrams -/

/-- E2. -/
theorem test_am_sets_amplitude :
    after (exec (.am .one 0x5F ⟨false, [0, 0, 0, 5], none⟩) demo) (fun t =>
      decide (t.desc.one.amplitude = 5 ∧ t.ackPending = true ∧ t.errPending = false)) = true := by decide +kernel
/-- E3. -/
theorem test_am_out_of_range :
    after (exec (.am .one 0x5F ⟨false, [0, 0, 1, 5], none⟩) demo) (fun t =>
      decide (t.desc = demo.desc ∧ t.ackPending = false ∧ t.errPending = true)) = true := by decide +kernel
/-- V-PARSE `OF2_-2.5`. -/
theorem test_of_negative_fraction :
    after (exec (.of .two 0x5F ⟨true, [2], some [5]⟩) demo) (fun t =>
      decide (t.desc.two.offset = -5 / 2 ∧ t.desc.one = demo.desc.one)) = true := by decide +kernel
/-- V-PARSE `FR1_99.9`. -/
theorem test_fr_drops_fraction :
    after (exec (.fr .one 0x5F ⟨false, [9, 9], some [9]⟩) demo) (fun t =>
      decide (t.desc.one.frequency = 99)) = true := by decide +kernel
/-- R191: `0.9` is rejected. -/
theorem test_fr_rejects_below_one :
    after (exec (.fr .one 0x5F ⟨false, [0], some [9]⟩) demo) (fun t => t.errPending) = true := by decide +kernel
/-- V-PARSE `WA1_0003`. -/
theorem test_wa_triangle :
    after (exec (.wa .one 0x5F ⟨false, [0, 0, 0, 3], none⟩) demo) (fun t =>
      decide (t.desc.one.shape = .triangle)) = true := by decide +kernel
/-- R192: `6` is rejected. -/
theorem test_wa_rejects_six :
    after (exec (.wa .one 0x5F ⟨false, [6], none⟩) demo) (fun t => t.errPending) = true := by decide +kernel
/-- R186. -/
theorem test_continuee_flags :
    after (exec .continuee demo) (fun t => t.ackPending && t.resumePending && !t.errPending) = true := by decide

/-! ## Synthesizer -/

/-- V-SCALE rows: tie, clamp, offset. -/
theorem test_scale_entries :
    scaleEntry (3 / 2) 0 0 = 64 ∧ scaleEntry (3 / 2) 0 2 = 65 ∧ scaleEntry 5 0 128 = 129 ∧
      scaleEntry 10 10 0 = 0 ∧ scaleEntry 10 10 255 = 130 ∧ scaleEntry 3 (3 / 2) 64 = 1 ∧
      scaleEntry 3 (-3) 129 = 255 ∧ scaleEntry (5 / 2) (-5 / 4) 200 = 241 := by decide +kernel
/-- P1: amplitude 5 on the sawtooth. -/
theorem test_scale_table :
    after (exec (.scaleTable .one) { demo with desc := demo.desc.set .one ⟨5, 0, 100, .sawtooth⟩ }) (fun t =>
      decide (memRead (.scaled .one) 77 t = 44 ∧ memRead (.scaled .one) 203 t = 254)) = true := by decide +kernel
/-- V-DERIVE row 174. -/
theorem test_derive_select :
    after (exec (.deriveSelect .one) (withFreq 174)) (fun t =>
      decide (t.sched.one.repeatCount = 1 ∧ t.sched.one.thresholdRepeat = 15)) = true := by decide +kernel
/-- V-DERIVE row 50. -/
theorem test_derive_hold :
    after (exec (.deriveHold .one) (withFreq 50)) (fun t =>
      decide (t.sched.one.repeatCount = 3 ∧ t.sched.one.thresholdRepeat = 7)) = true := by decide +kernel
/-- V-DERIVE row 1 of HighFrequency: the tie 7.5 gives 8. -/
theorem test_derive_hold_tie :
    after (exec (.deriveHold .one) { withFreq 1 with tfInt := 312, tfFloat := 80000 / 256 }) (fun t =>
      decide (t.sched.one.repeatCount = 312 ∧ t.sched.one.thresholdRepeat = 8)) = true := by decide +kernel
/-- V-DERIVE row 5999. -/
theorem test_derive_skip :
    after (exec (.deriveSkip .one) (withFreq 5999)) (fun t =>
      decide (t.sched.one.inverseRepeat = 34 ∧ t.sched.one.thresholdSkip = 13)) = true := by decide +kernel
/-- R121's example. -/
theorem test_recompute :
    after (exec (.recompute .one) (withFreq 50)) (fun t =>
      decide (t.sched.one = ⟨0, 3, 0, 7, 0, 0, 0⟩ ∧ t.sched.two = demo.sched.two)) = true := by decide +kernel

/-! ## Scheduler and packer -/

/-- V-STEP row 1. -/
theorem test_step_hold_wraps :
    after (exec (.stepHold .one) (withSched ⟨255, 1, 0, 15, 0, 14, 0⟩)) (fun t =>
      decide (t.sched.one = ⟨0, 1, 0, 15, 0, 0, 0⟩)) = true := by decide
/-- V-STEP row 3. -/
theorem test_step_hold_waits :
    after (exec (.stepHold .one) (withSched ⟨7, 3, 0, 0, 0, 1, 2⟩)) (fun t =>
      decide (t.sched.one = ⟨7, 3, 0, 0, 0, 2, 3⟩)) = true := by decide
/-- V-STEP row 7. -/
theorem test_step_skip_wraps :
    after (exec (.stepSkip .one) (withSched ⟨255, 0, 10000, 0, 0, 5, 0⟩)) (fun t =>
      decide (t.sched.one = ⟨16, 0, 10000, 0, 0, 6, 0⟩)) = true := by decide
/-- V-STEP row 4. -/
theorem test_step_skip_below_threshold :
    after (exec (.stepSkip .one) (withSched ⟨250, 0, 32, 0, 15, 3, 0⟩)) (fun t =>
      decide (t.sched.one = ⟨26, 0, 32, 0, 15, 4, 0⟩)) = true := by decide
/-- V-STEP last row. -/
theorem test_step_idle :
    after (exec (.stepIdle .one) (withSched ⟨9, 0, 0, 0, 0, 4, 0⟩)) (fun t =>
      decide (t.sched.one = ⟨9, 0, 0, 0, 0, 4, 0⟩)) = true := by decide
/-- V-PACK row 3. -/
theorem test_pack_low_bits :
    after (exec (.pack 0x01 0x02) { demo with port := ⟨0, 0, 0xA5⟩ }) (fun t =>
      decide (t.port = ⟨0x00, 0x00, 0xA9⟩)) = true := by decide
/-- V-PACK last row. -/
theorem test_pack_high_bits :
    after (exec (.pack 0x82 0x7D) { demo with port := ⟨0, 0, 0x00⟩ }) (fun t =>
      decide (t.port = ⟨0x20, 0x1F, 0x06⟩)) = true := by decide
/-- V-SCHED-1 tick 7, from the state of tick 6. -/
theorem test_sample_tick :
    after (exec .sampleTick { demo with
      sched := ⟨⟨2, 3, 0, 7, 0, 6, 0⟩, ⟨30, 0, 5, 0, 5, 6, 0⟩⟩, port := ⟨0, 56, 6⟩ }) (fun t =>
      decide (t.sched = ⟨⟨2, 3, 0, 7, 0, 7, 1⟩, ⟨36, 0, 5, 0, 5, 7, 0⟩⟩ ∧ t.port = ⟨0, 54, 14⟩)) = true := by
  decide +kernel
/-- R150: a masked tick. -/
theorem test_sample_tick_masked :
    after (exec .sampleTick { demo with sampleTickEnable := false }) (fun t =>
      decide (t.port = demo.port ∧ t.portTrace = [])) = true := by decide +kernel

/-! ## Protocol -/

/-- R181's example. -/
theorem test_rx_pass_stores :
    after (exec .rxPass { demo with rxQueue := [0x41] }) (fun t =>
      decide (t.cmdBuf = [(0, 0x41)] ∧ t.cmdLen = 1 ∧ t.sampleTickEnable = false ∧ t.secTickEnable = false)) = true := by
  decide
/-- R181: a lone terminator is an empty body. -/
theorem test_rx_pass_empty_body :
    after (exec .rxPass { demo with rxQueue := [0x21] }) (fun t =>
      t.errPending && !t.sampleTickEnable) = true := by decide
/-- R182. -/
theorem test_accumulate :
    after (exec (.accumulate 0x4D) (withBody [0x41])) (fun t => decide (cmdBody t = [0x41, 0x4D])) = true := by decide
/-- R183. -/
theorem test_accumulate_overflow :
    after (exec (.accumulateOverflow 0x35) (withBody (List.replicate 9 0x30))) (fun t =>
      decide (t.errPending = true ∧ t.cmdLen = 0)) = true := by decide
/-- E4. -/
theorem test_parse_fr :
    after (exec .parse (withBody [0x46, 0x52, 0x32, 0x5F, 0x36, 0x30, 0x30, 0x30])) (fun t =>
      decide (t.desc.two.frequency = 6000 ∧ t.ackPending = true ∧ t.cmdLen = 8)) = true := by decide +kernel
/-- R183's example: an empty body. -/
theorem test_parse_empty :
    after (exec .parse demo) (fun t => t.errPending) = true := by decide
/-- V-REPLY, row T F T. -/
theorem test_reply_error_first :
    after (exec .replyPass { demo with errPending := true, resumePending := true }) (fun t =>
      decide (t.txStream = [0x45, 0x52, 0x52, 0x0A] ∧ t.errPending = false ∧ t.resumePending = true)) = true := by decide
/-- V-REPLY, row F T T. -/
theorem test_reply_ack_before_resume :
    after (exec .replyPass { demo with ackPending := true, resumePending := true }) (fun t =>
      decide (t.txStream = [0x41, 0x43, 0x4B, 0x0A] ∧ t.ackPending = false ∧ t.resumePending = true)) = true := by
  decide +kernel
/-- P3. -/
theorem test_error_branch :
    after (exec .errorBranch { demo with errPending := true, sampleTickEnable := false }) (fun t =>
      decide (t.txStream = [0x45, 0x52, 0x52, 0x0A] ∧ t.errPending = false ∧ t.sampleTickEnable = false)) = true := by decide
/-- P2, pass 10. -/
theorem test_ack_branch :
    after (exec .ackBranch { demo with
      desc := demo.desc.set .two ⟨3, 0, 6000, .reverseSawtooth⟩, ackPending := true }) (fun t =>
      decide (t.mode = .highFrequency ∧ t.tfInt = 312 ∧ t.tempReportEnable = false ∧
        t.sched = ⟨⟨0, 3, 0, 13, 0, 0, 0⟩, ⟨0, 0, 19, 0, 12, 0, 0⟩⟩)) = true := by decide +kernel
/-- R203: 5999 and 6000. -/
theorem test_mode_eval :
    after (exec .modeEval (withFreq 6000)) (fun t => decide (t.mode = .highFrequency)) = true ∧
      after (exec .modeEval (withFreq 5999)) (fun t => decide (t.mode = .normal)) = true := by decide
/-- V-REPLY, row F F T. -/
theorem test_resume_branch :
    after (exec .resumeBranch { demo with
      resumePending := true, sampleTickEnable := false, secTickEnable := false, cmdLen := 1 }) (fun t =>
      decide (t.sampleTickEnable = true ∧ t.secTickEnable = true ∧ t.cmdLen = 0 ∧ t.resumePending = false ∧
        t.txStream = [])) = true := by decide

/-! ## Bus and poller -/

/-- V-BUS: the bounded wait at its edges. -/
theorem test_bus_wait :
    primResult 100 .never = .timeout ∧ primResult 100 (.done 100 true 9) = .ok 9 ∧
      primResult 100 (.done 101 true 9) = .timeout ∧ primResult 100 (.done 3 false 9) = .protocolError := by decide
/-- R233. -/
theorem test_bus_start :
    after (exec .start { demo with busAnswers := [.never] }) (fun t =>
      decide (t.busRequests = [.start] ∧ t.busAnswers = [])) = true := by decide
/-- R234. -/
theorem test_bus_send_control :
    after (exec (.sendControl .read 7) { demo with busAnswers := [.never] }) (fun t =>
      decide (t.busRequests = [.control .read 7])) = true := by decide
/-- R235. -/
theorem test_bus_send_byte :
    after (exec (.sendByte 0xEE) { demo with busAnswers := [.never] }) (fun t =>
      decide (t.busRequests = [.send 0xEE])) = true := by decide
/-- R236, V-BUS: the byte received. -/
theorem test_bus_receive_byte :
    after (exec (.receiveByte true) { demo with busAnswers := [.done 2 true 0x17] }) (fun t =>
      decide (t.busRequests = [.receive true])) = true ∧
      (busReceiveByte true { demo with busAnswers := [.done 2 true 0x17] }).1 = .ok 0x17 := by decide
/-- R240. -/
theorem test_sec_tick :
    after (exec .secTick demo) (fun t => t.oneSecondFlag) = true ∧
      after (exec .secTick { demo with secTickEnable := false }) (fun t => !t.oneSecondFlag) = true := by decide
/-- P2: a second in HighFrequency mode is consumed without a request. -/
theorem test_sec_pass_gated :
    after (exec .secPass { demo with oneSecondFlag := true, tempReportEnable := false }) (fun t =>
      decide (t.oneSecondFlag = false ∧ t.busRequests = [] ∧ t.txStream = [])) = true := by decide
/-- P4, first row. -/
theorem test_poll_reports :
    after (exec .poll { demo with busAnswers := List.replicate 9 (.done 1 true 23) }) (fun t =>
      decide (t.busRequests.length = 9 ∧ t.txStream = [0x32, 0x33, 0x0A])) = true := by decide
/-- P4, third row. -/
theorem test_poll_aborts :
    after (exec .poll { demo with busAnswers := List.replicate 4 (.done 1 true 23) ++ [.never] }) (fun t =>
      decide (t.busRequests.length = 5 ∧ t.txStream = [])) = true := by decide
/-- V-REPORT: 7 and 99. -/
theorem test_report :
    after (exec (.report 7) demo) (fun t => decide (t.txStream = [0x30, 0x37, 0x0A])) = true ∧
      after (exec (.report 99) demo) (fun t => decide (t.txStream = [0x39, 0x39, 0x0A])) = true := by decide

/-! ## Boundary and step -/

/-- R50. -/
theorem test_rx_event :
    after (exec (.rxEvent 0x42) { demo with rxQueue := [0x41] }) (fun t =>
      decide (t.rxQueue = [0x41, 0x42])) = true := by decide
/-- R56, R292: `GS[7:4]` survives, everything else is the table. -/
theorem test_reset :
    after (exec .reset { demo with cmdLen := 3, oneSecondFlag := true, port := ⟨1, 2, 0xA7⟩, mode := .highFrequency })
      (fun t => decide (t.cmdLen = 0 ∧ t.oneSecondFlag = false ∧ t.port = ⟨0, 0, 0xA0⟩ ∧ t.mode = .normal ∧
        t.sched.one.thresholdRepeat = 4 ∧ t.sched.two.inverseRepeat = 5)) = true := by decide +kernel
/-- A placed telegram is run by the very next step (log entry 10). -/
theorem test_step_placed_telegram :
    after (step (State.reset.withFetchWord 72 0x434F4E54494E554545)) (fun t =>
      t.ackPending && t.resumePending && !t.sampleTickEnable) = true := by decide
/-- R74: a listed tick runs its handler; R35: the environment writes `GS[7:4]` alone. -/
theorem test_step_environment :
    after (step { demo with moves := [.secTick] }) (fun t => t.oneSecondFlag) = true ∧
      after (step { demo with moves := [.gsHigh 0x5], port := ⟨1, 2, 0xA7⟩ }) (fun t =>
        decide (t.port = ⟨1, 2, 0x57⟩)) = true := by decide

/-! ## Witnesses: for each obligation with hypotheses, concrete values that meet them, clause by clause, at the
boundaries of their ranges -/

/-! First, that `demo` is a good state. -/

theorem demo_memoryCanonical : MemoryCanonical demo where
  scaled_wf c := by cases c <;> exact scaledTable_wf _ _
  cmdBuf_wf := by decide

theorem demo_coherent : Coherent demo := by
  refine fun _ => ⟨by decide, fun c => ⟨fun i hi => ?_, ?_⟩⟩
  · cases c <;> exact read_scaledTable _ _ hi
  · cases c <;> exact ⟨rfl, rfl, rfl, rfl⟩

theorem tp_legal : tp.Legal where
  base_wf s := by
    cases s <;> simp only [tp, PerShape.get, ttSquare, ttTriangle, ttSawtooth, ttReverse] <;>
      exact ⟨Memory.tabulate_wf _ _, Memory.tabulate_inSpace _ _⟩
  tInt_pos m := by cases m <;> decide
  tFloat_pos m := by cases m <;> norm_num [tp, PerMode.get]
  budget_pos := by decide
  resetDesc_legal c := by cases c <;> norm_num [tp, PerChannel.get, Desc.Legal]

theorem demo_schedulesBounded : SchedulesBounded demo := by
  intro c
  cases c <;> constructor <;> decide +kernel

/-- The state one step on from `demo` with one listed `REPLY_PASS` that has nothing to do. -/
theorem demo_steps : step { demo with moves := [.main] } = .next { demo with passPos := .rx } := rfl

theorem witness_EncodedTelegramsDecodeBack :
    Instr.wellFormed (.of .two 0x00 ⟨true, [1, 0], some [0]⟩) = true ∧
      encode (.of .two 0x00 ⟨true, [1, 0], some [0]⟩) =
        some [0x4F, 0x46, 0x32, 0x00, 0x2D, 0x31, 0x30, 0x2E, 0x30] := by decide

theorem witness_AcceptedBodiesEncodeBack :
    decodeBody [0x41, 0x4D, 0x31, 0x5F, 0x35] = .accept (.am .one 0x5F ⟨false, [5], none⟩) ∧
      ∀ b ∈ ([0x41, 0x4D, 0x31, 0x5F, 0x35] : List Byte), b ≠ terminator := by decide

theorem witness_IllegalBodiesRejected :
    ([0x41, 0x4D, 0x31, 0x5F] : List Byte).length < 5 ∧ 9 < (List.replicate 10 (0x30 : Byte)).length ∧
      ([0x30, 0x30, 0x30, 0x30] : List Byte).length ≤ 4 ∧
      ([0x61, 0x6D] : List Byte) ∉ ([[0x41, 0x4D], [0x4F, 0x46], [0x46, 0x52], [0x57, 0x41]] : List (List Byte)) ∧
      ([0x57, 0x41] : List Byte) ∈ ([[0x41, 0x4D], [0x4F, 0x46], [0x46, 0x52], [0x57, 0x41]] : List (List Byte)) ∧
      (0x33 : Byte) ≠ 0x31 ∧ (0x33 : Byte) ≠ 0x32 := by decide

theorem witness_IllegalBodiesRejected_value : ¬ ∃ v : Literal, v.int ≠ [] ∧ v.bytes = [0x2E, 0x35] := by
  rintro ⟨v, h, hb⟩
  have hr := readLiteral_bytes h
  rw [hb] at hr
  exact absurd hr (by simp [readLiteral, readUnsigned, takeDigits, minusByte, readDigit])

theorem witness_LiteralValueIsExactDecimal :
    Literal.wellFormed ⟨false, [9, 9, 9, 9, 9], none⟩ = true ∧
      Literal.wellFormed ⟨false, [9], some [9, 9, 9]⟩ = true := by decide

theorem witness_RoundingTiesAwayFromZero :
    |(roundQ (1 / 2) : Rat) - 1 / 2| = 1 / 2 ∧ |(roundQ (-1 / 2) : Rat) - -1 / 2| = 1 / 2 ∧
      (0 : Rat) ≤ 0 ∧ (-1 / 2 : Rat) < 0 := by decide +kernel

theorem witness_AmplitudeTelegram :
    (0 ≤ Literal.fval ⟨true, [0], none⟩ ∧ Literal.fval ⟨true, [0], none⟩ ≤ 10) ∧
      (0 ≤ Literal.fval ⟨false, [1, 0], some [0, 0]⟩ ∧ Literal.fval ⟨false, [1, 0], some [0, 0]⟩ ≤ 10) ∧
      ¬ (0 ≤ Literal.fval ⟨false, [1, 0], some [0, 1]⟩ ∧ Literal.fval ⟨false, [1, 0], some [0, 1]⟩ ≤ 10) := by
  decide +kernel

theorem witness_OffsetTelegram :
    (-10 ≤ Literal.fval ⟨true, [1, 0], some [0]⟩ ∧ Literal.fval ⟨true, [1, 0], some [0]⟩ ≤ 10) ∧
      (-10 ≤ Literal.fval ⟨false, [1, 0], none⟩ ∧ Literal.fval ⟨false, [1, 0], none⟩ ≤ 10) ∧
      ¬ (-10 ≤ Literal.fval ⟨true, [1, 0], some [1]⟩ ∧ Literal.fval ⟨true, [1, 0], some [1]⟩ ≤ 10) := by
  decide +kernel

theorem witness_FrequencyTelegram :
    Literal.ival ⟨false, [1], some [9]⟩ = ((1 : Nat) : Int) ∧
      Literal.ival ⟨false, [1, 0, 0, 0, 0], none⟩ = ((10000 : Nat) : Int) ∧
      ¬ (1 ≤ Literal.ival ⟨false, [0], some [9]⟩ ∧ Literal.ival ⟨false, [0], some [9]⟩ ≤ 10000) ∧
      ¬ (1 ≤ Literal.ival ⟨false, [1, 0, 0, 0, 1], none⟩ ∧ Literal.ival ⟨false, [1, 0, 0, 0, 1], none⟩ ≤ 10000) := by
  decide +kernel

theorem witness_ShapeTelegram :
    Literal.ival ⟨false, [1], none⟩ = 1 ∧ Literal.ival ⟨false, [2], some [7]⟩ = 2 ∧
      Literal.ival ⟨false, [3], none⟩ = 3 ∧ Literal.ival ⟨false, [4], none⟩ = 4 ∧
      Literal.ival ⟨false, [5], none⟩ = 5 ∧
      ¬ (1 ≤ Literal.ival ⟨false, [6], none⟩ ∧ Literal.ival ⟨false, [6], none⟩ ≤ 5) ∧
      ¬ (1 ≤ Literal.ival ⟨false, [0], none⟩ ∧ Literal.ival ⟨false, [0], none⟩ ≤ 5) := by decide +kernel

theorem witness_TelegramsWriteAtMostOneField :
    ∃ t, exec (Telegram.toInstr (.am .one 0x5F ⟨false, [1, 1], none⟩)) demo = .next t ∧
      t.errPending ≠ demo.errPending :=
  ⟨_, rfl, by decide +kernel⟩

theorem witness_RxPassConsumesOneByte :
    ({ demo with rxQueue := [0x41] } : State).rxQueue = [0x41] ∧ (0x41 : Byte) ≠ 0x21 ∧
      ({ demo with rxQueue := [0x21] } : State).rxQueue = [0x21] ∧ demo.rxQueue = [] := ⟨rfl, by decide, rfl, rfl⟩

theorem witness_AccumulateStoresAtEnd :
    ({ demo with cmdLen := 8 } : State).cmdLen < 9 ∧ ({ demo with cmdLen := 8 } : State).cmdBuf.wf := by decide

theorem witness_OverflowByteRaisesFormatError : ({ demo with cmdLen := 9 } : State).cmdLen = 9 := rfl

theorem witness_ParseRunsTelegramOrRaises :
    decodeBody (cmdBody (withBody continueeBytes)) = .accept .continuee ∧
      decodeBody (cmdBody demo) = .reject .tooShort := by decide

theorem witness_ReplyPassPriority :
    demo.errPending = false ∧ demo.ackPending = false ∧ demo.resumePending = false ∧
      ({ demo with errPending := true } : State).errPending = true ∧
      ({ demo with ackPending := true } : State).ackPending = true ∧
      ({ demo with resumePending := true } : State).resumePending = true := ⟨rfl, rfl, rfl, rfl, rfl, rfl⟩

theorem witness_AckBranchResynthesizes :
    ((withFreq 6000).desc.one.frequency ≥ 6000) ∧
      ((withFreq 5999).desc.one.frequency < 6000 ∧ (withFreq 5999).desc.two.frequency < 6000) ∧
      (∃ t, exec .ackBranch (withFreq 174) = .next t ∧ ((withFreq 174).desc.get .one).frequency < t.tfInt) ∧
      ∃ t, exec .ackBranch (withFreq 175) = .next t ∧ t.tfInt ≤ ((withFreq 175).desc.get .one).frequency :=
  ⟨by decide, by decide, ⟨_, rfl, by decide⟩, ⟨_, rfl, by decide⟩⟩

theorem witness_ModeEvalThreshold :
    6000 ≤ (withFreq 6000).desc.one.frequency ∧
      (withFreq 5999).desc.one.frequency < 6000 ∧ (withFreq 5999).desc.two.frequency < 6000 := by decide

theorem witness_ScaleTableEntries : 0 < 256 ∧ 255 < 256 ∧ Space.cmdBuf ≠ .scaled .one ∧ Space.scaled .two ≠ .scaled .one := by
  decide

theorem witness_HoldScheduleDerived :
    1 ≤ ((withFreq 1).desc.get .one).frequency ∧ ((withFreq 1).desc.get .one).frequency < (withFreq 1).tfInt ∧
      ((withFreq 174).desc.get .one).frequency < (withFreq 174).tfInt := by decide

theorem witness_SkipScheduleDerived :
    1 ≤ (withFreq 175).tfInt ∧ (withFreq 175).tfInt ≤ ((withFreq 175).desc.get .one).frequency := by decide

theorem witness_DeriveScheduleSelects :
    ((withFreq 174).desc.get .one).frequency < (withFreq 174).tfInt ∧
      (withFreq 175).tfInt ≤ ((withFreq 175).desc.get .one).frequency := by decide

theorem witness_RecomputeRewritesOneChannel :
    ((withFreq 174).desc.get .one).frequency < (withFreq 174).tfInt ∧
      (withFreq 175).tfInt ≤ ((withFreq 175).desc.get .one).frequency ∧
      Channel.two ≠ .one ∧ Space.scaled .two ≠ .scaled .one := by decide

theorem witness_RecomputedTableIsDetermined :
    ∃ t t', exec (.recompute .one) demo = .next t ∧ exec (.recompute .one) (withFreq 6000) = .next t' ∧
      (withFreq 6000).params.base = demo.params.base ∧
      ((withFreq 6000).desc.get .one).amplitude = (demo.desc.get .one).amplitude ∧
      ((withFreq 6000).desc.get .one).offset = (demo.desc.get .one).offset ∧
      ((withFreq 6000).desc.get .one).shape = (demo.desc.get .one).shape :=
  ⟨_, _, rfl, rfl, rfl, rfl, rfl, rfl⟩

theorem witness_SampleTickStepsAndPacks :
    demo.sampleTickEnable = true ∧ ({ demo with sampleTickEnable := false } : State).sampleTickEnable = false ∧
      ((withSched ⟨0, 1, 0, 4, 0, 0, 0⟩).sched.get .one).repeatCount ≠ 0 ∧
      ((withSched ⟨0, 0, 1, 0, 0, 0, 0⟩).sched.get .one).inverseRepeat ≠ 0 ∧
      (∃ u, exec (.stepHold .one) demo = .next u) ∧ (∃ u, exec (.stepSkip .two) demo = .next u) ∧
      ∃ u, exec (.pack 0 250) demo = .next u :=
  ⟨rfl, rfl, by decide, by decide, ⟨_, rfl⟩, ⟨_, rfl⟩, ⟨_, rfl⟩⟩

theorem witness_IdleStepChangesNothing :
    (∃ t, exec .sampleTick (withSched Sched.zero) = .next t) ∧
      ((withSched Sched.zero).sched.get .one).repeatCount = 0 ∧
      ((withSched Sched.zero).sched.get .one).inverseRepeat = 0 := ⟨⟨_, rfl⟩, rfl, rfl⟩

theorem witness_HoldStepRule :
    ((withSched ⟨0, 3, 0, 7, 0, 7, 2⟩).sched.get .one).sampleCounter ≤
        ((withSched ⟨0, 3, 0, 7, 0, 7, 2⟩).sched.get .one).thresholdRepeat ∧
      3 ≤ ((withSched ⟨0, 3, 0, 7, 0, 7, 2⟩).sched.get .one).tickCounter + 1 ∧
      ((withSched ⟨0, 3, 0, 7, 0, 8, 2⟩).sched.get .one).thresholdRepeat <
        ((withSched ⟨0, 3, 0, 7, 0, 8, 2⟩).sched.get .one).sampleCounter ∧
      ((withSched ⟨0, 3, 0, 7, 0, 8, 2⟩).sched.get .one).tickCounter + 1 < 4 := by decide

theorem witness_SkipStepRule :
    ((withSched ⟨0, 0, 5, 0, 5, 5, 0⟩).sched.get .one).sampleCounter ≤
        ((withSched ⟨0, 0, 5, 0, 5, 5, 0⟩).sched.get .one).thresholdSkip ∧
      ((withSched ⟨0, 0, 5, 0, 5, 6, 0⟩).sched.get .one).thresholdSkip <
        ((withSched ⟨0, 0, 5, 0, 5, 6, 0⟩).sched.get .one).sampleCounter := by decide

theorem witness_SkipWindowTotalAdvance :
    ({ demo with moves := List.replicate 15 .sampleTick ++ [] } : State).sampleTickEnable = true ∧
      (demo.sched.get .two).repeatCount = 0 ∧ (demo.sched.get .two).inverseRepeat ≠ 0 ∧
      (demo.sched.get .two).sampleCounter = 0 := by decide +kernel

theorem witness_HoldAlwaysAdvances :
    demo.sampleTickEnable = true ∧ (demo.sched.get .one).repeatCount ≠ 0 ∧
      ({ demo with moves := [.sampleTick, .sampleTick] } : State).moves =
        List.replicate ((demo.sched.get .one).repeatCount + 1) .sampleTick ++ [] := by decide +kernel

theorem witness_BoundedWaitNeverHangs : (1 ≤ 1 ∧ 1 ≤ 100) ∧ (1 ≤ 100 ∧ 100 ≤ 100) ∧ (1 ≤ 101 ∧ 100 < 101) := by decide

theorem witness_PrimitivesHandOverRequests :
    ({ demo with busAnswers := [.never] } : State).busAnswers = [.never] ∧ demo.busAnswers = [] ∧
      ({ demo with busAnswers := [.done 100 true 7] } : State).busAnswers = [.done 100 true 7] ∧
      ({ demo with busAnswers := [.done 1 false 7] } : State).busAnswers = [.done 1 false 7] ∧
      1 ≤ 100 ∧ 100 ≤ demo.params.busBudget ∧ demo.params.busBudget < 101 ∧
      (Instr.start = .start ∧ busStart = busStart ∧ BusRequest.start = .start) := by
  refine ⟨rfl, rfl, rfl, rfl, by decide, by decide, by decide, rfl, rfl, rfl⟩

theorem witness_SecTickSetsFlag :
    demo.secTickEnable = true ∧ ({ demo with secTickEnable := false } : State).secTickEnable = false := ⟨rfl, rfl⟩

theorem witness_SecPassServesFlag :
    demo.oneSecondFlag = false ∧ ({ demo with oneSecondFlag := true } : State).oneSecondFlag = true ∧
      demo.tempReportEnable = true ∧ ({ demo with tempReportEnable := false } : State).tempReportEnable = false :=
  ⟨rfl, rfl, rfl, rfl⟩

theorem witness_PollDecidedByAnswers :
    (∀ g ∈ List.replicate 8 ((100, 23) : Nat × Byte), 1 ≤ g.1 ∧ g.1 ≤ demo.params.busBudget) ∧
      (List.replicate 8 ((100, 23) : Nat × Byte)).length = 8 ∧ 1 ≤ 100 ∧ 100 ≤ demo.params.busBudget ∧
      demo.params.busBudget < 101 ∧ ([] : List (Nat × Byte)).length < 9 := by decide

theorem witness_ReportSendsTwoDigits :
    (0 : Byte).toNat = 10 * 0 + 0 ∧ (99 : Byte).toNat = 10 * 9 + 9 ∧ 100 ≤ (100 : Byte).toNat ∧ 100 ≤ (255 : Byte).toNat := by
  decide

theorem witness_StepRunsTheNextMove :
    ({ demo with moves := [.main], passPos := .sec } : State).moves = [.main] ∧
      ({ demo with moves := [.main], passPos := .sec } : State).passPos = .sec ∧
      ({ demo with moves := [.main], passPos := .rx } : State).passPos = .rx ∧
      ({ demo with moves := [.main] } : State).passPos = .reply ∧
      ({ demo with moves := [.sampleTick] } : State).moves = [.sampleTick] ∧ demo.moves = [] :=
  ⟨rfl, rfl, rfl, rfl, rfl, rfl⟩

theorem witness_StepRunsDecodedTelegram :
    ({ withBody continueeBytes with moves := [.main], passPos := .rx, rxQueue := [0x21] } : State).rxQueue = 0x21 :: [] ∧
      decodeBody (cmdBody { withBody continueeBytes with moves := [.main], passPos := .rx, rxQueue := [0x21] }) =
        .accept .continuee := by decide

theorem witness_PlacedTelegramRunsNext :
    State.reset.cmdBuf.wf ∧ decodeTableWord 72 0x434F4E54494E554545 = some .continuee := by decide

theorem witness_HandlersCommute :
    ∃ t u v w, exec .sampleTick demo = .next t ∧ exec (.rxEvent 0x41) t = .next u ∧
      exec (.rxEvent 0x41) demo = .next v ∧ exec .sampleTick v = .next w := ⟨_, _, _, _, rfl, rfl, rfl, rfl⟩

/-- A masked state whose next step lifts the masks. -/
def resuming : State :=
  { demo with resumePending := true, sampleTickEnable := false, secTickEnable := false, moves := [.main] }

theorem witness_ResumeBranchAloneEnablesTicks :
    ∃ t, step resuming = .next t ∧ resuming.sampleTickEnable = false ∧ t.sampleTickEnable = true :=
  ⟨_, rfl, rfl, rfl⟩

theorem witness_TransmitStreamCauses : ∃ t, step { demo with moves := [.main] } = .next t := ⟨_, demo_steps⟩

theorem witness_RegistersHaveOneWriter :
    (∃ t, step { demo with moves := [.main], ackPending := true, desc := demo.desc.set .one ⟨0, 0, 100, .sawtooth⟩ } =
        .next t ∧ t.scaled.one.read 5 ≠ demo.scaled.one.read 5) ∧
      ∃ t, step { withBody [0x41, 0x4D, 0x31, 0x5F, 0x35] with moves := [.main], passPos := .rx, rxQueue := [0x21] } =
        .next t ∧ t.desc ≠ demo.desc :=
  ⟨⟨_, rfl, by decide +kernel⟩, ⟨_, rfl, by decide +kernel⟩⟩

theorem witness_CriticalSectionFreezesOutputs :
    Masked resuming ∧ (∃ t, step resuming = .next t) ∧
      ∃ t, step { demo with moves := [.main], passPos := .rx, rxQueue := [0x41] } = .next t ∧
        nextMove { demo with moves := [.main], passPos := .rx, rxQueue := [0x41] } = .main :=
  ⟨⟨rfl, rfl⟩, ⟨_, rfl⟩, ⟨_, rfl, rfl⟩⟩

theorem witness_ContinueeResumesInTwoPasses :
    let s : State := { withBody continueeBytes with
      moves := List.replicate 6 .main ++ [], passPos := .rx, rxQueue := [0x21] }
    s.passPos = .rx ∧ s.rxQueue = [0x21] ∧
      cmdBody s = [0x43, 0x4F, 0x4E, 0x54, 0x49, 0x4E, 0x55, 0x45, 0x45] ∧
      s.errPending = false ∧ s.oneSecondFlag = false ∧ s.moves = List.replicate 6 .main ++ [] :=
  ⟨rfl, rfl, by decide, rfl, rfl, rfl⟩

/-- The good state of the invariants, with a step from it. -/
def demoMain : State := { demo with moves := [.main] }

theorem demoMain_disciplined : Disciplined demoMain where
  masks_equal := rfl
  err_masked h := nomatch h
  ack_masked h := nomatch h
  resume_masked h := nomatch h
  one_reply := by decide
  replied_before_rx h := nomatch h
  len_le := by decide
  no_terminator := by decide

theorem witness_DisciplineKept :
    MemoryCanonical demoMain ∧ Disciplined demoMain ∧ step demoMain = .next { demo with passPos := .rx } :=
  ⟨⟨demo_memoryCanonical.1, demo_memoryCanonical.2⟩, demoMain_disciplined, demo_steps⟩

theorem witness_CoherenceKept : Coherent demoMain ∧ step demoMain = .next { demo with passPos := .rx } :=
  ⟨demo_coherent, demo_steps⟩

theorem witness_MemoryCanonicalKept :
    MemoryCanonical demoMain ∧ step demoMain = .next { demo with passPos := .rx } :=
  ⟨witness_DisciplineKept.1, demo_steps⟩

theorem witness_ConfigurationAndBoundsKept :
    Configured demoMain ∧ SchedulesBounded demoMain ∧ step demoMain = .next { demo with passPos := .rx } :=
  ⟨⟨tp_legal, fun c => tp_legal.resetDesc_legal c, rfl, rfl, rfl, rfl⟩, demo_schedulesBounded, demo_steps⟩

theorem witness_RunningTablesAreConsistent :
    MemoryCanonical demoMain ∧ Disciplined demoMain ∧ Coherent demoMain ∧
      step demoMain = .next { demo with passPos := .rx } ∧ ({ demo with passPos := .rx } : State).sampleTickEnable = true :=
  ⟨witness_DisciplineKept.1, witness_DisciplineKept.2.1, demo_coherent, demo_steps, rfl⟩

end Sys2Proof.Tests
end

section
/-! PROOF. `round` and `trunc` of R13 on every rational. `round` is odd, so its facts are read off the
floor's bounds for a non-negative argument and carried over to a negative one. -/

namespace Sys2Proof

theorem roundQ_neg (x : Rat) : roundQ (-x) = -roundQ x := by
  rcases lt_trichotomy x 0 with h | rfl | h
  · rw [roundQ, if_pos (by linarith), roundQ, if_neg h.not_ge, neg_neg]
  · have h0 : roundQ 0 = 0 := mod_cast roundQ_natCast 0
    rw [neg_zero, h0, neg_zero]
  · rw [roundQ, if_neg (by linarith), roundQ, if_pos h.le, neg_neg]

theorem truncQ_of_nonneg {x : Rat} (hx : 0 ≤ x) : truncQ x = floorQ x := if_pos hx

theorem truncQ_of_neg {x : Rat} (hx : x < 0) : truncQ x = -floorQ (-x) := if_neg hx.not_ge

/-- The converse of `roundQ_of_nonneg`: the half-open interval around `round` that holds `x`. -/
theorem roundQ_bounds_of_nonneg {x : Rat} (hx : 0 ≤ x) :
    (roundQ x : Rat) - 1 / 2 ≤ x ∧ x < (roundQ x : Rat) + 1 / 2 := by
  have hr : roundQ x = floorQ (x + 1 / 2) := if_pos hx
  rw [hr]
  have hle := floorQ_le (x + 1 / 2)
  have hlt := lt_floorQ_add_one (x + 1 / 2)
  constructor <;> linarith

/-- A fact about `x` and `round x` that does not see a common change of sign need only be shown for `0 ≤ x`. -/
theorem roundQ_wlog_nonneg {P : Rat → Rat → Prop} (hneg : ∀ x r, P (-x) (-r) → P x r)
    (hpos : ∀ x, 0 ≤ x → P x (roundQ x)) (x : Rat) : P x (roundQ x) := by
  rcases le_total 0 x with hx | hx
  · exact hpos x hx
  · have h := hpos (-x) (neg_nonneg.2 hx)
    rw [roundQ_neg, Int.cast_neg] at h
    exact hneg x _ h

/-- `round x` is a nearest integer (R13). -/
theorem abs_roundQ_sub_le (x : Rat) : |(roundQ x : Rat) - x| ≤ 1 / 2 := by
  refine roundQ_wlog_nonneg (P := fun x r => |r - x| ≤ 1 / 2) (fun x r h => ?_) (fun x hx => ?_) x
  · rwa [← neg_sub', abs_neg] at h
  · obtain ⟨hle, hlt⟩ := roundQ_bounds_of_nonneg hx
    exact abs_le.2 ⟨by linarith, by linarith⟩

/-- A tie goes away from zero (R13). For `0 ≤ x` the upper bound of `roundQ_bounds_of_nonneg` is strict, so
the integer at distance `1/2` is the one above `x`. -/
theorem abs_lt_abs_roundQ_of_tie (x : Rat) : |(roundQ x : Rat) - x| = 1 / 2 → |x| < |(roundQ x : Rat)| := by
  refine roundQ_wlog_nonneg (P := fun x r => |r - x| = 1 / 2 → |x| < |r|) (fun x r h => ?_) (fun x hx htie => ?_) x
  · rwa [← neg_sub', abs_neg, abs_neg, abs_neg] at h
  · obtain ⟨hle, hlt⟩ := roundQ_bounds_of_nonneg hx
    have habove : (roundQ x : Rat) - x = 1 / 2 := by
      rcases eq_or_eq_neg_of_abs_eq htie with h | h
      · exact h
      · linarith
    rw [abs_of_nonneg hx, abs_of_nonneg (by linarith)]
    linarith

/-- Settles O7: the two facts about `round`, and the floor's bounds for `trunc` on either side of zero. -/
theorem roundingTiesAwayFromZero : Obligations.RoundingTiesAwayFromZero := by
  refine fun x => ⟨abs_roundQ_sub_le x, abs_lt_abs_roundQ_of_tie x, fun hx => ?_, fun hx => ?_⟩
  · rw [truncQ_of_nonneg hx]
    exact ⟨floorQ_le x, lt_floorQ_add_one x⟩
  · rw [truncQ_of_neg hx, Int.cast_neg]
    have hle := floorQ_le (-x)
    have hlt := lt_floorQ_add_one (-x)
    constructor <;> linarith

end Sys2Proof
end

section
/-! PROOF. Which operation a step runs, by the move at the head of the list (R73, R74, log entry 1). -/

namespace Sys2Proof.Machine

/-- A listed move is the one a step runs, on the state without it. -/
theorem step_of_moves_cons {s : State} {m : Move} {rest : List Move} (h : s.moves = m :: rest) :
    step s = runMove m { s with moves := rest } := by
  rw [step, nextMove, takeMove, h]

/-- With no move listed the step is that of the state with the drawn move listed and the draw counted. -/
theorem step_of_moves_nil {s : State} (h : s.moves = []) :
    step s = step { s with moves := [nextMove s], draws := s.draws + 1 } := by
  cases s
  cases h
  rfl

/-- The main sequencer's operation at pass position `p`, with the position moved on (R180). -/
theorem step_main_at {s : State} {rest : List Move} {p : PassPos} (h : s.moves = .main :: rest) (hp : s.passPos = p) :
    step s = exec (mainOperation p) { s with moves := rest, passPos := p.next } := by
  subst hp
  exact step_main h

/-- Settles O45: one lemma per kind of agent, at each of the three pass positions for the main sequencer. -/
theorem stepRunsTheNextMove : Obligations.StepRunsTheNextMove :=
  fun s _ => ⟨step_main_at, step_main_at, step_main_at, step_of_moves_cons, step_of_moves_cons,
    fun _ => step_of_moves_cons, fun h => ⟨nextMove s, step_of_moves_nil h⟩⟩

end Sys2Proof.Machine
end

section
/-! PROOF. What a step does to the configuration, the mode group, the scaled tables and the schedules: one
inversion lemma (`step_synthStep`), and from it the invariants of R27, R28 and R23 and the single writers of
R21, R61 and R79. -/

namespace Sys2Proof.Machine

/-! ## The frame of everything but the synthesizer -/

/-- `t` has the open parameters, descriptors, mode group, scaled tables and schedules of `s`; the command
buffer, the flags and masks, the port, the streams and the environment's fields may differ. -/
def SynthFrame (s t : State) : Prop :=
  t = { s with
    cmdBuf := t.cmdBuf
    cmdLen := t.cmdLen
    errPending := t.errPending
    ackPending := t.ackPending
    resumePending := t.resumePending
    oneSecondFlag := t.oneSecondFlag
    sampleTickEnable := t.sampleTickEnable
    secTickEnable := t.secTickEnable
    port := t.port
    portTrace := t.portTrace
    rxQueue := t.rxQueue
    txStream := t.txStream
    busRequests := t.busRequests
    passPos := t.passPos
    moves := t.moves
    busAnswers := t.busAnswers
    draws := t.draws }

/-- Both schedules stepped, as an effective `SAMPLE_TICK` does (R151). -/
def stepSchedules (s : State) : State :=
  { s with sched := ⟨schedStep s.sched.one, schedStep s.sched.two⟩ }

theorem stepSchedules_get (s : State) (c : Channel) :
    (stepSchedules s).sched.get c = schedStep (s.sched.get c) := by cases c <;> rfl

namespace SynthFrame

variable {s t u : State}

theorem trans (h1 : SynthFrame s t) (h2 : SynthFrame t u) : SynthFrame s u := by
  unfold SynthFrame at *
  rw [h2, h1]

theorem params_eq (h : SynthFrame s t) : t.params = s.params := by rw [h]

theorem desc_eq (h : SynthFrame s t) : t.desc = s.desc := by rw [h]

theorem scaled_eq (h : SynthFrame s t) : t.scaled = s.scaled := by rw [h]

theorem mode_eq (h : SynthFrame s t) : t.mode = s.mode := by rw [h]

theorem setDesc (h : SynthFrame s t) (c : Channel) (d : Desc) :
    SynthFrame (setDesc c d s) (Machine.setDesc c d t) := by
  rw [h]
  rfl

theorem stepSchedules (h : SynthFrame s t) : SynthFrame (stepSchedules s) (Machine.stepSchedules t) := by
  rw [h]
  rfl

theorem resynthesize (h : SynthFrame s t) : SynthFrame (resynthesize s) (Machine.resynthesize t) := by
  rw [resynthesize_eq, resynthesize_eq, h]
  rfl

theorem tableMatches (h : SynthFrame s t) {c : Channel} (hm : TableMatches c s) : TableMatches c t := by
  rw [h]
  exact hm

theorem scheduleMatches (h : SynthFrame s t) {c : Channel} (hm : ScheduleMatches c s) : ScheduleMatches c t := by
  rw [h]
  exact hm

theorem configured (h : SynthFrame s t) (hc : Configured s) : Configured t := by
  rw [h]
  exact ⟨hc.params_legal, hc.desc_legal, hc.tfInt_eq, hc.tfFloat_eq, hc.tickRate_eq, hc.report_eq⟩

theorem schedulesBounded (h : SynthFrame s t) (hb : SchedulesBounded s) : SchedulesBounded t := by
  rw [h]
  exact hb

end SynthFrame

/-! ## What each operation does to the synthesizer's state -/

/-- What one step does to the configuration and the synthesizer's state, and to the debt of a re-synthesis. -/
inductive SynthStep (s t : State) : Prop where
  /-- nothing, and a debt is not forgiven -/
  | kept (frame : SynthFrame s t) (ack : t.ackPending = false → s.ackPending = false)
  /-- an effective `SAMPLE_TICK` (R151) -/
  | ticked (frame : SynthFrame (stepSchedules s) t) (ack : t.ackPending = s.ackPending)
  /-- an accepted configuration telegram (R187) -/
  | configured (c : Channel) (d : Desc) (move : nextMove s = .main) (pass : s.passPos = .rx)
      (head : s.rxQueue.head? = some terminator) (legal : (s.desc.get c).Legal → d.Legal)
      (frame : SynthFrame (setDesc c d s) t) (ack : t.ackPending = true)
  /-- the acknowledgment branch of `REPLY_PASS` (R202) -/
  | resynthesized (move : nextMove s = .main) (pass : s.passPos = .reply) (noErr : s.errPending = false)
      (owed : s.ackPending = true) (frame : SynthFrame (resynthesize s) t)

theorem takeMove_synthFrame (s : State) : SynthFrame s (takeMove s) := by
  rw [takeMove_frame]
  rfl

theorem advance_takeMove_synthFrame (s : State) : SynthFrame s (advancePass (takeMove s)) :=
  (takeMove_synthFrame s).trans rfl

/-- `SEC_PASS` touches the one-second flag, the bus, the transmit stream and the draws alone (R241). -/
theorem secPass_frame (s : State) :
    secPass s = { s with
      oneSecondFlag := (secPass s).oneSecondFlag
      busRequests := (secPass s).busRequests
      txStream := (secPass s).txStream
      busAnswers := (secPass s).busAnswers
      draws := (secPass s).draws } := by
  rcases secPass_cases s with ⟨-, h⟩ | ⟨-, -, h⟩ | ⟨-, -, h⟩ <;> rw [h]
  · rfl
  · obtain ⟨k, -, -, -, -, hpoll⟩ := poll_cases (setOneSecond false s)
    rw [hpoll]
    rfl

/-- `SEC_TICK` touches the one-second flag alone (R240). -/
theorem secTick_frame (s : State) : secTick s = { s with oneSecondFlag := (secTick s).oneSecondFlag } := by
  unfold secTick
  split <;> rfl

theorem runTick_synthFrame (s : State) :
    SynthFrame (stepSchedules s) (runTick s) ∧ (runTick s).ackPending = s.ackPending := by
  rw [runTick_eq]
  exact ⟨rfl, rfl⟩

theorem ackBranch_synthFrame (s : State) : SynthFrame (resynthesize s) (ackBranch s) := by
  unfold ackBranch
  generalize resynthesize s = r
  rfl

/-- `REPLY_PASS` re-synthesizes when an acknowledgment and no error is owed, and otherwise leaves the
synthesizer's state and the debt alone (R200). -/
theorem replyPass_synth (s : State) :
    (SynthFrame s (replyPass s) ∧ (replyPass s).ackPending = s.ackPending) ∨
    (s.errPending = false ∧ s.ackPending = true ∧ SynthFrame (resynthesize s) (replyPass s)) := by
  rcases replyPass_cases s with ⟨-, h⟩ | ⟨herr, hack, h⟩ | ⟨-, -, -, h⟩ | ⟨-, -, -, h⟩ <;> rw [h]
  · exact .inl ⟨rfl, rfl⟩
  · exact .inr ⟨herr, hack, ackBranch_synthFrame s⟩
  · exact .inl ⟨rfl, rfl⟩
  · exact .inl ⟨rfl, rfl⟩

/-- `RX_PASS` writes a descriptor only at a terminator, and then owes an acknowledgment (R181, R187). -/
theorem rxPass_synth (s : State) :
    (SynthFrame s (rxPass s) ∧ ((rxPass s).ackPending = false → s.ackPending = false)) ∨
    (s.rxQueue.head? = some terminator ∧ (rxPass s).ackPending = true ∧
      ∃ c d, ((s.desc.get c).Legal → d.Legal) ∧ SynthFrame (setDesc c d s) (rxPass s)) := by
  rcases rxPass_cases s with ⟨-, h⟩ | ⟨ch, rest, hq, ⟨-, -, h⟩ | h | ⟨rfl, tg, -, h⟩⟩ <;> rw [h]
  · exact .inl ⟨rfl, id⟩
  · exact .inl ⟨rfl, id⟩
  · exact .inl ⟨rfl, id⟩
  · rcases applyTelegram_cases tg (setTicks false (setRxQueue rest s)) with
      h | h | ⟨c, d, h, hlegal, -⟩ <;> rw [h]
    · exact .inl ⟨rfl, id⟩
    · exact .inl ⟨rfl, nofun⟩
    · exact .inr ⟨by rw [hq, List.head?_cons], rfl, c, d, hlegal, rfl⟩

/-- Every step is one of the four kinds. -/
theorem step_synthStep {s t : State} (h : step s = .next t) : SynthStep s t := by
  have hadv := advance_takeMove_synthFrame s
  have htake := takeMove_synthFrame s
  rcases step_cases h with ⟨hm, hp, rfl⟩ | ⟨hm, hp, rfl⟩ | ⟨-, -, rfl⟩ | ⟨-, rfl⟩ | ⟨-, rfl⟩ | ⟨b, -, rfl⟩ |
    ⟨v, -, rfl⟩
  · rcases replyPass_synth (advancePass (takeMove s)) with ⟨hf, hack⟩ | ⟨herr, howed, hf⟩
    · exact .kept (hadv.trans hf) (by simp [hack])
    · exact .resynthesized hm hp (by simpa using herr) (by simpa using howed) (hadv.resynthesize.trans hf)
  · rcases rxPass_synth (advancePass (takeMove s)) with ⟨hf, hack⟩ | ⟨hhead, hack, c, d, hlegal, hf⟩
    · exact .kept (hadv.trans hf) (by simpa using hack)
    · exact .configured c d hm hp (by simpa using hhead) (by simpa using hlegal) ((hadv.setDesc c d).trans hf) hack
  · rw [secPass_frame]
    exact .kept (hadv.trans rfl) (by simp)
  · unfold sampleTick
    split
    · obtain ⟨hf, hack⟩ := runTick_synthFrame (takeMove s)
      exact .ticked (htake.stepSchedules.trans hf) (by simp [hack])
    · exact .kept htake (by simp)
  · rw [secTick_frame]
    exact .kept (htake.trans rfl) (by simp)
  · exact .kept (htake.trans rfl) (by simp [rxEvent])
  · exact .kept (htake.trans rfl) (by simp)

/-! ## Coherence (R27, R203, R206) -/

/-- Stepping the schedules leaves their parameters (R150). -/
theorem stepSchedules_scheduleMatches {s : State} {c : Channel} (h : ScheduleMatches c s) :
    ScheduleMatches c (stepSchedules s) := by
  obtain ⟨hr, hi, htr, hts⟩ := schedStep_params (s.sched.get c)
  unfold ScheduleMatches
  rw [stepSchedules_get, hr, hi, htr, hts]
  exact h

/-- A re-synthesis rewrites both tables from the current descriptors (R123). -/
theorem resynthesize_tableMatches (c : Channel) (s : State) : TableMatches c (resynthesize s) := by
  intro i hi
  rw [resynthesize_eq]
  cases c <;> exact read_scaledTable _ _ hi

/-- A re-synthesis derives both schedules from the current descriptors (R125 to R127). -/
theorem resynthesize_scheduleMatches (c : Channel) (s : State) : ScheduleMatches c (resynthesize s) := by
  rw [resynthesize_eq]
  cases c <;> exact ⟨rfl, rfl, rfl, rfl⟩

theorem resynthesize_mode (s : State) : (resynthesize s).mode = modeOf (resynthesize s).desc := by
  rw [resynthesize_eq]

/-- Settles O56: by the four kinds of step. -/
theorem coherenceKept : Obligations.CoherenceKept := by
  intro s t hcoh hstep hack
  cases step_synthStep hstep with
  | kept frame ack =>
    obtain ⟨hmode, hmatch⟩ := hcoh (ack hack)
    refine ⟨by rw [frame.mode_eq, frame.desc_eq, hmode], fun c => ?_⟩
    obtain ⟨htable, hsched⟩ := hmatch c
    exact ⟨frame.tableMatches htable, frame.scheduleMatches hsched⟩
  | ticked frame ack =>
    obtain ⟨hmode, hmatch⟩ := hcoh (ack ▸ hack)
    refine ⟨by rw [frame.mode_eq, frame.desc_eq]; exact hmode, fun c => ?_⟩
    obtain ⟨htable, hsched⟩ := hmatch c
    exact ⟨frame.tableMatches htable, frame.scheduleMatches (stepSchedules_scheduleMatches hsched)⟩
  | configured c d move pass head legal frame ack => simp [ack] at hack
  | resynthesized move pass noErr owed frame =>
    refine ⟨by rw [frame.mode_eq, frame.desc_eq, resynthesize_mode], fun c => ?_⟩
    exact ⟨frame.tableMatches (resynthesize_tableMatches c s), frame.scheduleMatches (resynthesize_scheduleMatches c s)⟩

/-! ## Configuration and bounds (R20, R22, R23, R28, R29) -/

/-- A schedule right after its derivation is within its bounds (R23). -/
theorem freshSched_schedBounded {tInt : Nat} {tFloat : Rat} {d : Desc} (hT : 1 ≤ tInt) (hd : d.Legal) :
    SchedBounded tInt (freshSched tInt tFloat d) := by
  obtain ⟨hrep, hinv, hone, htr, hts, hsc, htc⟩ := freshSched_bounds (tFloat := tFloat) hT hd
  exact ⟨hrep, hinv, hone, htr, hts, by omega, by omega⟩

/-- A step of the schedule keeps its bounds (R23). -/
theorem schedStep_schedBounded {tInt : Nat} {k : Sched} (h : SchedBounded tInt k) :
    SchedBounded tInt (schedStep k) := by
  obtain ⟨hr, hi, htr, hts⟩ := schedStep_params k
  obtain ⟨hsc, htc⟩ := schedStep_counters h.sampleCounter_lt h.tickCounter_le
  constructor
  case sampleCounter_lt => exact hsc
  case tickCounter_le => rw [hr]; exact htc
  case repeat_le => rw [hr]; exact h.repeat_le
  case inverse_le => rw [hi]; exact h.inverse_le
  case exactly_one => rw [hr, hi]; exact h.exactly_one
  case thresholdRepeat_le => rw [htr]; exact h.thresholdRepeat_le
  case thresholdSkip_le => rw [hts]; exact h.thresholdSkip_le

theorem stepSchedules_configured {s : State} (h : Configured s) : Configured (stepSchedules s) :=
  ⟨h.params_legal, h.desc_legal, h.tfInt_eq, h.tfFloat_eq, h.tickRate_eq, h.report_eq⟩

theorem stepSchedules_schedulesBounded {s : State} (h : SchedulesBounded s) : SchedulesBounded (stepSchedules s) := by
  intro c
  rw [stepSchedules_get]
  exact schedStep_schedBounded (h c)

theorem setDesc_configured {s : State} {c : Channel} {d : Desc} (h : Configured s)
    (hd : (s.desc.get c).Legal → d.Legal) : Configured (setDesc c d s) := by
  refine ⟨h.params_legal, fun e => ?_, h.tfInt_eq, h.tfFloat_eq, h.tickRate_eq, h.report_eq⟩
  show ((s.desc.set c d).get e).Legal
  by_cases he : e = c
  · subst he
    rw [PerChannel.get_set_same]
    exact hd (h.desc_legal e)
  · rw [PerChannel.get_set_other _ _ he]
    exact h.desc_legal e

/-- A re-synthesis loads the constants of the mode (R204, R205), whatever they were. -/
theorem resynthesize_configured {s : State} (hp : s.params.Legal) (hd : ∀ c, (s.desc.get c).Legal) :
    Configured (resynthesize s) := by
  rw [resynthesize_eq]
  exact ⟨hp, hd, rfl, rfl, rfl, rfl⟩

theorem resynthesize_schedulesBounded {s : State} (hp : s.params.Legal) (hd : ∀ c, (s.desc.get c).Legal) :
    SchedulesBounded (resynthesize s) := by
  rw [resynthesize_eq]
  intro c
  cases c
  · exact freshSched_schedBounded (hp.tInt_pos _) (hd .one)
  · exact freshSched_schedBounded (hp.tInt_pos _) (hd .two)

/-- Settles O58: by the four kinds of step. -/
theorem configurationAndBoundsKept : Obligations.ConfigurationAndBoundsKept := by
  intro s t hconf hbound hstep
  cases step_synthStep hstep with
  | kept frame ack => exact ⟨frame.configured hconf, frame.schedulesBounded hbound⟩
  | ticked frame ack =>
    exact ⟨frame.configured (stepSchedules_configured hconf),
      frame.schedulesBounded (stepSchedules_schedulesBounded hbound)⟩
  | configured c d move pass head legal frame ack =>
    exact ⟨frame.configured (setDesc_configured hconf legal), frame.schedulesBounded (s := setDesc c d s) hbound⟩
  | resynthesized move pass noErr owed frame =>
    exact ⟨frame.configured (resynthesize_configured hconf.params_legal hconf.desc_legal),
      frame.schedulesBounded (resynthesize_schedulesBounded hconf.params_legal hconf.desc_legal)⟩

/-! ## Single writers (R21, R61, R79) -/

/-- Settles O52: of the four kinds of step one writes a descriptor and one the tables. -/
theorem registersHaveOneWriter : Obligations.RegistersHaveOneWriter := by
  intro s t hstep
  cases step_synthStep hstep with
  | kept frame ack =>
    exact ⟨frame.params_eq, fun hne => absurd frame.desc_eq hne, fun hne => absurd frame.scaled_eq hne⟩
  | ticked frame ack =>
    exact ⟨frame.params_eq, fun hne => absurd frame.desc_eq hne, fun hne => absurd frame.scaled_eq hne⟩
  | configured c d move pass head legal frame ack =>
    exact ⟨frame.params_eq, fun _ => ⟨move, pass, head, ack⟩, fun hne => absurd frame.scaled_eq hne⟩
  | resynthesized move pass noErr owed frame =>
    have hparams := frame.params_eq
    have hdesc := frame.desc_eq
    rw [resynthesize_eq] at hparams hdesc
    exact ⟨hparams, fun hne => absurd hdesc hne, fun _ => ⟨move, pass, noErr, owed⟩⟩

end Sys2Proof.Machine
end

section
/-! PROOF. The frame of the five telegrams (R186 to R192), and what it says of the masks: no acknowledgment is
owed while the ticks run (R212), so the running tables are the current ones (R27, R76); and the
receive queue's one writer (R50). -/

namespace Sys2Proof.Machine

/-- A telegram writes descriptors, `cmdLen` and the three pending flags at most (R187, R188, R186). -/
theorem applyTelegram_frame (tg : Telegram) (s : State) :
    applyTelegram tg s = { s with
      desc := (applyTelegram tg s).desc
      cmdLen := (applyTelegram tg s).cmdLen
      errPending := (applyTelegram tg s).errPending
      ackPending := (applyTelegram tg s).ackPending
      resumePending := (applyTelegram tg s).resumePending } := by
  rcases applyTelegram_cases tg s with h | h | ⟨c, d, h, -, -⟩ <;> rw [h] <;> rfl

/-- A telegram that raises `errPending` writes no descriptor (R188). -/
theorem applyTelegram_desc_of_err {tg : Telegram} {s : State}
    (h : (applyTelegram tg s).errPending ≠ s.errPending) : (applyTelegram tg s).desc = s.desc := by
  rcases applyTelegram_cases tg s with he | he | ⟨c, d, he, -, -⟩ <;> rw [he] at h ⊢
  · rfl
  · rfl
  · exact absurd rfl h

/-- A telegram writes at most one field of one channel's descriptor (R187). -/
theorem applyTelegram_desc (tg : Telegram) (s : State) :
    ∃ c, (∀ d, d ≠ c → (applyTelegram tg s).desc.get d = s.desc.get d) ∧
      ((applyTelegram tg s).desc.get c =
          { s.desc.get c with amplitude := ((applyTelegram tg s).desc.get c).amplitude } ∨
        (applyTelegram tg s).desc.get c =
          { s.desc.get c with offset := ((applyTelegram tg s).desc.get c).offset } ∨
        (applyTelegram tg s).desc.get c =
          { s.desc.get c with frequency := ((applyTelegram tg s).desc.get c).frequency } ∨
        (applyTelegram tg s).desc.get c =
          { s.desc.get c with shape := ((applyTelegram tg s).desc.get c).shape }) := by
  rcases applyTelegram_cases tg s with h | h | ⟨c, d, h, -, hfield⟩ <;> rw [h]
  · exact ⟨.one, fun _ _ => rfl, .inl rfl⟩
  · exact ⟨.one, fun _ _ => rfl, .inl rfl⟩
  · refine ⟨c, fun e he => PerChannel.get_set_other _ _ he, ?_⟩
    have hget : (setAckPending true (setDesc c d s)).desc.get c = d := PerChannel.get_set_same _ _ _
    rw [hget]
    exact hfield

/-- Settles O13: the frame of a telegram, and the one field it may write. -/
theorem telegramsWriteAtMostOneField : Obligations.TelegramsWriteAtMostOneField := by
  intro tg s t h
  rw [exec_toInstr] at h
  obtain rfl := Host.Outcome.next.inj h
  refine ⟨fun sp a => ?_, applyTelegram_frame tg s, applyTelegram_desc_of_err, applyTelegram_desc tg s⟩
  rw [applyTelegram_frame]
  cases sp <;> rfl

/-- `RX_PASS` does nothing, or masks the ticks (R181). -/
theorem rxPass_eq_or_masked (s : State) : rxPass s = s ∨ (rxPass s).sampleTickEnable = false := by
  rcases rxPass_cases s with ⟨-, h⟩ | ⟨ch, rest, -, ⟨-, -, h⟩ | h | ⟨-, tg, -, h⟩⟩
  · exact .inl h
  · exact .inr (by rw [h]; rfl)
  · exact .inr (by rw [h]; rfl)
  · exact .inr (by rw [h, applyTelegram_frame]; rfl)

/-- `REPLY_PASS` enables the ticks only when no acknowledgment is owed (R200, R208). -/
theorem replyPass_ack_masked {s : State} (h : s.ackPending = true → s.sampleTickEnable = false) :
    (replyPass s).ackPending = true → (replyPass s).sampleTickEnable = false := by
  rcases replyPass_cases s with ⟨-, he⟩ | ⟨-, -, he⟩ | ⟨-, hack, -, he⟩ | ⟨-, -, -, he⟩ <;> rw [he]
  · exact h
  · exact nofun
  · intro hack'
    exact absurd (hack.symm.trans hack') nofun
  · exact h

/-- No step leaves an acknowledgment owed while the ticks run (R212). -/
theorem step_ack_masked {s t : State} (hstep : step s = .next t)
    (h : s.ackPending = true → s.sampleTickEnable = false) : t.ackPending = true → t.sampleTickEnable = false := by
  rcases step_cases hstep with ⟨-, -, rfl⟩ | ⟨-, -, rfl⟩ | ⟨-, -, rfl⟩ | ⟨-, rfl⟩ | ⟨-, rfl⟩ | ⟨b, -, rfl⟩ |
    ⟨v, -, rfl⟩
  · exact replyPass_ack_masked (by simpa using h)
  · rcases rxPass_eq_or_masked (advancePass (takeMove s)) with he | hmask
    · rw [he]
      simpa using h
    · exact fun _ => hmask
  · rw [secPass_frame]
    simpa using h
  · unfold sampleTick
    split
    · rw [runTick_eq]
      simpa using h
    · simpa using h
  · rw [secTick_frame]
    simpa using h
  · simpa [rxEvent] using h
  · simpa using h

/-- Settles O59: while the ticks run no acknowledgment is owed, so coherence speaks of the current descriptors. -/
theorem runningTablesAreConsistent : Obligations.RunningTablesAreConsistent := by
  intro s t _ hdisc hcoh hstep hrun
  have hack : t.ackPending = false := by
    have hmasked := step_ack_masked hstep hdisc.ack_masked
    rw [hrun] at hmasked
    simpa using hmasked
  exact (coherenceKept s t hcoh hstep hack).2

/-- Settles O42: `RX_EVENT` is the one write of the queue (R50). -/
theorem rxEventAppendsAtTail : Obligations.RxEventAppendsAtTail :=
  fun _ _ => rfl

end Sys2Proof.Machine
end

section
/-! PROOF. What a step does to the byte-wide memories (R60, R62, R63): the scaled tables stay or are rewritten
by a re-synthesis, the command buffer stays or takes one byte at `cmdLen` with room left; both keep the
canonical form and the address space. -/

namespace Sys2Proof.Machine

/-! ## The scaled tables -/

/-- Every step leaves the scaled tables or rewrites both from the descriptors (R62, R123). -/
theorem step_scaled {s t : State} (h : step s = .next t) :
    t.scaled = s.scaled ∨ ∀ c, t.scaled.get c = scaledTable s.params.base (s.desc.get c) := by
  cases step_synthStep h with
  | kept frame _ => exact .inl frame.scaled_eq
  | ticked frame _ => exact .inl frame.scaled_eq
  | configured _ _ _ _ _ _ frame _ => exact .inl frame.scaled_eq
  | resynthesized _ _ _ _ frame =>
    refine .inr fun c => ?_
    rw [frame.scaled_eq, resynthesize_eq]
    cases c <;> rfl

/-! ## The command buffer -/

/-- `REPLY_PASS` empties the buffer by `cmdLen` alone: its cells stay (R201, R207, R208). -/
theorem replyPass_cmdBuf (s : State) : (replyPass s).cmdBuf = s.cmdBuf := by
  rcases replyPass_cases s with ⟨-, h⟩ | ⟨-, -, h⟩ | ⟨-, -, -, h⟩ | ⟨-, -, -, h⟩ <;> rw [h]
  · rfl
  · rw [ackBranch_eq, resynthesize_eq]
  · rfl

/-- `RX_PASS` leaves the cells of the buffer or stores one byte at `cmdLen` while there is room (R182, R63). -/
theorem rxPass_cmdBuf (s : State) :
    (rxPass s).cmdBuf = s.cmdBuf ∨
    ∃ ch, s.cmdLen < cmdCap ∧ (rxPass s).cmdBuf = s.cmdBuf.write s.cmdLen ch := by
  rcases rxPass_cases s with ⟨-, h⟩ | ⟨ch, rest, -, ⟨-, hroom, h⟩ | h | ⟨-, tg, -, h⟩⟩ <;> rw [h]
  · exact .inl rfl
  · exact .inr ⟨ch, hroom, rfl⟩
  · exact .inl rfl
  · rw [applyTelegram_frame]
    exact .inl rfl

/-- Every step leaves the cells of the command buffer or stores one byte at `cmdLen` while there is room. -/
theorem step_cmdBuf {s t : State} (h : step s = .next t) :
    t.cmdBuf = s.cmdBuf ∨ ∃ ch, s.cmdLen < cmdCap ∧ t.cmdBuf = s.cmdBuf.write s.cmdLen ch := by
  rcases step_cases h with ⟨-, -, rfl⟩ | ⟨-, -, rfl⟩ | ⟨-, -, rfl⟩ | ⟨-, rfl⟩ | ⟨-, rfl⟩ | ⟨b, -, rfl⟩ |
    ⟨v, -, rfl⟩
  · exact .inl (by simp [replyPass_cmdBuf])
  · simpa using rxPass_cmdBuf (advancePass (takeMove s))
  · rw [secPass_frame]
    exact .inl (by simp)
  · unfold sampleTick
    split
    · rw [runTick_eq]
      exact .inl (by simp)
    · exact .inl (by simp)
  · rw [secTick_frame]
    exact .inl (by simp)
  · exact .inl (by simp [rxEvent])
  · exact .inl (by simp)

/-! ## The canonical form -/

/-- Settles O57: a rewritten table is `scaledTable`'s, and a byte stored with room left is in the buffer's space. -/
theorem memoryCanonicalKept : Obligations.MemoryCanonicalKept := by
  intro s t ⟨hscaled, hbuf_wf, hbuf_space⟩ hstep
  constructor
  case scaled_wf =>
    intro c
    rcases step_scaled hstep with hkept | hfresh
    · rw [hkept]
      exact hscaled c
    · rw [hfresh c]
      exact scaledTable_wf _ _
  case cmdBuf_wf =>
    rcases step_cmdBuf hstep with hkept | ⟨ch, hroom, hstored⟩
    · rw [hkept]
      exact ⟨hbuf_wf, hbuf_space⟩
    · rw [hstored]
      exact ⟨Memory.write_wf hbuf_wf _ _, Memory.write_inSpace hbuf_space hroom _⟩

end Sys2Proof.Machine
end

section
/-! PROOF. The decoder and the encoder undo one another (R91 to R96), and every other body is rejected by the
first test of R101 that it fails. Each reader's two directions are in Laws/Decode; here they are put together. -/

namespace Sys2Proof

/-! ## The encoder -/

/-- Only the telegrams have an encoding (R2). -/
theorem encode_eq_some {i : Instr} {body : List Byte} (h : encode i = some body) :
    ∃ tg : Telegram, tg.toInstr = i ∧ tg.encode = body := by
  cases i
  case am c pad v => exact ⟨.am c pad v, rfl, Option.some.inj h⟩
  case of c pad v => exact ⟨.of c pad v, rfl, Option.some.inj h⟩
  case fr c pad v => exact ⟨.fr c pad v, rfl, Option.some.inj h⟩
  case wa c pad v => exact ⟨.wa c pad v, rfl, Option.some.inj h⟩
  case continuee => exact ⟨.continuee, rfl, Option.some.inj h⟩
  all_goals exact nomatch h

theorem wellFormed_toInstr (tg : Telegram) : tg.toInstr.wellFormed = tg.wellFormed := by
  cases tg <;> rfl

theorem wellFormed_configTelegram (op : Opcode) (c : Channel) (pad : Byte) (v : Literal) :
    (configTelegram op c pad v).wellFormed = (padWellFormed pad && v.wellFormed) := by
  cases op <;> rfl

/-- A telegram is `CONTINUEE` or a configuration telegram (R91, R92). -/
theorem telegram_cases (tg : Telegram) :
    tg = .continuee ∨ ∃ op c pad v, tg = configTelegram op c pad v := by
  cases tg with
  | am c pad v => exact .inr ⟨.am, c, pad, v, rfl⟩
  | of c pad v => exact .inr ⟨.of, c, pad, v, rfl⟩
  | fr c pad v => exact .inr ⟨.fr, c, pad, v, rfl⟩
  | wa c pad v => exact .inr ⟨.wa, c, pad, v, rfl⟩
  | continuee => exact .inl rfl

theorem Literal.wellFormed_iff (v : Literal) : v.wellFormed = true ↔ v.int ≠ [] ∧ v.width ≤ 5 := by
  simp [Literal.wellFormed]

/-! ## The tests of the decoder, in their order (R101) -/

theorem decodeBody_continuee : decodeBody continueeBytes = .accept .continuee := if_pos rfl

theorem ne_continueeBytes_of_length {t : List Byte} (h : t.length ≠ cmdCap) : t ≠ continueeBytes := by
  rintro rfl
  exact h rfl

theorem decodeBody_of_long {t : List Byte} (h : cmdCap < t.length) : decodeBody t = .reject .overflow := by
  rw [decodeBody, if_neg (ne_continueeBytes_of_length h.ne'), if_pos h]

theorem decodeBody_of_length_le {t : List Byte} (hne : t ≠ continueeBytes) (h : t.length ≤ cmdCap) :
    decodeBody t = decodeConfig t := by
  rw [decodeBody, if_neg hne, if_neg h.not_gt]

theorem decodeConfig_of_lt {t : List Byte} (h : t.length < 5) : decodeConfig t = .reject .tooShort := by
  unfold decodeConfig
  split
  · simp only [List.length_cons] at h
    omega
  · rfl

/-- Whatever `decodeBody` accepts is `CONTINUEE`, or has room in the buffer and passes tests 2 to 5. -/
theorem decodeBody_accept {t : List Byte} {tg : Telegram} (h : decodeBody t = .accept tg) :
    (t = continueeBytes ∧ tg = .continuee) ∨ (t.length ≤ cmdCap ∧ decodeConfig t = .accept tg) := by
  unfold decodeBody at h
  split at h
  · cases h
    exact .inl ⟨‹_›, rfl⟩
  split at h
  · cases h
  · exact .inr ⟨not_lt.1 ‹_›, h⟩

/-! ## The round trip -/

/-- The body of a well-formed telegram is accepted as that telegram. -/
theorem decodeBody_encode {tg : Telegram} (h : tg.wellFormed = true) : decodeBody tg.encode = .accept tg := by
  rcases telegram_cases tg with rfl | ⟨op, c, pad, v, rfl⟩
  · exact decodeBody_continuee
  · rw [wellFormed_configTelegram, Bool.and_eq_true, v.wellFormed_iff] at h
    obtain ⟨-, hint, hwidth⟩ := h
    have hlen : (encodeConfig op c pad v).length ≤ cmdCap := by
      rw [encodeConfig_length, cmdCap]
      omega
    rw [encode_configTelegram, decodeBody_of_length_le (encodeConfig_ne_continuee op c pad v) hlen,
      decodeConfig_encodeConfig op c pad hint]

/-- Settles O1: an operation with an encoding is a telegram, and its body is accepted as that telegram. -/
theorem encodedTelegramsDecodeBack : Obligations.EncodedTelegramsDecodeBack := by
  intro i body hwf henc
  obtain ⟨tg, rfl, rfl⟩ := encode_eq_some henc
  rw [wellFormed_toInstr] at hwf
  rw [decode, decodeBody_encode hwf]

theorem pad_mem_encodeConfig (op : Opcode) (c : Channel) (pad : Byte) (v : Literal) :
    pad ∈ encodeConfig op c pad v := by
  simp [encodeConfig]

/-- Settles O2: the decoder's soundness, and the bound of nine bytes as a bound on the literal's width. -/
theorem acceptedBodiesEncodeBack : Obligations.AcceptedBodiesEncodeBack := by
  intro body tg h
  rcases decodeBody_accept h with ⟨rfl, rfl⟩ | ⟨hlen, hconfig⟩
  · exact ⟨rfl, fun _ => rfl⟩
  · obtain ⟨op, c, pad, v, rfl, rfl, hint⟩ := decodeConfig_sound hconfig
    refine ⟨encode_configTelegram op c pad v, fun hterm => ?_⟩
    have hpad : pad ≠ terminator := hterm pad (pad_mem_encodeConfig op c pad v)
    have hwidth : v.width ≤ 5 := by
      rw [encodeConfig_length, cmdCap] at hlen
      omega
    rw [wellFormed_configTelegram, Bool.and_eq_true, v.wellFormed_iff]
    exact ⟨decide_eq_true hpad, hint, hwidth⟩

/-- Settles O3: the five bodies are closed and the decoder evaluates on them. -/
theorem specTelegramsDecode : Obligations.SpecTelegramsDecode := by
  unfold Obligations.SpecTelegramsDecode
  decide

/-! ## The rejected bodies -/

theorem readOpcode_eq_some_iff {b0 b1 : Byte} {op : Opcode} : readOpcode b0 b1 = some op ↔ op.bytes = [b0, b1] := by
  refine ⟨readOpcode_sound, fun h => ?_⟩
  obtain ⟨c0, c1, hbytes, hread⟩ := readOpcode_bytes op
  rw [h] at hbytes
  cases hbytes
  exact hread

/-- The four codes of R93 are the ones that read. -/
theorem mem_opcodes_iff (b0 b1 : Byte) :
    [b0, b1] ∈ [[0x41, 0x4D], [0x4F, 0x46], [0x46, 0x52], [0x57, 0x41]] ↔ ∃ op, readOpcode b0 b1 = some op := by
  simp only [readOpcode_eq_some_iff]
  constructor
  · intro h
    simp only [List.mem_cons, List.not_mem_nil, or_false] at h
    rcases h with h | h | h | h
    · exact ⟨.am, h.symm⟩
    · exact ⟨.of, h.symm⟩
    · exact ⟨.fr, h.symm⟩
    · exact ⟨.wa, h.symm⟩
  · rintro ⟨op, h⟩
    rw [← h]
    cases op <;> decide

theorem readOpcode_eq_none {b0 b1 : Byte}
    (h : [b0, b1] ∉ [[0x41, 0x4D], [0x4F, 0x46], [0x46, 0x52], [0x57, 0x41]]) : readOpcode b0 b1 = none := by
  rw [mem_opcodes_iff] at h
  exact Option.eq_none_iff_forall_ne_some.2 fun op hop => h ⟨op, hop⟩

theorem readChannel_eq_none {b : Byte} (h1 : b ≠ 0x31) (h2 : b ≠ 0x32) : readChannel b = none := by
  rw [readChannel, channelByte, if_neg h1, channelByte, if_neg h2]

theorem exists_readChannel {b : Byte} (h : b = 0x31 ∨ b = 0x32) : ∃ c, readChannel b = some c := by
  rcases h with rfl | rfl
  · exact ⟨.one, readChannel_channelByte .one⟩
  · exact ⟨.two, readChannel_channelByte .two⟩

/-- A string that spells no literal with an integer digit does not read as one (R96). -/
theorem readLiteral_eq_none {bs : List Byte} (h : ¬ ∃ v : Literal, v.int ≠ [] ∧ v.bytes = bs) :
    readLiteral bs = none := by
  refine Option.eq_none_iff_forall_ne_some.2 fun v hv => h ⟨v, ?_⟩
  exact (readLiteral_sound hv).symm

/-- Settles O4: the length tests, then tests 3 to 5 in their order, each through what its reader rejects. -/
theorem illegalBodiesRejected : Obligations.IllegalBodiesRejected := by
  refine ⟨fun t ht => ?_, fun t => decodeBody_of_long, fun b0 b1 b2 b3 b4 rest hlen hne => ?_⟩
  · have hcap : t.length < cmdCap := ht.trans (by decide)
    rw [decodeBody_of_length_le (ne_continueeBytes_of_length hcap.ne) hcap.le, decodeConfig_of_lt ht]
  · have hcap : (b0 :: b1 :: b2 :: b3 :: b4 :: rest).length ≤ cmdCap := by
      simp only [List.length_cons, cmdCap]
      omega
    rw [decodeBody_of_length_le hne hcap]
    refine ⟨fun hop => ?_, fun hop h1 h2 => ?_, fun hop hch hval => ?_⟩
    · simp [decodeConfig, readOpcode_eq_none hop]
    · obtain ⟨op, hop⟩ := (mem_opcodes_iff b0 b1).1 hop
      simp [decodeConfig, hop, readChannel_eq_none h1 h2]
    · obtain ⟨op, hop⟩ := (mem_opcodes_iff b0 b1).1 hop
      obtain ⟨c, hc⟩ := exists_readChannel hch
      simp [decodeConfig, hop, hc, readLiteral_eq_none hval]

end Sys2Proof
end

section
/-! PROOF. The value of a literal (R97) and its integer reading (R99), from two facts about `digitsValue`: it is
the sum of the digits by falling powers of ten, and `n` digits are worth less than `10 ^ n`. -/

namespace Sys2Proof

/-! ## Digits read in base ten -/

theorem digitsValue_eq_sum (ds : List Digit) :
    digitsValue ds = ∑ j : Fin ds.length, (ds.get j).val * 10 ^ (ds.length - 1 - j.val) := by
  induction ds with
  | nil => rfl
  | cons d ds ih =>
    have hpow (j : Fin ds.length) : ds.length + 1 - 1 - (j.val + 1) = ds.length - 1 - j.val := by omega
    simp only [List.length_cons, Fin.sum_univ_succ, List.get_cons_zero, List.get_cons_succ', Fin.val_zero,
      Fin.val_succ, hpow, ← ih]
    rfl

theorem digitsValue_lt (ds : List Digit) : digitsValue ds < 10 ^ ds.length := by
  induction ds with
  | nil => decide
  | cons d ds ih =>
    have hd : d.val * 10 ^ ds.length ≤ 9 * 10 ^ ds.length := Nat.mul_le_mul_right _ (by omega)
    rw [digitsValue, List.length_cons, pow_succ]
    omega

/-- Digits after the point weigh by negative powers of ten. -/
theorem digitsValue_div_pow (ds : List Digit) :
    (digitsValue ds : Rat) / (10 ^ ds.length : Nat) =
      ∑ j : Fin ds.length, ((ds.get j).val : Rat) / 10 ^ (j.val + 1) := by
  rw [digitsValue_eq_sum]
  push_cast
  rw [Finset.sum_div]
  refine Finset.sum_congr rfl fun j _ => ?_
  have hsplit : (10 : Rat) ^ ds.length = 10 ^ (ds.length - 1 - j.val) * 10 ^ (j.val + 1) := by
    rw [← pow_add]
    congr 1
    omega
  rw [hsplit]
  field_simp

theorem digitsValue_div_pow_lt_one (ds : List Digit) : (digitsValue ds : Rat) / (10 ^ ds.length : Nat) < 1 := by
  rw [div_lt_one (by positivity)]
  exact_mod_cast digitsValue_lt ds

/-! ## The value of a literal -/

theorem Literal.fval_eq (v : Literal) : v.fval = (if v.neg then -1 else 1) * v.magnitude := by
  unfold Literal.fval
  split
  · rw [neg_one_mul]
  · rw [one_mul]

theorem Literal.magnitude_bounds (v : Literal) :
    (digitsValue v.int : Rat) ≤ v.magnitude ∧ v.magnitude < (digitsValue v.int : Rat) + 1 := by
  have hnonneg : (0 : Rat) ≤ (digitsValue v.fracDigits : Rat) / (10 ^ v.fracDigits.length : Nat) := by positivity
  have hlt := digitsValue_div_pow_lt_one v.fracDigits
  unfold Literal.magnitude
  constructor <;> linarith

theorem Literal.magnitude_nonneg (v : Literal) : 0 ≤ v.magnitude :=
  (Nat.cast_nonneg _).trans v.magnitude_bounds.1

theorem Literal.abs_fval (v : Literal) : |v.fval| = v.magnitude := by
  unfold Literal.fval
  split
  · rw [abs_neg, abs_of_nonneg v.magnitude_nonneg]
  · rw [abs_of_nonneg v.magnitude_nonneg]

/-- Five characters hold five integer digits, or a point with at most four integer and three fraction digits. -/
theorem Literal.digit_counts {v : Literal} (h : v.wellFormed = true) :
    v.fracDigits.length ≤ 3 ∧ (v.fracDigits = [] ∧ v.int.length ≤ 5 ∨ v.int.length ≤ 4) := by
  obtain ⟨hint, hwidth⟩ := v.wellFormed_iff.1 h
  have hpos := List.length_pos_iff.2 hint
  unfold Literal.width at hwidth
  unfold Literal.fracDigits
  cases hf : v.frac with
  | none =>
    rw [hf] at hwidth
    exact ⟨Nat.zero_le 3, .inl ⟨rfl, by omega⟩⟩
  | some ds =>
    rw [hf] at hwidth
    dsimp only at hwidth ⊢
    exact ⟨by omega, .inr (by omega)⟩

theorem Literal.magnitude_le {v : Literal} (h : v.wellFormed = true) : v.magnitude ≤ 99999 := by
  have hdigits := digitsValue_lt v.int
  rcases (Literal.digit_counts h).2 with ⟨hfrac, hlen⟩ | hlen
  · have hle : digitsValue v.int ≤ 99999 :=
      Nat.le_of_lt_succ (hdigits.trans_le (Nat.pow_le_pow_right (by decide) hlen))
    have hcast : (digitsValue v.int : Rat) ≤ 99999 := mod_cast hle
    simpa [Literal.magnitude, hfrac, digitsValue] using hcast
  · have hle : digitsValue v.int < 10 ^ 4 := hdigits.trans_le (Nat.pow_le_pow_right (by decide) hlen)
    have hcast : (digitsValue v.int : Rat) < 10 ^ 4 := mod_cast hle
    linarith [v.magnitude_bounds.2]

/-- With at most three fraction digits the magnitude counts thousandths. -/
theorem Literal.magnitude_thousandths {v : Literal} (h : v.fracDigits.length ≤ 3) :
    ∃ n : Nat, v.magnitude = (n : Rat) / 1000 := by
  refine ⟨digitsValue v.int * 1000 + digitsValue v.fracDigits * 10 ^ (3 - v.fracDigits.length), ?_⟩
  have hsplit : (1000 : Rat) = 10 ^ (3 - v.fracDigits.length) * 10 ^ v.fracDigits.length := by
    rw [← pow_add, Nat.sub_add_cancel h]
    norm_num
  unfold Literal.magnitude
  push_cast
  rw [hsplit]
  field_simp

theorem Literal.fval_thousandths {v : Literal} (h : v.fracDigits.length ≤ 3) :
    ∃ k : Int, v.fval = (k : Rat) / 1000 := by
  obtain ⟨n, hn⟩ := Literal.magnitude_thousandths h
  refine ⟨(if v.neg then -1 else 1) * n, ?_⟩
  rw [v.fval_eq, hn]
  push_cast
  rw [mul_div_assoc]

/-- Settles O5: both digit sums, and the counts of digits that five characters leave room for. -/
theorem literalValueIsExactDecimal : Obligations.LiteralValueIsExactDecimal := by
  refine fun v => ⟨?_, fun h => ?_⟩
  · rw [v.fval_eq, Literal.magnitude, digitsValue_div_pow, digitsValue_eq_sum v.int]
    push_cast
    rfl
  · have hfrac := (Literal.digit_counts h).1
    exact ⟨hfrac, Literal.fval_thousandths hfrac, v.abs_fval.trans_le (Literal.magnitude_le h)⟩

/-! ## The integer reading -/

theorem truncQ_neg (x : Rat) : truncQ (-x) = -truncQ x := by
  rcases lt_trichotomy x 0 with h | rfl | h
  · rw [truncQ_of_nonneg (by linarith), truncQ_of_neg h, neg_neg]
  · rfl
  · rw [truncQ_of_neg (by linarith), truncQ_of_nonneg h.le, neg_neg]

theorem Literal.truncQ_magnitude (v : Literal) : truncQ v.magnitude = digitsValue v.int := by
  rw [truncQ_of_nonneg v.magnitude_nonneg]
  exact floorQ_unique (mod_cast v.magnitude_bounds.1) (mod_cast v.magnitude_bounds.2)

theorem Literal.ival_eq (v : Literal) : v.ival = (if v.neg then -1 else 1) * (digitsValue v.int : Int) := by
  rw [Literal.ival, Literal.fval]
  split
  · rw [truncQ_neg, v.truncQ_magnitude, neg_one_mul]
  · rw [v.truncQ_magnitude, one_mul]

/-- Settles O6: the fraction is worth less than one, and `trunc` is odd. -/
theorem integerReadingDropsFraction : Obligations.IntegerReadingDropsFraction := by
  refine fun v => ⟨rfl, ?_⟩
  rw [v.ival_eq, digitsValue_eq_sum]
  push_cast
  rfl

end Sys2Proof
end

section
/-! PROOF. The synthesizer's operations one by one (R121 to R127): what the tables they write read as and the
fields of the schedules they derive, each with its frame. -/

namespace Sys2Proof

/-- On natural numbers the `floor` of a quotient is their integer division, a zero divisor included. -/
theorem floorQ_natCast_div (a b : Nat) : floorQ ((a : Rat) / (b : Rat)) = (a / b : Nat) := by
  rw [floorQ_eq]
  exact Rat.floor_natCast_div_natCast a b

namespace Machine

/-! ## The thresholds of R126 and R127 -/

theorem windowThreshold_eq (r : Rat) : windowThreshold r = (roundQ (15 * (1 - fracQ r))).toNat := by
  norm_num [windowThreshold, scaleWindow]

/-- The rounded value is not negative, so the threshold is that value itself. -/
theorem windowThreshold_cast (r : Rat) : (windowThreshold r : Int) = roundQ (15 * (1 - fracQ r)) := by
  have hnonneg : (0 : Rat) ≤ 15 * (1 - fracQ r) := by linarith [fracQ_lt_one r]
  rw [windowThreshold_eq, Int.toNat_of_nonneg (roundQ_nonneg hnonneg)]

theorem windowThreshold_eq_fifteen_iff (r : Rat) : windowThreshold r = 15 ↔ fracQ r ≤ 1 / 30 := by
  have hfrac := fracQ_nonneg r
  rw [windowThreshold_spec]
  constructor
  · rintro ⟨hle, -⟩
    push_cast at hle
    linarith
  · intro h
    constructor <;> push_cast <;> linarith

theorem windowThreshold_eq_zero_iff (r : Rat) : windowThreshold r = 0 ↔ 29 / 30 < fracQ r := by
  have hfrac := fracQ_lt_one r
  rw [windowThreshold_spec]
  constructor
  · rintro ⟨-, hlt⟩
    push_cast at hlt
    linarith
  · intro h
    constructor <;> push_cast <;> linarith

/-! ## The scaled table (R123) -/

/-- The entries of a channel's table once it is the scaled table of that channel's descriptor, by the second
form of `raw`. -/
theorem memRead_scaled_toNat {c : Channel} {s t : State}
    (ht : t.scaled.get c = scaledTable s.params.base (s.desc.get c)) {i : Nat} (hi : i < 256) :
    ((memRead (.scaled c) i t).toNat : Int) =
      clampZ (roundQ (((s.desc.get c).amplitude * (((memRead (.base (s.desc.get c).shape) i s).toNat : Rat) - 127)
        + 381 - 127 * (s.desc.get c).offset) / 3)) 0 255 := by
  have hread : memRead (.scaled c) i t = (scaledTable s.params.base (s.desc.get c)).read i :=
    congrArg (Memory.read · i) ht
  rw [hread, read_scaledTable _ _ hi, scaleEntry_toNat, scaleRaw_eq]
  rfl

/-- The table does not depend on the frequency. -/
theorem scaledTable_congr {base base' : PerShape Memory} {d d' : Desc} (hbase : base' = base)
    (hamp : d'.amplitude = d.amplitude) (hoff : d'.offset = d.offset) (hshape : d'.shape = d.shape) :
    scaledTable base' d' = scaledTable base d := by
  rw [scaledTable, scaledTable, hbase, hamp, hoff, hshape]

/-- Writing one channel's table leaves every byte of the other spaces, whatever becomes of the schedules. -/
theorem memRead_set_scaled_other {sp : Space} {c : Channel} (h : sp ≠ .scaled c) (a : Nat) (m : Memory)
    (k : PerChannel Sched) (s : State) :
    memRead sp a { s with scaled := s.scaled.set c m, sched := k } = memRead sp a s := by
  cases sp with
  | base sh => rfl
  | cmdBuf => rfl
  | scaled d =>
    have hd : d ≠ c := fun hdc => h (hdc ▸ rfl)
    exact congrArg (Memory.read · a) (PerChannel.get_set_other _ _ hd)

/-! ## One equation per operation -/

theorem exec_scaleTable (c : Channel) (s : State) : exec (.scaleTable c) s =
    .next { s with scaled := s.scaled.set c (scaledTable s.params.base (s.desc.get c)) } := rfl

theorem exec_deriveHold (c : Channel) (s : State) : exec (.deriveHold c) s = .next (deriveHold c s) := rfl

theorem exec_deriveSkip (c : Channel) (s : State) : exec (.deriveSkip c) s = .next (deriveSkip c s) := rfl

theorem exec_deriveSelect (c : Channel) (s : State) : exec (.deriveSelect c) s = .next (deriveSchedule c s) := rfl

theorem exec_recompute (c : Channel) (s : State) : exec (.recompute c) s = .next (recompute c s) := rfl

theorem deriveHold_sched_get (c : Channel) (s : State) : (deriveHold c s).sched.get c =
    holdSchedule s.tfInt s.tfFloat (s.desc.get c).frequency (s.sched.get c) := PerChannel.get_set_same _ _ _

theorem deriveSkip_sched_get (c : Channel) (s : State) : (deriveSkip c s).sched.get c =
    skipSchedule s.tfInt s.tfFloat (s.desc.get c).frequency (s.sched.get c) := PerChannel.get_set_same _ _ _

theorem deriveSchedule_of_lt {c : Channel} {s : State} (h : (s.desc.get c).frequency < s.tfInt) :
    deriveSchedule c s = deriveHold c s := if_pos h

theorem deriveSchedule_of_le {c : Channel} {s : State} (h : s.tfInt ≤ (s.desc.get c).frequency) :
    deriveSchedule c s = deriveSkip c s := if_neg h.not_gt

theorem recompute_scaled_get (c : Channel) (s : State) :
    (recompute c s).scaled.get c = scaledTable s.params.base (s.desc.get c) := by
  rw [recompute_eq, PerChannel.get_set_same]

theorem recompute_sched_get (c : Channel) (s : State) :
    (recompute c s).sched.get c = freshSched s.tfInt s.tfFloat (s.desc.get c) := by
  rw [recompute_eq, PerChannel.get_set_same]

/-- `RECOMPUTE` reads nothing it writes (R124). -/
theorem recompute_recompute (c : Channel) (s : State) : recompute c (recompute c s) = recompute c s := by
  simp only [recompute_eq, PerChannel.set_set]

/-! ## The obligations -/

/-- Settles O22: the table's entries, and the other spaces by the frame of one table's write. -/
theorem scaleTableEntries : Obligations.ScaleTableEntries := by
  refine fun c s => ⟨_, exec_scaleTable c s, fun i hi => ?_, fun sp a h => ?_, rfl⟩
  · exact memRead_scaled_toNat (PerChannel.get_set_same _ _ _) hi
  · exact memRead_set_scaled_other h a _ s.sched s

/-- Settles O23: the quotient is an integer division, and the corners are those of the threshold. -/
theorem holdScheduleDerived : Obligations.HoldScheduleDerived := by
  intro c s
  refine ⟨deriveHold c s, exec_deriveHold c s, ?_⟩
  rw [deriveHold_sched_get]
  exact ⟨rfl, (floorQ_natCast_div _ _).symm, windowThreshold_cast _, fun hf hlt => Nat.div_pos hlt.le hf,
    windowThreshold_le _, windowThreshold_eq_fifteen_iff _, windowThreshold_eq_zero_iff _⟩

/-- Settles O24: as hold mode, with the quotient the other way round. -/
theorem skipScheduleDerived : Obligations.SkipScheduleDerived := by
  intro c s
  refine ⟨deriveSkip c s, exec_deriveSkip c s, ?_⟩
  rw [deriveSkip_sched_get]
  exact ⟨rfl, (floorQ_natCast_div _ _).symm, windowThreshold_cast _, fun hT hle => Nat.div_pos hle hT,
    windowThreshold_le _⟩

/-- Settles O25: by the two cases of the comparison with `T_int`. -/
theorem deriveScheduleSelects : Obligations.DeriveScheduleSelects := by
  refine fun c s => ⟨_, exec_deriveSelect c s, fun hlt => ?_, fun hle => ?_⟩
  · rw [deriveSchedule_of_lt hlt, exec_deriveHold]
  · rw [deriveSchedule_of_le hle, exec_deriveSkip]

/-- Settles O26: the table and the fresh schedule of the channel, and the frame of `recompute_eq`. -/
theorem recomputeRewritesOneChannel : Obligations.RecomputeRewritesOneChannel := by
  refine fun c s => ⟨recompute c s, exec_recompute c s, fun i hi => ?_, fun hlt => ?_, fun hle => ?_, fun d hd => ?_,
    fun sp a h => ?_, ?_⟩
  · exact memRead_scaled_toNat (recompute_scaled_get c s) hi
  · rw [recompute_sched_get, freshSched_hold hlt, windowThreshold_eq]
  · rw [recompute_sched_get, freshSched_skip hle, windowThreshold_eq]
  · rw [recompute_eq, PerChannel.get_set_other _ _ hd]
  · rw [recompute_eq, memRead_set_scaled_other h]
  · rw [recompute_eq]

/-- Settles O27: the recomputed state has the same inputs, and the table's inputs leave the frequency out. -/
theorem recomputedTableIsDetermined : Obligations.RecomputedTableIsDetermined := by
  intro c s t hst
  cases hst
  refine ⟨by rw [exec_recompute, recompute_recompute], fun s' t' hst' hbase hamp hoff hshape => ?_⟩
  cases hst'
  rw [recompute_scaled_get, recompute_scaled_get]
  exact scaledTable_congr hbase hamp hoff hshape

end Machine

end Sys2Proof
end

section
/-! PROOF. The scheduler and the packer (R150 to R163): one step of a channel, one `SAMPLE_TICK`, and a run of
listed ticks, which iterates `schedStep` on each channel's schedule. -/

namespace Sys2Proof.Machine

/-! ## One equation per operation -/

theorem exec_sampleTick (s : State) : exec .sampleTick s = .next (sampleTick s) := rfl

theorem exec_stepHold (c : Channel) (s : State) : exec (.stepHold c) s = .next (stepHold c s) := rfl

theorem exec_stepSkip (c : Channel) (s : State) : exec (.stepSkip c) s = .next (stepSkip c s) := rfl

theorem exec_stepIdle (c : Channel) (s : State) : exec (.stepIdle c) s = .next s := rfl

theorem exec_pack (s1 s2 : Byte) (s : State) : exec (.pack s1 s2) s = .next (packSamples s1 s2 s) := rfl

theorem stepHold_sched_get (c : Channel) (s : State) :
    (stepHold c s).sched.get c = holdStep (s.sched.get c) := PerChannel.get_set_same _ _ _

theorem stepSkip_sched_get (c : Channel) (s : State) :
    (stepSkip c s).sched.get c = skipStep (s.sched.get c) := PerChannel.get_set_same _ _ _

/-! ## One step of a schedule (R152 to R154) -/

theorem holdLimit_of_le {k : Sched} (h : k.sampleCounter ≤ k.thresholdRepeat) : holdLimit k = k.repeatCount :=
  if_pos h

theorem holdLimit_of_lt {k : Sched} (h : k.thresholdRepeat < k.sampleCounter) : holdLimit k = k.repeatCount + 1 :=
  if_neg h.not_ge

theorem skipAmount_of_le {k : Sched} (h : k.sampleCounter ≤ k.thresholdSkip) : skipAmount k = k.inverseRepeat :=
  if_pos h

theorem skipAmount_of_lt {k : Sched} (h : k.thresholdSkip < k.sampleCounter) : skipAmount k = k.inverseRepeat + 1 :=
  if_neg h.not_ge

/-- `holdLimit` is the only limit that meets both of R152's clauses. -/
theorem eq_holdLimit {k : Sched} {limit : Nat} (hle : k.sampleCounter ≤ k.thresholdRepeat → limit = k.repeatCount)
    (hlt : k.thresholdRepeat < k.sampleCounter → limit = k.repeatCount + 1) : limit = holdLimit k := by
  rcases le_or_gt k.sampleCounter k.thresholdRepeat with h | h
  · rw [hle h, holdLimit_of_le h]
  · rw [hlt h, holdLimit_of_lt h]

/-- A step writes the index and the two counters alone (R150). -/
theorem schedStep_frame (k : Sched) : schedStep k = { k with
    tableIndex := (schedStep k).tableIndex
    sampleCounter := (schedStep k).sampleCounter
    tickCounter := (schedStep k).tickCounter } := by
  obtain ⟨hrepeat, hinverse, hthresholdRepeat, hthresholdSkip⟩ := schedStep_params k
  rw [← hrepeat, ← hinverse, ← hthresholdRepeat, ← hthresholdSkip]

theorem schedStep_advance {k : Sched} (hrepeat : k.repeatCount ≠ 0) (hlimit : holdLimit k ≤ k.tickCounter + 1) :
    (schedStep k).tableIndex = k.tableIndex + 1 ∧ (schedStep k).tickCounter = 0 := by
  rw [schedStep_hold hrepeat]
  exact holdStep_advance hlimit

/-! ## Many steps of a schedule -/

/-- The schedule `n ≤ 15` skip steps after window position 0: the index has moved by `inverseRepeat` at each of
them and by one more at each position beyond the threshold, of which there are `n - (thresholdSkip + 1)` (R158). -/
def afterSkips (k : Sched) (n : Nat) : Sched :=
  { k with
    tableIndex := BitVec.ofNat 8 (k.tableIndex.toNat + n * k.inverseRepeat + (n - (k.thresholdSkip + 1)))
    sampleCounter := n % 15 }

theorem afterSkips_zero {k : Sched} (hstart : k.sampleCounter = 0) : afterSkips k 0 = k := by
  cases k
  cases hstart
  simp [afterSkips]

theorem afterSkips_index (k : Sched) (n : Nat) : (afterSkips k n).tableIndex.toNat =
    (k.tableIndex.toNat + n * k.inverseRepeat + (n - (k.thresholdSkip + 1))) % 256 := BitVec.toNat_ofNat _ _

theorem afterSkips_sampleCounter (k : Sched) {n : Nat} (hn : n < 15) : (afterSkips k n).sampleCounter = n :=
  Nat.mod_eq_of_lt hn

/-- The next amount is one more exactly when position `n` lies beyond the threshold. -/
theorem skipAmount_afterSkips (k : Sched) {n : Nat} (hn : n < 15) : skipAmount (afterSkips k n) =
    k.inverseRepeat + ((n + 1 - (k.thresholdSkip + 1)) - (n - (k.thresholdSkip + 1))) := by
  have hposition := afterSkips_sampleCounter k hn
  rcases le_or_gt n k.thresholdSkip with h | h
  · have hle : (afterSkips k n).sampleCounter ≤ (afterSkips k n).thresholdSkip := hposition.trans_le h
    refine (skipAmount_of_le hle).trans (?_ : k.inverseRepeat = _)
    omega
  · have hlt : (afterSkips k n).thresholdSkip < (afterSkips k n).sampleCounter := h.trans_eq hposition.symm
    refine (skipAmount_of_lt hlt).trans (?_ : k.inverseRepeat + 1 = _)
    omega

theorem skipStep_afterSkips (k : Sched) {n : Nat} (hn : n < 15) :
    skipStep (afterSkips k n) = afterSkips k (n + 1) := by
  have hindex : (skipStep (afterSkips k n)).tableIndex = (afterSkips k (n + 1)).tableIndex := by
    apply BitVec.eq_of_toNat_eq
    rw [skipStep_index, skipAmount_afterSkips k hn, afterSkips_index, afterSkips_index, Nat.succ_mul]
    omega
  rw [skipStep_frame, hindex, afterSkips_sampleCounter k hn]
  rfl

theorem iterate_schedStep_skip {k : Sched} (hrepeat : k.repeatCount = 0) (hinverse : k.inverseRepeat ≠ 0)
    (hstart : k.sampleCounter = 0) {n : Nat} (hn : n ≤ 15) : schedStep^[n] k = afterSkips k n := by
  induction n with
  | zero => exact (afterSkips_zero hstart).symm
  | succ n ih =>
    rw [Function.iterate_succ_apply', ih (Nat.le_of_succ_le hn), schedStep_skip (k := afterSkips k n) hrepeat hinverse,
      skipStep_afterSkips k hn]

/-- Each waiting hold step brings the tick counter one closer to `repeatCount`; once it stands there the next step
advances the index, whatever the limit. -/
theorem exists_iterate_schedStep_advance (d : Nat) {k : Sched} (hrepeat : k.repeatCount ≠ 0)
    (hclose : k.repeatCount ≤ k.tickCounter + d) : ∃ n, 1 ≤ n ∧ n ≤ d + 1 ∧
      (schedStep^[n] k).tableIndex = k.tableIndex + 1 ∧ (schedStep^[n] k).tickCounter = 0 := by
  induction d generalizing k with
  | zero =>
    have hlimit : holdLimit k ≤ k.tickCounter + 1 := (holdLimit_le k).trans (Nat.succ_le_succ hclose)
    exact ⟨1, le_rfl, le_rfl, schedStep_advance hrepeat hlimit⟩
  | succ d ih =>
    rcases le_or_gt (holdLimit k) (k.tickCounter + 1) with hlimit | hlimit
    · exact ⟨1, le_rfl, Nat.succ_le_succ (Nat.zero_le _), schedStep_advance hrepeat hlimit⟩
    · obtain ⟨hindex, htick⟩ := holdStep_wait hlimit
      have hparam : (holdStep k).repeatCount = k.repeatCount := by rw [holdStep_frame]
      obtain ⟨n, hpos, hn, hadv⟩ := ih (k := holdStep k) (hparam ▸ hrepeat) (by omega)
      refine ⟨n + 1, Nat.succ_le_succ (Nat.zero_le _), Nat.succ_le_succ hn, ?_⟩
      rw [Function.iterate_succ_apply, schedStep_hold hrepeat, ← hindex]
      exact hadv

/-! ## `SAMPLE_TICK` (R150, R151) -/

theorem sampleTick_of_masked {s : State} (h : s.sampleTickEnable = false) : sampleTick s = s := by
  rw [sampleTick, h]
  rfl

theorem sampleTick_of_enabled {s : State} (h : s.sampleTickEnable = true) : sampleTick s = runTick s := if_pos h

theorem runTick_sched_get (c : Channel) (s : State) : (runTick s).sched.get c = schedStep (s.sched.get c) := by
  rw [runTick_eq]
  cases c <;> rfl

/-- The image a tick commits is that of `PACK` on the samples at the indices it left (R151, R156). -/
theorem runTick_port (s : State) : (runTick s).port =
    (packSamples (memRead (.scaled .one) ((runTick s).sched.get .one).tableIndex.toNat s)
      (memRead (.scaled .two) ((runTick s).sched.get .two).tableIndex.toNat s) s).port := by
  rw [runTick_eq]
  rfl

theorem runTick_portTrace (s : State) : (runTick s).portTrace = s.portTrace ++ [(runTick s).port] := by
  rw [runTick_eq]

theorem runTick_frame (s : State) : runTick s = { s with
    sched := (runTick s).sched
    port := (runTick s).port
    portTrace := (runTick s).portTrace } := by
  rw [runTick_eq]

/-! ## A run of listed ticks -/

theorem step_sampleTick {s : State} {rest : List Move} (hticks : s.sampleTickEnable = true)
    (hmoves : s.moves = .sampleTick :: rest) : step s = .next (runTick { s with moves := rest }) := by
  rw [step_of_moves_cons hmoves]
  exact congrArg Host.Outcome.next (sampleTick_of_enabled hticks)

/-- Ticks leave each other enabled, so a run of `n` listed ones steps each channel's schedule `n` times. -/
theorem runSteps_sampleTicks (n : Nat) {s : State} {rest : List Move} (hticks : s.sampleTickEnable = true)
    (hmoves : s.moves = List.replicate n .sampleTick ++ rest) :
    ∃ t, runSteps n s = .next t ∧ t.moves = rest ∧ ∀ c, t.sched.get c = schedStep^[n] (s.sched.get c) := by
  induction n generalizing s with
  | zero => exact ⟨s, rfl, hmoves, fun _ => rfl⟩
  | succ n ih =>
    have hcons : s.moves = .sampleTick :: (List.replicate n .sampleTick ++ rest) := hmoves
    have hstep := step_sampleTick hticks hcons
    obtain ⟨t, hrun, hrest, hsched⟩ := ih (s := runTick { s with moves := List.replicate n .sampleTick ++ rest })
      (by rw [runTick_frame]; exact hticks) (by rw [runTick_frame])
    refine ⟨t, (runSteps_succ hstep n).trans hrun, hrest, fun c => ?_⟩
    rw [hsched, runTick_sched_get, Function.iterate_succ_apply]

/-! ## The packed image (R160) -/

theorem high_append_low_bits (b : Byte) : b.extractLsb' 2 6 ++ b.extractLsb' 0 2 = b := by
  exact (BitVec.extractLsb'_append_extractLsb'_eq_extractLsb' rfl).trans BitVec.extractLsb'_eq_self

theorem packImage_gs_low (s1 s2 : Byte) (gs : BitVec 8) :
    (packImage s1 s2 gs).gs.extractLsb' 0 2 = s1.extractLsb' 0 2 := BitVec.extractLsb'_append_eq_right

theorem packImage_gs_mid (s1 s2 : Byte) (gs : BitVec 8) :
    (packImage s1 s2 gs).gs.extractLsb' 2 2 = s2.extractLsb' 0 2 :=
  (BitVec.extractLsb'_append_eq_of_le le_rfl).trans BitVec.extractLsb'_append_eq_right

theorem packImage_gs_high (s1 s2 : Byte) (gs : BitVec 8) :
    (packImage s1 s2 gs).gs.extractLsb' 4 4 = gs.extractLsb' 4 4 :=
  (BitVec.extractLsb'_append_eq_of_le (by decide)).trans BitVec.extractLsb'_append_eq_left

/-- The code the first DAC sees (R162): its group's six bits before its two bits of `GS`. -/
theorem packImage_code_one (s1 s2 : Byte) (gs : BitVec 8) :
    (packImage s1 s2 gs).g1 ++ (packImage s1 s2 gs).gs.extractLsb' 0 2 = s1 := by
  rw [packImage_gs_low]
  exact high_append_low_bits s1

/-- The code the second DAC sees (R162). -/
theorem packImage_code_two (s1 s2 : Byte) (gs : BitVec 8) :
    (packImage s1 s2 gs).g2 ++ (packImage s1 s2 gs).gs.extractLsb' 2 2 = s2 := by
  rw [packImage_gs_mid]
  exact high_append_low_bits s2

/-! ## The obligations -/

/-- Settles O28: by the equations of the effective tick, and the frame of `schedStep` for the parameters. -/
theorem sampleTickStepsAndPacks : Obligations.SampleTickStepsAndPacks := by
  refine fun s => ⟨fun hmask => ?_, fun hticks => ⟨runTick s, ?_, fun c u => ⟨fun hrepeat hu => ?_,
    fun hrepeat hinverse hu => ?_⟩, fun c => ?_, fun u hu => ?_, runTick_frame s⟩⟩
  · rw [exec_sampleTick, sampleTick_of_masked hmask]
  · rw [exec_sampleTick, sampleTick_of_enabled hticks]
  · cases hu
    rw [runTick_sched_get, stepHold_sched_get, schedStep_hold hrepeat]
  · cases hu
    rw [runTick_sched_get, stepSkip_sched_get, schedStep_skip hrepeat hinverse]
  · rw [runTick_sched_get]
    exact schedStep_frame _
  · cases hu
    exact ⟨runTick_port s, by rw [runTick_portTrace, runTick_port]⟩

/-- Settles O29: the two cases of `holdStep`, once the limit is known to be `holdLimit`. -/
theorem holdStepRule : Obligations.HoldStepRule := by
  intro c s
  refine ⟨stepHold c s, exec_stepHold c s, ?_, fun limit hle hlt => ?_⟩
  · rw [stepHold_sched_get, ← holdStep_frame]
    rfl
  · rw [stepHold_sched_get, eq_holdLimit hle hlt]
    refine ⟨fun hreach => ?_, holdStep_wait⟩
    obtain ⟨hindex, htick⟩ := holdStep_advance hreach
    exact ⟨by rw [hindex, BitVec.toNat_add]; rfl, htick⟩

/-- Settles O30: `skipStep_index` with the amount on either side of the threshold. -/
theorem skipStepRule : Obligations.SkipStepRule := by
  intro c s
  refine ⟨stepSkip c s, exec_stepSkip c s, ?_, fun hle => ?_, fun hlt => ?_⟩
  · rw [stepSkip_sched_get, ← skipStep_frame]
    rfl
  · rw [stepSkip_sched_get, skipStep_index, skipAmount_of_le hle]
  · rw [stepSkip_sched_get, skipStep_index, skipAmount_of_lt hlt]

/-- Settles O31: a masked tick does nothing, and an effective one does `schedStep`, which is idle here. -/
theorem idleStepChangesNothing : Obligations.IdleStepChangesNothing := by
  refine fun c s => ⟨exec_stepIdle c s, fun t ht hrepeat hinverse => ?_⟩
  cases ht
  cases hticks : s.sampleTickEnable with
  | false => rw [sampleTick_of_masked hticks]
  | true => rw [sampleTick_of_enabled hticks, runTick_sched_get, schedStep_idle hrepeat hinverse]

/-- Settles O32: one lemma for each part of `GS` and for each DAC code of the packed image. -/
theorem packedPortCarriesDacCodes : Obligations.PackedPortCarriesDacCodes :=
  fun s1 s2 s => ⟨packSamples s1 s2 s, exec_pack s1 s2 s, rfl, rfl, packImage_gs_low s1 s2 _,
    packImage_gs_mid s1 s2 _, packImage_gs_high s1 s2 _, packImage_code_one s1 s2 _, packImage_code_two s1 s2 _, rfl⟩

/-- Settles O33: the run of ticks iterates the step, and a whole window of skip steps has a closed form. -/
theorem skipWindowTotalAdvance : Obligations.SkipWindowTotalAdvance := by
  intro c s rest hticks hmoves hrepeat hinverse hstart
  obtain ⟨t, hrun, hrest, hsched⟩ := runSteps_sampleTicks 15 hticks hmoves
  refine ⟨t, hrun, hrest, ?_⟩
  rw [hsched, iterate_schedStep_skip hrepeat hinverse hstart le_rfl]
  exact ⟨rfl, by rw [afterSkips_index]; omega⟩

/-- Settles O34: the schedule advances within `repeatCount + 1` steps, and the run stops at that one. -/
theorem holdAlwaysAdvances : Obligations.HoldAlwaysAdvances := by
  intro c s rest hticks hrepeat hmoves
  obtain ⟨n, hpos, hn, hadv⟩ := exists_iterate_schedStep_advance _ hrepeat (Nat.le_add_left _ _)
  obtain ⟨m, hm⟩ := Nat.exists_eq_add_of_le hn
  rw [hm, ← List.replicate_append_replicate, List.append_assoc] at hmoves
  obtain ⟨t, hrun, -, hsched⟩ := runSteps_sampleTicks n hticks hmoves
  exact ⟨n, t, hpos, hn, hrun, by rwa [hsched]⟩

end Sys2Proof.Machine
end

section
/-! PROOF. The five telegrams and the operations of the protocol machine one by one (R181 to R208): one
equation for each branch, and from them the effect of each operation with its frame. -/

namespace Sys2Proof

/-! ## The legal ranges (R6) and the shape code (R100) -/

theorem amplitudeInRange_iff {x : Rat} : amplitudeInRange x = true ↔ 0 ≤ x ∧ x ≤ 10 := by
  simp [amplitudeInRange]

theorem offsetInRange_iff {x : Rat} : offsetInRange x = true ↔ -10 ≤ x ∧ x ≤ 10 := by
  simp [offsetInRange]

theorem frequencyInRange_iff {n : Int} : frequencyInRange n = true ↔ 1 ≤ n ∧ n ≤ 10000 := by
  simp [frequencyInRange]

theorem shapeOfCode_of_code {n : Int} {sh : Shape}
    (h : (n = 1 ∧ sh = .sine) ∨ (n = 2 ∧ sh = .square) ∨ (n = 3 ∧ sh = .triangle) ∨
      (n = 4 ∧ sh = .sawtooth) ∨ (n = 5 ∧ sh = .reverseSawtooth)) : shapeOfCode n = some sh := by
  rcases h with ⟨rfl, rfl⟩ | ⟨rfl, rfl⟩ | ⟨rfl, rfl⟩ | ⟨rfl, rfl⟩ | ⟨rfl, rfl⟩ <;> rfl

theorem shapeOfCode_of_no_code {n : Int} (h : ¬ (1 ≤ n ∧ n ≤ 5)) : shapeOfCode n = none := by
  unfold shapeOfCode
  repeat rw [if_neg (by omega)]

namespace Machine

/-! ## The telegrams (R186 to R192) -/

theorem exec_am (c : Channel) (pad : Byte) (v : Literal) (s : State) :
    exec (.am c pad v) s = .next (setAmplitude c v.fval s) := rfl

theorem exec_of (c : Channel) (pad : Byte) (v : Literal) (s : State) :
    exec (.of c pad v) s = .next (setOffset c v.fval s) := rfl

theorem exec_fr (c : Channel) (pad : Byte) (v : Literal) (s : State) :
    exec (.fr c pad v) s = .next (setFrequency c v.ival s) := rfl

theorem exec_wa (c : Channel) (pad : Byte) (v : Literal) (s : State) :
    exec (.wa c pad v) s = .next (setShape c v.ival s) := rfl

/-- `raise FormatError` as one record (R262). -/
theorem raiseFormatError_eq (s : State) : raiseFormatError s = { s with errPending := true, cmdLen := 0 } := rfl

/-- Settles O8: the two cases of the range. -/
theorem amplitudeTelegram : Obligations.AmplitudeTelegram := by
  refine fun c pad v s => ⟨fun hin => ?_, fun hout => ?_⟩
  · rw [exec_am, setAmplitude, if_pos (amplitudeInRange_iff.2 hin)]
    rfl
  · rw [exec_am, setAmplitude, if_neg (mt amplitudeInRange_iff.1 hout), raiseFormatError_eq]

/-- Settles O9: the two cases of the range. -/
theorem offsetTelegram : Obligations.OffsetTelegram := by
  refine fun c pad v s => ⟨fun hin => ?_, fun hout => ?_⟩
  · rw [exec_of, setOffset, if_pos (offsetInRange_iff.2 hin)]
    rfl
  · rw [exec_of, setOffset, if_neg (mt offsetInRange_iff.1 hout), raiseFormatError_eq]

/-- Settles O10: the two cases of the range; an integer reading within it is a natural number. -/
theorem frequencyTelegram : Obligations.FrequencyTelegram := by
  refine fun c pad v s => ⟨fun n hn hlow hhigh => ?_, fun hout => ?_⟩
  · rw [exec_fr, hn, setFrequency, if_pos (frequencyInRange_iff.2 (by omega))]
    rfl
  · rw [exec_fr, setFrequency, if_neg (mt frequencyInRange_iff.1 hout), raiseFormatError_eq]

/-- Settles O11: the five codes, and their complement. -/
theorem shapeTelegram : Obligations.ShapeTelegram := by
  refine fun c pad v s => ⟨fun sh hcode => ?_, fun hout => ?_⟩
  · rw [exec_wa, setShape, shapeOfCode_of_code hcode]
    rfl
  · rw [exec_wa, setShape, shapeOfCode_of_no_code hout]
    rfl

/-- Settles O12: `CONTINUEE` is the write of its two flags. -/
theorem continueeTelegram : Obligations.ContinueeTelegram :=
  fun _ => rfl

/-! ## `ACCUMULATE` (R182, R183) -/

theorem exec_accumulate (ch : Byte) (s : State) : exec (.accumulate ch) s = .next (accumulate ch s) := rfl

theorem exec_accumulateOverflow (ch : Byte) (s : State) :
    exec (.accumulateOverflow ch) s = .next (raiseFormatError s) := rfl

theorem accumulate_of_room {ch : Byte} {s : State} (h : s.cmdLen < cmdCap) : accumulate ch s = storeByte ch s :=
  if_pos h

theorem accumulate_of_full {ch : Byte} {s : State} (h : cmdCap ≤ s.cmdLen) : accumulate ch s = raiseFormatError s :=
  if_neg h.not_gt

/-- What the command buffer reads as once a byte is stored (R182). -/
theorem memRead_storeByte {s : State} (hbuf : s.cmdBuf.wf) (ch : Byte) (a : Nat) :
    memRead .cmdBuf a (storeByte ch s) = if a = s.cmdLen then ch else memRead .cmdBuf a s :=
  Memory.read_write hbuf _ _ _

/-- A stored byte is the last of the body (R182). -/
theorem cmdBody_storeByte {s : State} (hbuf : s.cmdBuf.wf) (ch : Byte) :
    cmdBody (storeByte ch s) = cmdBody s ++ [ch] := by
  have hbelow : ∀ i, 0 ≤ i → i < 0 + s.cmdLen → (s.cmdBuf.write s.cmdLen ch).read i = s.cmdBuf.read i :=
    fun i _ hi => Memory.read_write_other hbuf _ (by omega)
  rw [storeByte_eq, cmdBody, Memory.readFrom_succ, Memory.readFrom_congr hbelow, Nat.zero_add,
    Memory.read_write_same hbuf]
  rfl

/-- Settles O15: the byte is stored, and read after write. -/
theorem accumulateStoresAtEnd : Obligations.AccumulateStoresAtEnd := by
  intro ch s hroom hbuf
  refine ⟨storeByte ch s, ?_, rfl, cmdBody_storeByte hbuf ch, ?_, fun sp a hother => ?_⟩
  · rw [exec_accumulate, accumulate_of_room hroom]
  · rw [memRead_storeByte hbuf, if_pos rfl]
  · cases sp with
    | base sh => rfl
    | scaled c => rfl
    | cmdBuf => rw [memRead_storeByte hbuf, if_neg fun ha => hother ⟨rfl, ha⟩]

/-- Settles O16: both rows raise `FormatError`. -/
theorem overflowByteRaisesFormatError : Obligations.OverflowByteRaisesFormatError := by
  refine fun ch s => ⟨exec_accumulateOverflow ch s, fun hfull => ?_⟩
  rw [exec_accumulate, accumulate_of_full hfull.ge, raiseFormatError_eq]

/-! ## `PARSE` and `RX_PASS` (R181, R185) -/

theorem exec_parse (s : State) : exec .parse s = .next (parse s) := rfl

theorem exec_rxPass (s : State) : exec .rxPass s = .next (rxPass s) := rfl

theorem parse_of_accept {s : State} {tg : Telegram} (h : decodeBody (cmdBody s) = .accept tg) :
    parse s = applyTelegram tg s := by
  rw [parse, h]

theorem parse_of_reject {s : State} {why : DecodeError} (h : decodeBody (cmdBody s) = .reject why) :
    parse s = raiseFormatError s := by
  rw [parse, h]

theorem rxPass_of_empty {s : State} (h : s.rxQueue = []) : rxPass s = s := by
  rw [rxPass, h]

theorem rxPass_of_terminator {s : State} {rest : List Byte} (h : s.rxQueue = terminator :: rest) :
    rxPass s = parse (setTicks false (setRxQueue rest s)) := by
  rw [rxPass, h]
  rfl

theorem rxPass_of_body_byte {s : State} {ch : Byte} {rest : List Byte} (h : s.rxQueue = ch :: rest)
    (hch : ch ≠ terminator) : rxPass s = accumulate ch (setTicks false (setRxQueue rest s)) := by
  rw [rxPass, h]
  exact if_neg hch

/-- Settles O14: the empty queue, a body byte and a terminator. -/
theorem rxPassConsumesOneByte : Obligations.RxPassConsumesOneByte := by
  refine fun s => ⟨rxPass s, exec_rxPass s, rxPass_of_empty, fun ch rest hq => ⟨fun hch => ?_, fun hch => ?_⟩⟩
  · rw [rxPass_of_body_byte hq hch, exec_accumulate]
    rfl
  · subst hch
    rw [rxPass_of_terminator hq, exec_parse]
    rfl

/-- Settles O17: the two answers of the decoder. -/
theorem parseRunsTelegramOrRaises : Obligations.ParseRunsTelegramOrRaises := by
  refine fun s => ⟨parse s, exec_parse s, fun tg hacc => ?_, fun why hrej => ?_⟩
  · rw [parse_of_accept hacc, exec_toInstr]
  · rw [parse_of_reject hrej, raiseFormatError_eq]

/-! ## `REPLY_PASS` and its branches (R200 to R208) -/

theorem exec_replyPass (s : State) : exec .replyPass s = .next (replyPass s) := rfl

theorem exec_ackBranch (s : State) : exec .ackBranch s = .next (ackBranch s) := rfl

theorem exec_modeEval (s : State) : exec .modeEval s = .next { s with mode := modeOf s.desc } := rfl

theorem exec_errorBranch (s : State) : exec .errorBranch s = .next (errorBranch s) := rfl

theorem exec_resumeBranch (s : State) : exec .resumeBranch s = .next (resumeBranch s) := rfl

/-- `ERROR_BRANCH` as one record (R201, R272). -/
theorem recoverFormatError_eq (s : State) : recoverFormatError s =
    { s with txStream := s.txStream ++ errReply, cmdLen := 0, errPending := false } := rfl

/-- `RESUME_BRANCH` as one record (R208). -/
theorem resumeBranch_eq (s : State) : resumeBranch s =
    { s with cmdLen := 0, sampleTickEnable := true, secTickEnable := true, resumePending := false } := rfl

theorem replyPass_of_err {s : State} (herr : s.errPending = true) : replyPass s = errorBranch s := if_pos herr

theorem replyPass_of_ack {s : State} (herr : s.errPending = false) (hack : s.ackPending = true) :
    replyPass s = ackBranch s := by
  simp [replyPass, herr, hack]

theorem replyPass_of_resume {s : State} (herr : s.errPending = false) (hack : s.ackPending = false)
    (hresume : s.resumePending = true) : replyPass s = resumeBranch s := by
  simp [replyPass, herr, hack, hresume]

theorem replyPass_of_none {s : State} (herr : s.errPending = false) (hack : s.ackPending = false)
    (hresume : s.resumePending = false) : replyPass s = s := by
  simp [replyPass, herr, hack, hresume]

/-- Settles O18: one equation per branch. -/
theorem replyPassPriority : Obligations.ReplyPassPriority := by
  refine fun s => ⟨replyPass s, exec_replyPass s, fun herr => ?_, fun herr hack => ?_, fun herr hack hresume => ?_,
    replyPass_of_none⟩
  · rw [replyPass_of_err herr, exec_errorBranch]
  · rw [replyPass_of_ack herr hack, exec_ackBranch]
  · rw [replyPass_of_resume herr hack hresume, exec_resumeBranch]

/-- Settles O19: the error branch is the write of its three fields. -/
theorem errorBranchReplies : Obligations.ErrorBranchReplies := by
  intro s
  rw [exec_errorBranch, errorBranch, recoverFormatError_eq, errReply]

/-- Settles O21: the two cases of the mode rule. -/
theorem modeEvalThreshold : Obligations.ModeEvalThreshold := by
  refine fun s => ⟨fun hhigh => ?_, fun hone htwo => ?_⟩
  · rw [exec_modeEval, modeOf_high.2 hhigh]
  · rw [exec_modeEval, modeOf_normal.2 ⟨hone, htwo⟩]

theorem ackBranch_scaled_get (c : Channel) (s : State) :
    (ackBranch s).scaled.get c = scaledTable s.params.base (s.desc.get c) := by
  rw [ackBranch_eq, resynthesize_eq]
  cases c <;> simp only [PerChannel.get]

/-- Both schedules are derived with the constants the branch has just loaded (R204, R206). -/
theorem ackBranch_sched_get (c : Channel) (s : State) :
    (ackBranch s).sched.get c = freshSched (ackBranch s).tfInt (ackBranch s).tfFloat (s.desc.get c) := by
  rw [ackBranch_eq, resynthesize_eq]
  cases c <;> rfl

theorem ackBranch_mode (s : State) : (ackBranch s).mode = modeOf s.desc := by
  rw [ackBranch_eq, resynthesize_eq]

/-- Settles O20: the mode rule, the entries of both tables and both schedules in either mode; the rest are
fields of `ackBranch_eq` and `resynthesize_eq`. -/
theorem ackBranchResynthesizes : Obligations.AckBranchResynthesizes := by
  refine fun s => ⟨ackBranch s, exec_ackBranch s, fun hhigh => ?_, fun hone htwo => ?_, ?_, ?_, ?_, ?_,
    fun c i hi => memRead_scaled_toNat (ackBranch_scaled_get c s) hi, fun c hlt => ?_, fun c hle => ?_, ?_⟩
  · rw [ackBranch_mode, modeOf_high.2 hhigh]
  · rw [ackBranch_mode, modeOf_normal.2 ⟨hone, htwo⟩]
  · rw [ackBranch_eq, resynthesize_eq]
  · rw [ackBranch_eq, resynthesize_eq]
  · rw [ackBranch_eq, resynthesize_eq]
  · rw [ackBranch_eq, resynthesize_eq, decide_eq_true_iff]
  · rw [ackBranch_sched_get, freshSched_hold hlt, windowThreshold_eq]
  · rw [ackBranch_sched_get, freshSched_skip hle, windowThreshold_eq]
  · rw [ackBranch_eq, resynthesize_eq]
    exact ⟨rfl, rfl, rfl, rfl⟩

end Machine

end Sys2Proof
end

section
/-! PROOF. Steps that consume a terminator (R181, R185), the placed telegram (log entry 10), and the two passes
from a buffered `CONTINUEE` to running ticks (R211). -/

namespace Sys2Proof.Machine

/-! ## A telegram run by a step -/

/-- Settles O46: the step is `RX_PASS` at a terminator, and that is `PARSE` of an accepted body. -/
theorem stepRunsDecodedTelegram : Obligations.StepRunsDecodedTelegram := by
  intro s m q tg hmoves hpass hq hacc
  rw [step_main_at hmoves hpass, exec_toInstr]
  have hparse : ∀ u : State, u.rxQueue = terminator :: q → cmdBody u = cmdBody s →
      rxPass u = applyTelegram tg (setTicks false (setRxQueue q u)) := by
    intro u huq hbody
    rw [rxPass_of_terminator huq, parse_of_accept (tg := tg) ?_]
    exact (congrArg decodeBody hbody).trans hacc
  exact congrArg Host.Outcome.next (hparse _ hq rfl)

theorem exists_decodeBody_of_decode {t : List Byte} {i : Instr} (h : decode t = some i) :
    ∃ tg, decodeBody t = .accept tg ∧ tg.toInstr = i := by
  unfold decode at h
  split at h
  · rename_i tg hacc
    exact ⟨tg, hacc, Option.some.inj h⟩
  · cases h

/-- The body of a loaded buffer is the one loaded. -/
theorem cmdBody_loadBody {s : State} (hbuf : s.cmdBuf.wf) (body : List Byte) : cmdBody (loadBody body s) = body :=
  Memory.readFrom_writeFrom hbuf body 0

/-- Settles O47: the loaded state meets the premises of `stepRunsDecodedTelegram`. -/
theorem placedTelegramRunsNext : Obligations.PlacedTelegramRunsNext := by
  intro s nbits w i hbuf hdecode
  obtain ⟨tg, hacc, rfl⟩ := exists_decodeBody_of_decode hdecode
  have hbody : cmdBody (s.withFetchWord nbits w) = tableBody nbits w := cmdBody_loadBody hbuf _
  rw [← hbody] at hacc
  exact ⟨_, stepRunsDecodedTelegram _ s.moves s.rxQueue tg rfl rfl rfl hacc, hbody, rfl⟩

/-! ## Steps of the main sequencer with nothing to do -/

theorem exec_secPass (s : State) : exec .secPass s = .next (secPass s) := rfl

theorem secPass_of_no_second {s : State} (h : s.oneSecondFlag = false) : secPass s = s := by
  rw [secPass, h]
  rfl

theorem step_rx_idle {s : State} {rest : List Move} (hmoves : s.moves = .main :: rest) (hpass : s.passPos = .rx)
    (hq : s.rxQueue = []) : step s = .next { s with moves := rest, passPos := .sec } := by
  rw [step_main_at hmoves hpass]
  exact congrArg Host.Outcome.next (rxPass_of_empty hq)

theorem step_sec_idle {s : State} {rest : List Move} (hmoves : s.moves = .main :: rest) (hpass : s.passPos = .sec)
    (hsecond : s.oneSecondFlag = false) : step s = .next { s with moves := rest, passPos := .reply } := by
  rw [step_main_at hmoves hpass]
  exact congrArg Host.Outcome.next (secPass_of_no_second hsecond)

theorem step_reply_ack {s : State} {rest : List Move} (hmoves : s.moves = .main :: rest) (hpass : s.passPos = .reply)
    (herr : s.errPending = false) (hack : s.ackPending = true) :
    step s = .next (ackBranch { s with moves := rest, passPos := .rx }) := by
  rw [step_main_at hmoves hpass]
  exact congrArg Host.Outcome.next (replyPass_of_ack herr hack)

theorem step_reply_resume {s : State} {rest : List Move} (hmoves : s.moves = .main :: rest)
    (hpass : s.passPos = .reply) (herr : s.errPending = false) (hack : s.ackPending = false)
    (hresume : s.resumePending = true) : step s = .next (resumeBranch { s with moves := rest, passPos := .rx }) := by
  rw [step_main_at hmoves hpass]
  exact congrArg Host.Outcome.next (replyPass_of_resume herr hack hresume)

/-! ## `CONTINUEE` (R211) -/

/-- A run goes on from where its first part ended. -/
theorem runSteps_add {s t : State} {m : Nat} (h : runSteps m s = .next t) (n : Nat) :
    runSteps (m + n) s = runSteps n t := by
  induction m generalizing s with
  | zero =>
    cases h
    rw [Nat.zero_add]
  | succ m ih =>
    cases hstep : step s with
    | next u =>
      rw [runSteps_succ hstep] at h
      rw [Nat.add_right_comm, runSteps_succ hstep, ih h]
    | fault r => simp [runSteps, hstep] at h
    | refused r => simp [runSteps, hstep] at h

/-- The first pass: the terminator is consumed, no second is served, the acknowledgment is given. -/
theorem runSteps_continuee {s : State} {rest : List Move} (hmoves : s.moves = .main :: .main :: .main :: rest)
    (hpass : s.passPos = .rx) (hq : s.rxQueue = [terminator]) (hbody : cmdBody s = continueeBytes)
    (herr : s.errPending = false) (hsecond : s.oneSecondFlag = false) :
    runSteps 3 s = .next (ackBranch { s with
      moves := rest
      passPos := .rx
      rxQueue := []
      sampleTickEnable := false
      secTickEnable := false
      ackPending := true
      resumePending := true }) := by
  have hacc : decodeBody (cmdBody s) = .accept .continuee := by rw [hbody, decodeBody_continuee]
  have hrx := (stepRunsDecodedTelegram s _ _ _ hmoves hpass hq hacc).trans (continueeTelegram _)
  refine (runSteps_succ hrx 2).trans ((runSteps_succ (step_sec_idle rfl rfl ?_) 1).trans
    (runSteps_succ (step_reply_ack rfl rfl ?_ rfl) 0))
  · exact hsecond
  · exact herr

/-- The second pass: no byte, no second, and the resume action (R208). -/
theorem runSteps_resume {s : State} {rest : List Move} (hmoves : s.moves = .main :: .main :: .main :: rest)
    (hpass : s.passPos = .rx) (hq : s.rxQueue = []) (hsecond : s.oneSecondFlag = false)
    (herr : s.errPending = false) (hack : s.ackPending = false) (hresume : s.resumePending = true) :
    runSteps 3 s = .next (resumeBranch { s with moves := rest, passPos := .rx }) := by
  refine (runSteps_succ (step_rx_idle hmoves hpass hq) 2).trans ((runSteps_succ (step_sec_idle rfl rfl ?_) 1).trans
    (runSteps_succ (step_reply_resume rfl rfl ?_ ?_ ?_) 0))
  · exact hsecond
  · exact herr
  · exact hack
  · exact hresume

/-- Settles O54: the pass that acknowledges, then the pass that resumes. -/
theorem continueeResumesInTwoPasses : Obligations.ContinueeResumesInTwoPasses := by
  intro s rest hpass hq hbody herr hsecond hmoves
  have hfirst := runSteps_continuee hmoves hpass hq hbody herr hsecond
  rw [ackBranch_eq, resynthesize_eq] at hfirst
  refine ⟨_, (runSteps_add hfirst 3).trans (runSteps_resume rfl rfl rfl hsecond herr rfl rfl), ?_⟩
  exact ⟨rfl, rfl, rfl, rfl, rfl, herr, rfl, rfl, rfl, rfl, rfl⟩

end Sys2Proof.Machine
end

section
/-! PROOF. What a step does to the protocol's own fields: the masks and who lifts them (R208, R210), the
transmit stream (R213), the frozen outputs of the critical section (R210), and the discipline (R212). -/

namespace Sys2Proof.Machine

/-! ## What each main operation leaves alone -/

/-- `REPLY_PASS` leaves the descriptors, the cells of the buffer, the port, the queue and the environment. -/
theorem replyPass_frame (s : State) :
    replyPass s = { s with
      sched := (replyPass s).sched
      scaled := (replyPass s).scaled
      mode := (replyPass s).mode
      tfInt := (replyPass s).tfInt
      tfFloat := (replyPass s).tfFloat
      tickRateSel := (replyPass s).tickRateSel
      tempReportEnable := (replyPass s).tempReportEnable
      cmdLen := (replyPass s).cmdLen
      errPending := (replyPass s).errPending
      ackPending := (replyPass s).ackPending
      resumePending := (replyPass s).resumePending
      sampleTickEnable := (replyPass s).sampleTickEnable
      secTickEnable := (replyPass s).secTickEnable
      txStream := (replyPass s).txStream } := by
  rcases replyPass_cases s with ⟨-, h⟩ | ⟨-, -, h⟩ | ⟨-, -, -, h⟩ | ⟨-, -, -, h⟩ <;> rw [h]
  · rfl
  · rw [ackBranch_eq, resynthesize_eq]
  · rfl

/-- `RX_PASS` writes the queue, the buffer, the masks, the three flags and the descriptors at most. -/
theorem rxPass_frame (s : State) :
    rxPass s = { s with
      desc := (rxPass s).desc
      cmdBuf := (rxPass s).cmdBuf
      cmdLen := (rxPass s).cmdLen
      errPending := (rxPass s).errPending
      ackPending := (rxPass s).ackPending
      resumePending := (rxPass s).resumePending
      sampleTickEnable := (rxPass s).sampleTickEnable
      secTickEnable := (rxPass s).secTickEnable
      rxQueue := (rxPass s).rxQueue } := by
  rcases rxPass_cases s with ⟨-, h⟩ | ⟨ch, rest, -, ⟨-, -, h⟩ | h | ⟨-, tg, -, h⟩⟩ <;> rw [h]
  · rfl
  · rfl
  · rw [applyTelegram_frame]
    rfl

/-- `SEC_PASS` leaves the one-second flag clear (R241). -/
theorem secPass_oneSecondFlag (s : State) : (secPass s).oneSecondFlag = false := by
  rcases secPass_cases s with ⟨hflag, h⟩ | ⟨-, -, h⟩ | ⟨-, -, h⟩ <;> rw [h]
  · exact hflag
  · rfl
  · obtain ⟨k, -, -, -, -, hpoll⟩ := poll_cases (setOneSecond false s)
    rw [hpoll]
    rfl

/-! ## The four kinds of step -/

/-- `t` has the command buffer, the pending flags and the masks of `s`. -/
structure SameProtocol (s t : State) : Prop where
  cmdBuf : t.cmdBuf = s.cmdBuf
  cmdLen : t.cmdLen = s.cmdLen
  errPending : t.errPending = s.errPending
  ackPending : t.ackPending = s.ackPending
  resumePending : t.resumePending = s.resumePending
  sampleTickEnable : t.sampleTickEnable = s.sampleTickEnable
  secTickEnable : t.secTickEnable = s.secTickEnable

theorem takeMove_sameProtocol (s : State) : SameProtocol s (takeMove s) := by
  rw [takeMove_frame]
  exact ⟨rfl, rfl, rfl, rfl, rfl, rfl, rfl⟩

theorem advancePass_sameProtocol (s : State) : SameProtocol s (advancePass s) :=
  ⟨rfl, rfl, rfl, rfl, rfl, rfl, rfl⟩

theorem secPass_sameProtocol (s : State) : SameProtocol s (secPass s) := by
  rw [secPass_frame]
  exact ⟨rfl, rfl, rfl, rfl, rfl, rfl, rfl⟩

theorem SameProtocol.trans {s t u : State} (h1 : SameProtocol s t) (h2 : SameProtocol t u) : SameProtocol s u :=
  ⟨h2.cmdBuf.trans h1.cmdBuf, h2.cmdLen.trans h1.cmdLen, h2.errPending.trans h1.errPending,
    h2.ackPending.trans h1.ackPending, h2.resumePending.trans h1.resumePending,
    h2.sampleTickEnable.trans h1.sampleTickEnable, h2.secTickEnable.trans h1.secTickEnable⟩

theorem sampleTick_frame (s : State) : sampleTick s = { s with
    sched := (sampleTick s).sched
    port := (sampleTick s).port
    portTrace := (sampleTick s).portTrace } := by
  unfold sampleTick
  split
  · exact runTick_frame s
  · rfl

/-- A step is one of the three main operations, or a handler's or the outside logic's, which touches neither the
protocol's fields nor the transmit stream (R180, R74). -/
theorem step_main_or_handler {s t : State} (h : step s = .next t) :
    (nextMove s = .main ∧ s.passPos = .reply ∧ t = replyPass (advancePass (takeMove s))) ∨
    (nextMove s = .main ∧ s.passPos = .rx ∧ t = rxPass (advancePass (takeMove s))) ∨
    (nextMove s = .main ∧ s.passPos = .sec ∧ t = secPass (advancePass (takeMove s))) ∨
    (SameProtocol s t ∧ t.passPos = s.passPos ∧ t.txStream = s.txStream) := by
  have htake := takeMove_sameProtocol s
  rcases step_cases h with hreply | hrx | hsec | ⟨-, rfl⟩ | ⟨-, rfl⟩ | ⟨b, -, rfl⟩ | ⟨v, -, rfl⟩
  · exact .inl hreply
  · exact .inr (.inl hrx)
  · exact .inr (.inr (.inl hsec))
  · rw [sampleTick_frame]
    exact .inr (.inr (.inr ⟨htake.trans ⟨rfl, rfl, rfl, rfl, rfl, rfl, rfl⟩, by simp, by simp⟩))
  · rw [secTick_frame]
    exact .inr (.inr (.inr ⟨htake.trans ⟨rfl, rfl, rfl, rfl, rfl, rfl, rfl⟩, by simp, by simp⟩))
  · exact .inr (.inr (.inr ⟨htake.trans ⟨rfl, rfl, rfl, rfl, rfl, rfl, rfl⟩, takeMove_passPos s, takeMove_txStream s⟩))
  · exact .inr (.inr (.inr ⟨htake.trans ⟨rfl, rfl, rfl, rfl, rfl, rfl, rfl⟩, takeMove_passPos s, takeMove_txStream s⟩))

/-! ## The masks (R208) -/

/-- `REPLY_PASS` keeps the masks, or runs the resume branch (R200). -/
theorem replyPass_masks (s : State) :
    ((replyPass s).sampleTickEnable = s.sampleTickEnable ∧ (replyPass s).secTickEnable = s.secTickEnable) ∨
    (s.resumePending = true ∧ s.errPending = false ∧ s.ackPending = false ∧ replyPass s = resumeBranch s) := by
  rcases replyPass_cases s with ⟨-, h⟩ | ⟨-, -, h⟩ | ⟨herr, hack, hresume, h⟩ | ⟨-, -, -, h⟩ <;> rw [h]
  · exact .inl ⟨rfl, rfl⟩
  · rw [ackBranch_eq, resynthesize_eq]
    exact .inl ⟨rfl, rfl⟩
  · exact .inr ⟨hresume, herr, hack, rfl⟩
  · exact .inl ⟨rfl, rfl⟩

/-- `RX_PASS` masks both ticks when it consumes a byte (R181). -/
theorem rxPass_masked {s : State} (hq : s.rxQueue ≠ []) : Masked (rxPass s) := by
  rcases rxPass_cases s with ⟨hempty, -⟩ | ⟨ch, rest, -, ⟨-, -, h⟩ | h | ⟨-, tg, -, h⟩⟩
  · exact absurd hempty hq
  · rw [h]
    exact ⟨rfl, rfl⟩
  · rw [h]
    exact ⟨rfl, rfl⟩
  · rw [h, applyTelegram_frame]
    exact ⟨rfl, rfl⟩

/-- A step keeps the masks, masks both ticks, or is the resume branch. -/
theorem step_masks {s t : State} (h : step s = .next t) :
    (t.sampleTickEnable = s.sampleTickEnable ∧ t.secTickEnable = s.secTickEnable) ∨ Masked t ∨
    (nextMove s = .main ∧ s.passPos = .reply ∧ s.resumePending = true ∧ s.errPending = false ∧
      s.ackPending = false ∧ t = resumeBranch (advancePass (takeMove s))) := by
  rcases step_main_or_handler h with ⟨hm, hp, rfl⟩ | ⟨-, -, rfl⟩ | ⟨-, -, rfl⟩ | ⟨hsame, -, -⟩
  · rcases replyPass_masks (advancePass (takeMove s)) with hkept | ⟨hresume, herr, hack, hbranch⟩
    · exact .inl (by simpa using hkept)
    · exact .inr (.inr ⟨hm, hp, by simpa using hresume, by simpa using herr, by simpa using hack, hbranch⟩)
  · by_cases hq : (advancePass (takeMove s)).rxQueue = []
    · rw [rxPass_of_empty hq]
      exact .inl (by simp)
    · exact .inr (.inl (rxPass_masked hq))
  · rw [secPass_frame]
    exact .inl (by simp)
  · exact .inl ⟨hsame.sampleTickEnable, hsame.secTickEnable⟩

/-- Settles O50: of the three things a step can do to the masks only the resume branch lifts one. -/
theorem resumeBranchAloneEnablesTicks : Obligations.ResumeBranchAloneEnablesTicks := by
  refine ⟨fun s => by rw [exec_resumeBranch, resumeBranch_eq], fun s t hstep hlift => ?_⟩
  rcases step_masks hstep with ⟨hsample, hsec⟩ | ⟨hsample, hsec⟩ | ⟨hm, hp, hresume, herr, hack, rfl⟩
  · simp [hsample, hsec] at hlift
  · simp [hsample, hsec] at hlift
  · exact ⟨hm, hp, hresume, herr, hack, rfl, rfl, rfl⟩

/-! ## The transmit stream (R213, R245) -/

/-- `REPLY_PASS` sends the reply it owes, or nothing (R201, R207, R208). -/
theorem replyPass_txStream (s : State) :
    (replyPass s).txStream = s.txStream ∨
    ((replyPass s).txStream = s.txStream ++ errReply ∧ s.errPending = true ∧ (replyPass s).errPending = false) ∨
    ((replyPass s).txStream = s.txStream ++ ackReply ∧ s.errPending = false ∧ s.ackPending = true ∧
      (replyPass s).ackPending = false) := by
  rcases replyPass_cases s with ⟨herr, h⟩ | ⟨herr, hack, h⟩ | ⟨-, -, -, h⟩ | ⟨-, -, -, h⟩ <;> rw [h]
  · exact .inr (.inl ⟨rfl, herr, rfl⟩)
  · rw [ackBranch_eq]
    exact .inr (.inr ⟨rfl, herr, hack, rfl⟩)
  · exact .inl rfl
  · exact .inl rfl

/-- `SEC_PASS` sends a report of a served second in Normal mode, or nothing (R241, R245). -/
theorem secPass_txStream (s : State) :
    (secPass s).txStream = s.txStream ∨
    (s.oneSecondFlag = true ∧ s.tempReportEnable = true ∧
      ∃ d1 d0, (secPass s).txStream = s.txStream ++ [d1, d0, 0x0A]) := by
  rcases secPass_cases s with ⟨-, h⟩ | ⟨-, -, h⟩ | ⟨hflag, hreport, h⟩ <;> rw [h]
  · exact .inl rfl
  · exact .inl rfl
  · obtain ⟨k, -, -, -, htx | ⟨-, d1, d0, htx⟩, -⟩ := poll_cases (setOneSecond false s)
    · exact .inl htx
    · exact .inr ⟨hflag, hreport, d1, d0, htx⟩

/-- Settles O51: only `REPLY_PASS` and `SEC_PASS` write the stream. -/
theorem transmitStreamCauses : Obligations.TransmitStreamCauses := by
  intro s t hstep
  rcases step_main_or_handler hstep with ⟨hm, hp, rfl⟩ | ⟨-, -, rfl⟩ | ⟨hm, hp, rfl⟩ | ⟨-, -, htx⟩
  · rcases replyPass_txStream (advancePass (takeMove s)) with htx | ⟨htx, howed, hgiven⟩ |
      ⟨htx, herr, howed, hgiven⟩
    · exact .inl (by simpa using htx)
    · exact .inr (.inl ⟨by simpa [errReply] using htx, hm, hp, by simpa using howed, hgiven⟩)
    · exact .inr (.inr (.inl ⟨by simpa [ackReply] using htx, hm, hp, by simpa using herr, by simpa using howed,
        hgiven⟩))
  · rw [rxPass_frame]
    exact .inl (by simp)
  · rcases secPass_txStream (advancePass (takeMove s)) with htx | ⟨hflag, hreport, d1, d0, htx⟩
    · exact .inl (by simpa using htx)
    · exact .inr (.inr (.inr ⟨d1, d0, by simpa using htx, hm, hp, by simpa using hflag, by simpa using hreport,
        secPass_oneSecondFlag _⟩))
  · exact .inl htx

/-! ## The critical section (R210) -/

/-- No owned bit of the port, no image, no one-second flag, and no schedule unless a re-synthesis is owed. -/
structure OutputsFrozen (s t : State) : Prop where
  g1 : t.port.g1 = s.port.g1
  g2 : t.port.g2 = s.port.g2
  gs_low : t.port.gs.extractLsb' 0 4 = s.port.gs.extractLsb' 0 4
  portTrace : t.portTrace = s.portTrace
  oneSecond : t.oneSecondFlag = true → s.oneSecondFlag = true
  sched : t.sched ≠ s.sched → s.ackPending = true

theorem outputsFrozen_of_port {s t : State} (hport : t.port = s.port) (htrace : t.portTrace = s.portTrace)
    (hflag : t.oneSecondFlag = true → s.oneSecondFlag = true) (hsched : t.sched ≠ s.sched → s.ackPending = true) :
    OutputsFrozen s t :=
  ⟨by rw [hport], by rw [hport], by rw [hport], htrace, hflag, hsched⟩

theorem secTick_of_masked {s : State} (h : s.secTickEnable = false) : secTick s = s := by
  rw [secTick, h]
  rfl

/-- `REPLY_PASS` writes a schedule only in the acknowledgment branch (R200, R206). -/
theorem replyPass_sched {s : State} (h : (replyPass s).sched ≠ s.sched) : s.ackPending = true := by
  rcases replyPass_synth s with ⟨hframe, -⟩ | ⟨-, howed, -⟩
  · exact absurd (by rw [hframe]) h
  · exact howed

/-- A masked step changes no output (R210). -/
theorem step_outputsFrozen {s t : State} (hmask : Masked s) (h : step s = .next t) : OutputsFrozen s t := by
  obtain ⟨hsample, hsec⟩ := hmask
  rcases step_cases h with ⟨-, -, rfl⟩ | ⟨-, -, rfl⟩ | ⟨-, -, rfl⟩ | ⟨-, rfl⟩ | ⟨-, rfl⟩ | ⟨b, -, rfl⟩ | ⟨v, -, rfl⟩
  · have hsched := replyPass_sched (s := advancePass (takeMove s))
    rw [replyPass_frame]
    exact outputsFrozen_of_port (by simp) (by simp) (by simp) (by simpa using hsched)
  · rw [rxPass_frame]
    exact outputsFrozen_of_port (by simp) (by simp) (by simp) (by simp)
  · have hclear := secPass_oneSecondFlag (advancePass (takeMove s))
    rw [secPass_frame]
    exact outputsFrozen_of_port (by simp) (by simp) (by simp [hclear]) (by simp)
  · rw [sampleTick_of_masked (by simpa using hsample)]
    exact outputsFrozen_of_port (by simp) (by simp) (by simp) (by simp)
  · rw [secTick_of_masked (by simpa using hsec)]
    exact outputsFrozen_of_port (by simp) (by simp) (by simp) (by simp)
  · exact outputsFrozen_of_port (by simp [rxEvent]) (by simp [rxEvent]) (by simp [rxEvent]) (by simp [rxEvent])
  · constructor
    case gs_low =>
      rw [setGsHigh_port, takeMove_port]
      exact BitVec.extractLsb'_append_eq_right
    all_goals simp

/-- At the pass position `rx` the main sequencer's step is `RX_PASS`. -/
theorem step_rx {s t : State} (h : step s = .next t) (hm : nextMove s = .main) (hp : s.passPos = .rx) :
    t = rxPass (advancePass (takeMove s)) := by
  rw [step, hm] at h
  simp only [runMove, takeMove_passPos, hp, mainOperation, exec_rxPass] at h
  exact (Host.Outcome.next.inj h).symm

/-- Settles O53: `RX_PASS` masks, a masked step freezes the outputs, and what lifts a mask is `step_masks`'s. -/
theorem criticalSectionFreezesOutputs : Obligations.CriticalSectionFreezesOutputs := by
  refine fun s t hstep => ⟨fun hm hp hq => ?_, fun hmask => ?_⟩
  · rw [step_rx hstep hm hp]
    exact rxPass_masked (by simpa using hq)
  · obtain ⟨hg1, hg2, hgs, htrace, hsecond, hsched⟩ := step_outputsFrozen hmask hstep
    refine ⟨hg1, hg2, hgs, htrace, hsecond, hsched, ?_⟩
    rcases step_masks hstep with ⟨hsample, hsec⟩ | hmasked | ⟨hm, hp, hresume, herr, hack, -⟩
    · exact .inl ⟨hsample.trans hmask.1, hsec.trans hmask.2⟩
    · exact .inl hmasked
    · exact .inr ⟨hm, hp, hresume, herr, hack⟩

/-! ## The discipline (R212) -/

/-- The buffer is within its capacity and holds no terminator (R31, R90). -/
def BufferClean (s : State) : Prop :=
  s.cmdLen ≤ cmdCap ∧ ∀ k, k < s.cmdLen → memRead .cmdBuf k s ≠ terminator

theorem bufferClean_of_empty {s : State} (h : s.cmdLen = 0) : BufferClean s :=
  ⟨by omega, fun k hk => by omega⟩

theorem BufferClean.of_same_buffer {s t : State} (h : BufferClean s) (hlen : t.cmdLen = s.cmdLen)
    (hbuf : t.cmdBuf = s.cmdBuf) : BufferClean t := by
  refine ⟨hlen ▸ h.1, fun k hk => ?_⟩
  rw [memRead, hbuf]
  exact h.2 k (hlen ▸ hk)

theorem storeByte_bufferClean {s : State} {ch : Byte} (hbuf : s.cmdBuf.wf) (h : BufferClean s)
    (hroom : s.cmdLen < cmdCap) (hch : ch ≠ terminator) : BufferClean (storeByte ch s) := by
  refine ⟨hroom, fun k hk => ?_⟩
  have hk : k < s.cmdLen + 1 := hk
  rw [memRead_storeByte hbuf]
  split
  · exact hch
  · exact h.2 k (by omega)

theorem Disciplined.bufferClean {s : State} (h : Disciplined s) : BufferClean s := ⟨h.len_le, h.no_terminator⟩

/-- With no reply owed, the masks are what is left to say. -/
theorem disciplined_of_replied {s : State} (hmasks : s.sampleTickEnable = s.secTickEnable)
    (herr : s.errPending = false) (hack : s.ackPending = false)
    (hresume : s.resumePending = true → s.sampleTickEnable = false) (hbuf : BufferClean s) : Disciplined s where
  masks_equal := hmasks
  err_masked := by simp [herr]
  ack_masked := by simp [hack]
  resume_masked := hresume
  one_reply := by simp [herr]
  replied_before_rx := fun _ => ⟨herr, hack⟩
  len_le := hbuf.1
  no_terminator := hbuf.2

/-- With the ticks masked, the replies are what is left to say. -/
theorem disciplined_of_masked {s : State} (hmask : Masked s) (hone : ¬ (s.errPending = true ∧ s.ackPending = true))
    (hpass : s.passPos ≠ .rx) (hbuf : BufferClean s) : Disciplined s where
  masks_equal := hmask.1.trans hmask.2.symm
  err_masked := fun _ => hmask.1
  ack_masked := fun _ => hmask.1
  resume_masked := fun _ => hmask.1
  one_reply := hone
  replied_before_rx := fun hp => absurd hp hpass
  len_le := hbuf.1
  no_terminator := hbuf.2

/-- The discipline depends on the protocol's fields alone, and on the pass position at `RX_PASS`. -/
theorem Disciplined.of_sameProtocol {s t : State} (h : Disciplined s) (hsame : SameProtocol s t)
    (hpass : t.passPos = .rx → s.passPos = .rx) : Disciplined t := by
  obtain ⟨hbuf, hlen, herr, hack, hresume, hsample, hsec⟩ := hsame
  have hclean := h.bufferClean.of_same_buffer hlen hbuf
  constructor
  case masks_equal => rw [hsample, hsec, h.masks_equal]
  case err_masked => rw [herr, hsample]; exact h.err_masked
  case ack_masked => rw [hack, hsample]; exact h.ack_masked
  case resume_masked => rw [hresume, hsample]; exact h.resume_masked
  case one_reply => rw [herr, hack]; exact h.one_reply
  case replied_before_rx => rw [herr, hack]; exact fun hp => h.replied_before_rx (hpass hp)
  case len_le => exact hclean.1
  case no_terminator => exact hclean.2

/-- `REPLY_PASS` gives the reply that is owed, at most one, before the next byte (R180, R200). -/
theorem replyPass_disciplined {s : State} (h : Disciplined s) : Disciplined (replyPass (advancePass s)) := by
  rcases replyPass_cases (advancePass s) with ⟨herr, he⟩ | ⟨herr, -, he⟩ | ⟨herr, hack, -, he⟩ |
    ⟨herr, hack, -, he⟩ <;> rw [he]
  · have herr : s.errPending = true := herr
    have hack : s.ackPending = false := by simpa [herr] using h.one_reply
    rw [recoverFormatError_eq]
    exact disciplined_of_replied h.masks_equal rfl hack h.resume_masked (bufferClean_of_empty rfl)
  · rw [ackBranch_eq, resynthesize_eq]
    exact disciplined_of_replied h.masks_equal herr rfl h.resume_masked (bufferClean_of_empty rfl)
  · rw [resumeBranch_eq]
    exact disciplined_of_replied rfl herr hack nofun (bufferClean_of_empty rfl)
  · exact disciplined_of_replied h.masks_equal herr hack h.resume_masked h.bufferClean

theorem raiseFormatError_disciplined {s : State} (hmask : Masked s) (hack : s.ackPending = false)
    (hpass : s.passPos ≠ .rx) : Disciplined (raiseFormatError s) :=
  disciplined_of_masked hmask (by simp [raiseFormatError, hack]) hpass (bufferClean_of_empty rfl)

/-- A telegram run with the ticks masked and no reply owed comes to owe one reply at most (R185). -/
theorem applyTelegram_disciplined (tg : Telegram) {s : State} (hmask : Masked s) (herr : s.errPending = false)
    (hack : s.ackPending = false) (hpass : s.passPos ≠ .rx) (hclean : BufferClean s) :
    Disciplined (applyTelegram tg s) := by
  rcases applyTelegram_cases tg s with h | h | ⟨c, d, h, -, -⟩ <;> rw [h]
  · exact raiseFormatError_disciplined hmask hack hpass
  · exact disciplined_of_masked hmask (by simp [scheduleResume, herr]) hpass (hclean.of_same_buffer rfl rfl)
  · exact disciplined_of_masked hmask (by simp [herr]) hpass (hclean.of_same_buffer rfl rfl)

/-- `RX_PASS` masks the ticks before it can owe anything, and owes one reply at most (R181, R185). -/
theorem rxPass_disciplined {s : State} (hbuf : s.cmdBuf.wf) (h : Disciplined s) (hp : s.passPos = .rx) :
    Disciplined (rxPass (advancePass s)) := by
  obtain ⟨herr, hack⟩ := h.replied_before_rx hp
  rcases rxPass_cases (advancePass s) with ⟨-, he⟩ | ⟨ch, rest, -, hcase⟩
  · rw [he]
    exact disciplined_of_replied h.masks_equal herr hack h.resume_masked h.bufferClean
  · have hclean := h.bufferClean.of_same_buffer (t := setTicks false (setRxQueue rest (advancePass s))) rfl rfl
    have hpass : (advancePass s).passPos ≠ .rx := by simp [advancePass, hp, PassPos.next]
    rcases hcase with ⟨hch, hroom, he⟩ | he | ⟨-, tg, -, he⟩ <;> rw [he]
    · have hstored := storeByte_bufferClean hbuf hclean hroom hch
      rw [storeByte_eq] at hstored ⊢
      exact disciplined_of_replied rfl herr hack (fun _ => rfl) hstored
    · exact raiseFormatError_disciplined ⟨rfl, rfl⟩ hack hpass
    · exact applyTelegram_disciplined tg ⟨rfl, rfl⟩ herr hack hpass hclean

/-- Settles O55: by the four kinds of step. -/
theorem disciplineKept : Obligations.DisciplineKept := by
  intro s t hmem hdisc hstep
  have htake := hdisc.of_sameProtocol (takeMove_sameProtocol s) (by simp)
  rcases step_main_or_handler hstep with ⟨-, -, rfl⟩ | ⟨-, hp, rfl⟩ | ⟨-, hp, rfl⟩ | ⟨hsame, hpass, -⟩
  · exact replyPass_disciplined htake
  · exact rxPass_disciplined (by simpa using hmem.cmdBuf_wf.1) htake (by simpa using hp)
  · refine htake.of_sameProtocol ((advancePass_sameProtocol _).trans (secPass_sameProtocol _)) fun hrx => ?_
    rw [secPass_frame] at hrx
    simp [advancePass, hp, PassPos.next] at hrx
  · exact hdisc.of_sameProtocol hsame (by simp [hpass])

end Sys2Proof.Machine
end

section
/-! PROOF. The bus driver and the poller: the bounded wait, the primitives on a listed and on a drawn answer,
the 1 Hz tick and its service, and `POLL` on listed answers (spec/43_bus_and_poller.md). -/

namespace Sys2Proof.Machine

/-! ## The bounded wait (R232) -/

/-- A flag not seen within the polls that are left: the wait makes them all. -/
theorem awaitAck_of_unseen {ans : BusAnswer} (left made : Nat)
    (hunseen : ∀ n good data, ans = .done n good data → made + left < n) :
    awaitAck ans left made = (.timeout, made + left) := by
  induction left generalizing made with
  | zero => rfl
  | succ left ih =>
    have hrest := ih (made + 1) fun n good data h => by have := hunseen n good data h; omega
    have hcount : made + 1 + left = made + (left + 1) := by omega
    cases ans with
    | never => rw [awaitAck, hrest, hcount]
    | done n good data =>
      have hn := hunseen n good data rfl
      rw [awaitAck, if_neg (by omega), hrest, hcount]

/-- A flag first seen on poll `n`, among the polls that are left: the wait ends on that poll. -/
theorem awaitAck_of_seen {n left made : Nat} (good : Bool) (data : Byte) (hmade : made < n) (hleft : n ≤ made + left) :
    awaitAck (.done n good data) left made = (if good then .ok data else .protocolError, n) := by
  induction left generalizing made with
  | zero => omega
  | succ left ih =>
    rw [awaitAck]
    split
    · rw [show made + 1 = n by omega]
    · exact ih (by omega) (by omega)

/-- Only a good answer within the polls that are left makes the wait end with `Ok`. -/
theorem eq_done_of_awaitAck_ok {ans : BusAnswer} {left made : Nat} {v : Byte} (h : (awaitAck ans left made).1 = .ok v) :
    ∃ n, ans = .done n true v ∧ n ≤ made + left := by
  induction left generalizing made with
  | zero => exact nomatch h
  | succ left ih =>
    cases ans with
    | never => exact absurd (ih h) (by simp)
    | done n good data =>
      rw [awaitAck] at h
      split at h
      · cases good with
        | false => exact nomatch h
        | true => exact ⟨n, by rw [BusResult.ok.inj h], by omega⟩
      · obtain ⟨m, hm, hle⟩ := ih h
        exact ⟨m, hm, by omega⟩

theorem awaitAck_never (budget : Nat) : awaitAck .never budget 0 = (.timeout, budget) := by
  rw [awaitAck_of_unseen budget 0 (by simp), Nat.zero_add]

theorem awaitAck_late {n budget : Nat} (good : Bool) (data : Byte) (h : budget < n) :
    awaitAck (.done n good data) budget 0 = (.timeout, budget) := by
  rw [awaitAck_of_unseen budget 0 fun m _ _ he => by cases he; omega, Nat.zero_add]

theorem awaitAck_inTime {n budget : Nat} (good : Bool) (data : Byte) (hpos : 1 ≤ n) (hle : n ≤ budget) :
    awaitAck (.done n good data) budget 0 = (if good then .ok data else .protocolError, n) :=
  awaitAck_of_seen good data hpos (by omega)

/-- Settles O35: `PRIM` by its definition, and the two ways the wait can end. -/
theorem boundedWaitNeverHangs : Obligations.BoundedWaitNeverHangs :=
  ⟨fun _ _ => rfl, fun budget => ⟨awaitAck_never budget, fun _ data hpos =>
    ⟨fun hle => ⟨awaitAck_inTime true data hpos hle, awaitAck_inTime false data hpos hle⟩,
      fun hlate good => awaitAck_late good data hlate⟩⟩⟩

/-! ## The primitives (R233 to R236) -/

theorem primResult_never (budget : Nat) : primResult budget .never = .timeout := by
  rw [primResult, awaitAck_never]

theorem primResult_late {n budget : Nat} (good : Bool) (data : Byte) (h : budget < n) :
    primResult budget (.done n good data) = .timeout := by
  rw [primResult, awaitAck_late good data h]

theorem primResult_inTime {n budget : Nat} (good : Bool) (data : Byte) (hpos : 1 ≤ n) (hle : n ≤ budget) :
    primResult budget (.done n good data) = if good then .ok data else .protocolError := by
  rw [primResult, awaitAck_inTime good data hpos hle]

/-- The answers that end `POLL` are those whose result is not `Ok` (R232, R243). -/
theorem primResult_ne_ok {budget : Nat} {a : BusAnswer}
    (hbad : a = .never ∨ (∃ n data, a = .done n false data) ∨ ∃ n g data, a = .done n g data ∧ budget < n) (v : Byte) :
    primResult budget a ≠ .ok v := by
  intro hok
  obtain ⟨m, rfl, hle⟩ := eq_done_of_awaitAck_ok hok
  rcases hbad with h | ⟨n, data, h⟩ | ⟨n, g, data, h, hlate⟩
  · exact nomatch h
  · exact nomatch h
  · cases h
    omega

/-- The state once the requests `rs` are handed over and answered from the list, of which `rest` remains. -/
def answered (rs : List BusRequest) (rest : List BusAnswer) (s : State) : State :=
  { s with busRequests := s.busRequests ++ rs, busAnswers := rest }

theorem answered_nil (s : State) : answered [] s.busAnswers s = s := by
  simp [answered]

theorem answered_answered (rs rs' : List BusRequest) (rest rest' : List BusAnswer) (s : State) :
    answered rs' rest' (answered rs rest s) = answered (rs ++ rs') rest' s := by
  simp [answered]

/-- A primitive with an answer listed (R54, log entry 2). -/
theorem busPrim_of_listed {s : State} {a : BusAnswer} {rest : List BusAnswer} (r : BusRequest)
    (h : s.busAnswers = a :: rest) :
    busPrim r s = (primResult s.params.busBudget a, answered [r] rest s) := by
  simp [busPrim, nextAnswer, takeAnswer, busRequest, answered, h]

/-- A primitive with no answer listed draws one (R54, log entry 2). -/
theorem busPrim_of_drawn {s : State} (r : BusRequest) (h : s.busAnswers = []) :
    busPrim r s = (primResult s.params.busBudget (Config.freeAnswer s.draws),
      { s with busRequests := s.busRequests ++ [r], draws := s.draws + 1 }) := by
  simp [busPrim, nextAnswer, takeAnswer, busRequest, h]

/-- Settles O36: all four are `PRIM` of their request, which is known on a listed and on a drawn answer. -/
theorem primitivesHandOverRequests : Obligations.PrimitivesHandOverRequests := by
  intro s i p r hprim
  obtain ⟨rfl, hexec⟩ : p = busPrim r ∧ exec i s = .next (busPrim r s).2 := by
    rcases hprim with ⟨rfl, rfl, rfl⟩ | ⟨dir, addr, rfl, rfl, rfl⟩ | ⟨data, rfl, rfl, rfl⟩ | ⟨isLast, rfl, rfl, rfl⟩
    all_goals exact ⟨rfl, rfl⟩
  refine ⟨hexec, fun a rest hlist => ?_, fun hnone => ?_⟩
  · rw [hexec, busPrim_of_listed r hlist]
    refine ⟨rfl, ?_, fun n data hpos => ⟨?_, ?_, ?_⟩⟩
    · rintro rfl
      exact primResult_never _
    · rintro rfl hle
      exact primResult_inTime true data hpos hle
    · rintro rfl hle
      exact primResult_inTime false data hpos hle
    · rintro good rfl hlate
      exact primResult_late good data hlate
  · rw [hexec, busPrim_of_drawn r hnone, busPrim_of_listed r rfl]
    exact ⟨rfl, rfl⟩

/-! ## The 1 Hz tick and its service (R240, R241) -/

theorem exec_secTick (s : State) : exec .secTick s = .next (secTick s) := rfl

theorem secTick_of_enabled {s : State} (h : s.secTickEnable = true) : secTick s = setOneSecond true s := by
  rw [secTick, if_pos h]

/-- Settles O37: the two cases of the mask. -/
theorem secTickSetsFlag : Obligations.SecTickSetsFlag := by
  refine fun s => ⟨fun h => ?_, fun h => ?_⟩
  · rw [exec_secTick, secTick_of_enabled h]
    rfl
  · rw [exec_secTick, secTick_of_masked h]

theorem exec_poll (s : State) : exec .poll s = .next (poll s) := rfl

/-- Settles O38: the three cases of `SEC_PASS`, which exclude one another. -/
theorem secPassServesFlag : Obligations.SecPassServesFlag := by
  refine fun s => ⟨secPass s, exec_secPass s, ?_⟩
  rcases secPass_cases s with ⟨hflag, h⟩ | ⟨hflag, hreport, h⟩ | ⟨hflag, hreport, h⟩ <;> rw [h]
  · simp [hflag]
  · simp [hflag, hreport, setOneSecond]
  · simp [hflag, hreport, setOneSecond, exec_poll]

/-! ## `REPORT` (R244) -/

theorem exec_report (v : Byte) (s : State) : exec (.report v) s = .next (report v s) := rfl

theorem report_of_digits {v : Byte} {tens ones : Nat} (htens : tens ≤ 9) (hones : ones ≤ 9)
    (hv : v.toNat = 10 * tens + ones) (s : State) : report v s = emit (reportDigits tens ones) s := by
  have hdiv : v.toNat / 10 = tens := by omega
  have hmod : v.toNat % 10 = ones := by omega
  rw [report, if_pos (by omega), hdiv, hmod]

theorem report_of_hundred {v : Byte} (hv : 100 ≤ v.toNat) (s : State) :
    report v s = drawn 2 (emit [Config.freeByte s.draws, Config.freeByte (s.draws + 1), 0x0A] s) := by
  rw [report, if_neg (by omega)]

/-- Settles O41: the two decimal digits, or the two drawn bytes. -/
theorem reportSendsTwoDigits : Obligations.ReportSendsTwoDigits := by
  refine fun v s => ⟨fun tens ones htens hones hv => ?_, fun hv =>
    ⟨Config.freeByte s.draws, Config.freeByte (s.draws + 1), ?_⟩⟩
  · rw [exec_report, report_of_digits htens hones hv]
    rfl
  · rw [exec_report, report_of_hundred hv]
    rfl

/-! ## `POLL` (R242, R243) -/

/-- Settles O39: everything `POLL` can do. -/
theorem pollIssuesRequestsInOrder : Obligations.PollIssuesRequestsInOrder := by
  intro s
  obtain ⟨k, hpos, hle, hrequests, htx, hframe⟩ := poll_cases s
  exact ⟨poll s, k, exec_poll s, hpos, hle, hrequests, htx, hframe⟩

theorem runPrims_cons_of_ok {p : State → BusResult × State} {s t : State} {data : Byte} (h : p s = (.ok data, t))
    (last : Byte) (ps : List (State → BusResult × State)) : runPrims last (p :: ps) s = runPrims data ps t := by
  rw [runPrims, h]

theorem runPrims_cons_of_not_ok {p : State → BusResult × State} {s t : State} {res : BusResult} (h : p s = (res, t))
    (hres : ∀ v, res ≠ .ok v) (last : Byte) (ps : List (State → BusResult × State)) :
    runPrims last (p :: ps) s = (res, t) := by
  cases res with
  | ok v => exact absurd rfl (hres v)
  | protocolError => rw [runPrims, h]
  | timeout => rw [runPrims, h]

/-- Listed good answers take the sequence past as many requests; the last data byte is carried on. -/
theorem runPrims_of_good {s : State} (good : List (Nat × Byte)) (rest : List BusAnswer) (rs : List BusRequest)
    (last : Byte) (hlen : good.length ≤ rs.length) (hgood : ∀ g ∈ good, 1 ≤ g.1 ∧ g.1 ≤ s.params.busBudget)
    (hlist : s.busAnswers = good.map (fun g => .done g.1 true g.2) ++ rest) :
    runPrims last (rs.map busPrim) s =
      runPrims ((good.map Prod.snd).getLastD last) ((rs.drop good.length).map busPrim)
        (answered (rs.take good.length) rest s) := by
  induction good generalizing s rs last with
  | nil =>
    obtain rfl : s.busAnswers = rest := hlist
    simp [answered_nil]
  | cons g good ih =>
    cases rs with
    | nil => exact absurd hlen (by simp)
    | cons r rs =>
      obtain ⟨hpos, hle⟩ := hgood g List.mem_cons_self
      have hprim := busPrim_of_listed r hlist
      rw [primResult_inTime true g.2 hpos hle] at hprim
      have hrest := ih (s := answered [r] (good.map (fun g => .done g.1 true g.2) ++ rest) s) rs g.2
        (Nat.le_of_succ_le_succ hlen) (fun g' h => hgood g' (List.mem_cons_of_mem _ h)) rfl
      rw [answered_answered] at hrest
      rw [List.map_cons, List.map_cons, List.getLastD_cons]
      exact (runPrims_cons_of_ok hprim last _).trans hrest

/-- After the good answers one whose result is not `Ok` ends the sequence at its request (R243). -/
theorem runPrims_of_good_then_bad {s : State} {good : List (Nat × Byte)} {a : BusAnswer} {rest : List BusAnswer}
    {rs : List BusRequest} (last : Byte) (hlen : good.length < rs.length)
    (hgood : ∀ g ∈ good, 1 ≤ g.1 ∧ g.1 ≤ s.params.busBudget) (hbad : ∀ v, primResult s.params.busBudget a ≠ .ok v)
    (hlist : s.busAnswers = good.map (fun g => .done g.1 true g.2) ++ a :: rest) :
    runPrims last (rs.map busPrim) s =
      (primResult s.params.busBudget a, answered (rs.take (good.length + 1)) rest s) := by
  have hprim := busPrim_of_listed (s := answered (rs.take good.length) (a :: rest) s) rs[good.length] rfl
  rw [answered_answered, List.take_append_getElem] at hprim
  rw [runPrims_of_good good (a :: rest) rs last hlen.le hgood hlist, List.drop_eq_getElem_cons hlen, List.map_cons]
  exact runPrims_cons_of_not_ok hprim hbad _ _

theorem poll_of_ok {s t : State} {v : Byte} (h : runPrims 0 (pollSequence s.params) s = (.ok v, t)) :
    poll s = report v t := by
  rw [poll, h]

theorem poll_of_not_ok {s t : State} {res : BusResult} (h : runPrims 0 (pollSequence s.params) s = (res, t))
    (hres : ∀ v, res ≠ .ok v) : poll s = t := by
  cases res with
  | ok v => exact absurd rfl (hres v)
  | protocolError => rw [poll, h]
  | timeout => rw [poll, h]

/-- Settles O40: the nine good answers run the whole sequence, and a bad one ends it at its request. -/
theorem pollDecidedByAnswers : Obligations.PollDecidedByAnswers := by
  intro s good rest nine hnine hgood
  obtain rfl : nine = pollRequests s.params := hnine
  refine ⟨fun n v hlen hpos hle hlist => ⟨_, exec_poll s, ?_⟩, fun a hlen hbad hlist => ?_⟩
  · have hgood9 : ∀ g ∈ good ++ [(n, v)], 1 ≤ g.1 ∧ g.1 ≤ s.params.busBudget := by
      simpa [or_imp, forall_and, hpos, hle] using hgood
    have hlen9 : (good ++ [(n, v)]).length = (pollRequests s.params).length := by simp [hlen, pollRequests]
    have hrun := runPrims_of_good (good ++ [(n, v)]) rest (pollRequests s.params) 0 hlen9.le hgood9 (by simpa using hlist)
    rw [hlen9, List.drop_length, List.take_length, List.map_append, List.map_singleton, List.getLastD_concat] at hrun
    rw [poll_of_ok hrun, exec_report]
    rfl
  · have hnotOk := primResult_ne_ok hbad
    have hrun := runPrims_of_good_then_bad (rs := pollRequests s.params) 0 hlen hgood hnotOk hlist
    rw [exec_poll, poll_of_not_ok hrun hnotOk]
    rfl

end Sys2Proof.Machine
end

section
/-! PROOF. No step stops (R265), and any two different handlers commute (R269): each is a total function of the
state, and they write disjoint fields of which none reads another's (R75). -/

namespace Sys2Proof.Machine

theorem exec_rxEvent (b : Byte) (s : State) : exec (.rxEvent b) s = .next (rxEvent b s) := rfl

/-! ## Nothing is fatal (R265) -/

theorem exists_exec_mainOperation (p : PassPos) (s : State) : ∃ t, exec (mainOperation p) s = .next t := by
  cases p with
  | reply => exact ⟨_, exec_replyPass s⟩
  | rx => exact ⟨_, exec_rxPass s⟩
  | sec => exact ⟨_, exec_secPass s⟩

theorem exists_runMove (m : Move) (s : State) : ∃ t, runMove m s = .next t := by
  cases m with
  | main => exact exists_exec_mainOperation s.passPos (advancePass s)
  | sampleTick => exact ⟨_, exec_sampleTick s⟩
  | secTick => exact ⟨_, exec_secTick s⟩
  | rxEvent b => exact ⟨_, exec_rxEvent b s⟩
  | gsHigh v => exact ⟨setGsHigh v s, rfl⟩

/-- Settles O48: whichever agent moves, its operation gives a next state. -/
theorem everyStepContinues : Obligations.EveryStepContinues :=
  fun s => exists_runMove (nextMove s) (takeMove s)

/-! ## The handlers commute (R269, R75) -/

/-- `SAMPLE_TICK` commutes with an operation that leaves its mask alone and commutes with its body. -/
theorem sampleTick_commute_of {f : State → State} (hmask : ∀ s, (f s).sampleTickEnable = s.sampleTickEnable)
    (hrun : Function.Commute runTick f) : Function.Commute sampleTick f := by
  intro s
  by_cases h : s.sampleTickEnable = true
  · rw [sampleTick_of_enabled h, sampleTick_of_enabled ((hmask s).trans h), hrun s]
  · have hoff := Bool.eq_false_of_not_eq_true h
    rw [sampleTick_of_masked hoff, sampleTick_of_masked ((hmask s).trans hoff)]

/-- `SEC_TICK` without its case split: the flag is set when the tick is not masked (R240). -/
theorem secTick_eq (s : State) : secTick s = setOneSecond (s.secTickEnable || s.oneSecondFlag) s := by
  by_cases h : s.secTickEnable = true
  · rw [secTick_of_enabled h, h, Bool.true_or]
  · have hoff := Bool.eq_false_of_not_eq_true h
    rw [secTick_of_masked hoff, hoff, Bool.false_or]
    rfl

theorem runTick_commute_secTick : Function.Commute runTick secTick := by
  intro s
  rw [secTick_eq, secTick_eq, runTick_eq, runTick_eq]
  rfl

theorem runTick_commute_rxEvent (b : Byte) : Function.Commute runTick (rxEvent b) := by
  intro s
  rw [runTick_eq, runTick_eq]
  rfl

theorem sampleTick_commute_secTick : Function.Commute sampleTick secTick :=
  sampleTick_commute_of (fun s => by rw [secTick_eq, setOneSecond_sampleTickEnable]) runTick_commute_secTick

theorem sampleTick_commute_rxEvent (b : Byte) : Function.Commute sampleTick (rxEvent b) :=
  sampleTick_commute_of (fun _ => rfl) (runTick_commute_rxEvent b)

theorem secTick_commute_rxEvent (b : Byte) : Function.Commute secTick (rxEvent b) := by
  intro s
  rw [secTick_eq, secTick_eq]
  rfl

/-- Two operations that are total functions of the state give one state in either order when those commute. -/
theorem exec_comm_of_commute {i j : Instr} {f g : State → State} (hi : ∀ s, exec i s = .next (f s))
    (hj : ∀ s, exec j s = .next (g s)) (hfg : Function.Commute f g) {s t u v w : State} (hst : exec i s = .next t)
    (htu : exec j t = .next u) (hsv : exec j s = .next v) (hvw : exec i v = .next w) : u = w := by
  rw [hi] at hst hvw
  rw [hj] at htu hsv
  cases hst
  cases htu
  cases hsv
  cases hvw
  exact (hfg s).symm

/-- Settles O49: the pairs of handlers, of which the two byte events are excluded. -/
theorem handlersCommute : Obligations.HandlersCommute := by
  intro s t u v w i j hi hj hnotBoth
  rcases hi with rfl | rfl | ⟨b, rfl⟩ <;> rcases hj with rfl | rfl | ⟨c, rfl⟩
  · exact exec_comm_of_commute exec_sampleTick exec_sampleTick (.refl _)
  · exact exec_comm_of_commute exec_sampleTick exec_secTick sampleTick_commute_secTick
  · exact exec_comm_of_commute exec_sampleTick (exec_rxEvent c) (sampleTick_commute_rxEvent c)
  · exact exec_comm_of_commute exec_secTick exec_sampleTick sampleTick_commute_secTick.symm
  · exact exec_comm_of_commute exec_secTick exec_secTick (.refl _)
  · exact exec_comm_of_commute exec_secTick (exec_rxEvent c) (secTick_commute_rxEvent c)
  · exact exec_comm_of_commute (exec_rxEvent b) exec_sampleTick (sampleTick_commute_rxEvent b).symm
  · exact exec_comm_of_commute (exec_rxEvent b) exec_secTick (secTick_commute_rxEvent b).symm
  · exact absurd rfl (hnotBoth ⟨b, rfl⟩ c)

end Sys2Proof.Machine
end

section
/-! PROOF. `RESET` (R292): a re-synthesis from the reset descriptors, then the clears, so that what earlier files
say of `resynthesize` carries over along `SynthFrame`. The table of R56 in every state, the state after reset as
a fixed point, and the invariants R293 names. -/

namespace Sys2Proof.Machine

theorem exec_reset (s : State) : exec .reset s = .next (resetBlock s) := rfl

theorem freshSched_counters (tInt : Nat) (tFloat : Rat) (d : Desc) :
    (freshSched tInt tFloat d).tableIndex = 0 ∧ (freshSched tInt tFloat d).sampleCounter = 0 ∧
      (freshSched tInt tFloat d).tickCounter = 0 := by
  rcases Nat.lt_or_ge d.frequency tInt with h | h
  · rw [freshSched_hold h]
    exact ⟨rfl, rfl, rfl⟩
  · rw [freshSched_skip h]
    exact ⟨rfl, rfl, rfl⟩

theorem resynthesize_sched_get (c : Channel) (s : State) :
    (resynthesize s).sched.get c = freshSched (resynthesize s).tfInt (resynthesize s).tfFloat (s.desc.get c) := by
  rw [resynthesize_eq]
  cases c <;> rfl

/-! ## What `RESET` leaves (R56, R292) -/

/-- The clears leave what the re-synthesis from the reset descriptors has written. -/
theorem resetBlock_synthFrame (s : State) : SynthFrame (resynthesize (loadResetDesc s)) (resetBlock s) := by
  unfold resetBlock
  generalize resynthesize (loadResetDesc s) = r
  rfl

theorem resetBlock_params (s : State) : (resetBlock s).params = s.params := by
  rw [(resetBlock_synthFrame s).params_eq, resynthesize_eq]
  rfl

theorem resetBlock_desc (s : State) : (resetBlock s).desc = s.params.resetDesc := by
  rw [(resetBlock_synthFrame s).desc_eq, resynthesize_eq]
  rfl

theorem resetBlock_mode (s : State) : (resetBlock s).mode = modeOf s.params.resetDesc := by
  rw [(resetBlock_synthFrame s).mode_eq, resynthesize_eq]
  rfl

/-- The constants and the gate are those of the mode (R204, R205). -/
theorem resetBlock_modeGroup (s : State) :
    (resetBlock s).tfInt = s.params.tInt.get (resetBlock s).mode ∧
    (resetBlock s).tfFloat = s.params.tFloat.get (resetBlock s).mode ∧
    (resetBlock s).tickRateSel = s.params.tickRate.get (resetBlock s).mode ∧
    (resetBlock s).tempReportEnable = decide ((resetBlock s).mode = .normal) := by
  rw [resetBlock_synthFrame s, resynthesize_eq]
  exact ⟨rfl, rfl, rfl, rfl⟩

theorem resetBlock_tableMatches (c : Channel) (s : State) : TableMatches c (resetBlock s) :=
  (resetBlock_synthFrame s).tableMatches (resynthesize_tableMatches c _)

theorem resetBlock_scheduleMatches (c : Channel) (s : State) : ScheduleMatches c (resetBlock s) :=
  (resetBlock_synthFrame s).scheduleMatches (resynthesize_scheduleMatches c _)

theorem resetBlock_counters (c : Channel) (s : State) :
    ((resetBlock s).sched.get c).tableIndex = 0 ∧ ((resetBlock s).sched.get c).sampleCounter = 0 ∧
      ((resetBlock s).sched.get c).tickCounter = 0 := by
  rw [resetBlock_synthFrame s, resynthesize_sched_get]
  exact freshSched_counters _ _ _

/-- `RESET` touches neither the cells of the buffer nor `GS[7:4]`, and zeroes `GS[3:0]` (R31, R35). -/
theorem resetBlock_untouched (s : State) :
    (resetBlock s).cmdBuf = s.cmdBuf ∧ (resetBlock s).port.gs = s.port.gs.extractLsb' 4 4 ++ (0 : BitVec 4) := by
  rw [resetBlock, resynthesize_eq]
  exact ⟨rfl, rfl⟩

/-- Settles O43: what the re-synthesis gives by its frame, and the clears by their definition. -/
theorem resetEstablishesTable : Obligations.ResetEstablishesTable := by
  intro s
  obtain ⟨hint, hfloat, hrate, hgate⟩ := resetBlock_modeGroup s
  obtain ⟨-, hgs⟩ := resetBlock_untouched s
  refine ⟨resetBlock s, exec_reset s, resetBlock_params s, resetBlock_desc s, ?_, hint, hfloat, hrate, ?_,
    fun c => ⟨resetBlock_tableMatches c s, resetBlock_scheduleMatches c s, resetBlock_counters c s⟩,
    rfl, rfl, rfl, rfl, rfl, rfl, rfl, rfl, rfl, ?_, ?_, rfl, rfl, rfl, rfl⟩
  · rw [resetBlock_mode, modeOf_high]
  · rw [hgate, decide_eq_true_iff]
  · rw [hgs]
    exact BitVec.extractLsb'_append_eq_right
  · rw [hgs]
    exact BitVec.extractLsb'_append_eq_left

/-! ## The state after reset (R56, R293) -/

theorem resetBlock_reset : resetBlock State.reset = State.reset := by
  have hhigh : State.reset.port.gs.extractLsb' 4 4 = Config.gsHighAtReset := BitVec.extractLsb'_append_eq_left
  rw [resetBlock, resynthesize_eq]
  simp only [clearAtReset, loadResetDesc, hhigh]
  rfl

/-- Settles O44: `State.reset` is a fixed point of `RESET`. -/
theorem resetStateIsTheTable : Obligations.ResetStateIsTheTable :=
  congrArg Host.Outcome.next resetBlock_reset

/-! `RESET` establishes each invariant from any state with legal parameters and a canonical buffer. -/

theorem resetBlock_disciplined (s : State) : Disciplined (resetBlock s) :=
  disciplined_of_replied rfl rfl rfl nofun (bufferClean_of_empty rfl)

theorem resetBlock_coherent (s : State) : Coherent (resetBlock s) := by
  refine fun _ => ⟨?_, fun c => ⟨resetBlock_tableMatches c s, resetBlock_scheduleMatches c s⟩⟩
  rw [resetBlock_mode, resetBlock_desc]

theorem resetBlock_memoryCanonical {s : State} (hbuf : s.cmdBuf.wf ∧ s.cmdBuf.inSpace cmdCap) :
    MemoryCanonical (resetBlock s) where
  scaled_wf c := by
    rw [(resetBlock_synthFrame s).scaled_eq, resynthesize_eq]
    cases c <;> exact scaledTable_wf _ _
  cmdBuf_wf := by
    obtain ⟨hcells, -⟩ := resetBlock_untouched s
    rwa [hcells]

theorem resetBlock_configured {s : State} (hp : s.params.Legal) : Configured (resetBlock s) :=
  (resetBlock_synthFrame s).configured (resynthesize_configured hp hp.resetDesc_legal)

theorem resetBlock_schedulesBounded {s : State} (hp : s.params.Legal) : SchedulesBounded (resetBlock s) :=
  (resetBlock_synthFrame s).schedulesBounded (resynthesize_schedulesBounded hp hp.resetDesc_legal)

theorem reset_params_legal : State.reset.params.Legal := Config.params_legal

theorem reset_cmdBuf_canonical : State.reset.cmdBuf.wf ∧ State.reset.cmdBuf.inSpace cmdCap :=
  ⟨⟨.nil, nofun⟩, nofun⟩

/-- Settles O60: `State.reset` is what `RESET` leaves, and `RESET` establishes each invariant. -/
theorem invariantsHoldAtReset : Obligations.InvariantsHoldAtReset := by
  unfold Obligations.InvariantsHoldAtReset
  rw [← resetBlock_reset]
  exact ⟨resetBlock_disciplined _, resetBlock_coherent _, resetBlock_memoryCanonical reset_cmdBuf_canonical,
    resetBlock_configured reset_params_legal, resetBlock_schedulesBounded reset_params_legal⟩

end Sys2Proof.Machine
end
